-- ==== Sys2Proof/Word.lean ====
section
/-! DEFINITION. The word types: what the ports carry (`20_memory.md` R70, R72, R74) and the two IEEE 754
formats the block computes in (`00_scope.md` R9, R11), each held as its bit pattern. -/

namespace Sys2Proof

/-- One byte of a byte transport (R72). -/
abbrev Byte := BitVec 8

/-- A command word, data word or response word: 32 bits (R70, R72). -/
abbrev Word := BitVec 32

/-- The bit pattern of an IEEE 754 binary32 value: a knob position or an output sample (R9). -/
abbrev F32 := BitVec 32

/-- The bit pattern of an IEEE 754 binary64 value: time, level, signal, sample rate (R9). -/
abbrev F64 := BitVec 64

end Sys2Proof
end

