-- ==== Sys2Proof/Syntax.lean ====
section
/-! DEFINITION. The commands of the block (`30_encoding.md` R100 to R105): one constructor of `Instr` per row
of the opcode table. A command carries its operand fields at the widths of R101, its data words (R104), and
the value of its reserved bits: a word with reserved bits set is still that command, which the block
refuses when it executes it (R106, R108). -/

namespace Sys2Proof

/-- The two command ports (R8, R70). -/
inductive PortId where
  /-- port R, the real-time agent's -/
  | R
  /-- port C, the control agent's -/
  | C
deriving DecidableEq, Repr

/-- The defined opcodes, 0x00 to 0x0A (R102). -/
inductive Opcode where
  | nop | noteOn | noteOff | setParam | getParam | setSampleRate | render | reset
  | readStatus | readClock | readEnv
deriving DecidableEq, Repr

/-- The parameter registers `P[0..4]` by name (`10_state.md` R32). -/
inductive ParamIdx where
  | oscillator | attack | decay | sustain | release
deriving DecidableEq, Repr

/-- A command with all its words. Operand fields come first, data words next, reserved bits last. -/
inductive Instr where
  /-- NOP, format Z (R280); `rsv` is bits 23:0 -/
  | nop (rsv : BitVec 24)
  /-- NOTE_ON, format N1 (R151); `rsv` is bits 7:0 -/
  | noteOn (pitch vel : BitVec 8) (rsv : BitVec 8)
  /-- NOTE_OFF, format N2 (R153); `rsv` is bits 15:0 -/
  | noteOff (pitch : BitVec 8) (rsv : BitVec 16)
  /-- SET_PARAM, format I with one data word (R262); `rsv` is bits 15:0 -/
  | setParam (idx : BitVec 8) (data : Word) (rsv : BitVec 16)
  /-- GET_PARAM, format I (R263); `rsv` is bits 15:0 -/
  | getParam (idx : BitVec 8) (rsv : BitVec 16)
  /-- SET_SAMPLE_RATE, format D with data words LO, HI (R136); `rsv` is bits 23:0 -/
  | setSampleRate (lo hi : Word) (rsv : BitVec 24)
  /-- RENDER, format B, no reserved bits (R231) -/
  | render (nch : BitVec 8) (n : BitVec 16)
  /-- RESET, format Z (R282); `rsv` is bits 23:0 -/
  | reset (rsv : BitVec 24)
  /-- READ_STATUS, format Z (R284); `rsv` is bits 23:0 -/
  | readStatus (rsv : BitVec 24)
  /-- READ_CLOCK, format Z (R138); `rsv` is bits 23:0 -/
  | readClock (rsv : BitVec 24)
  /-- READ_ENV, format Z (R185); `rsv` is bits 23:0 -/
  | readEnv (rsv : BitVec 24)
deriving DecidableEq, Repr

end Sys2Proof
end

