-- ==== Sys2Proof/Decode.lean ====
section
/-! DEFINITION. Decoding and encoding of commands (`30_encoding.md` R100 to R108). The decoder is total on any
list of words: it answers a command and the words after it, or rejects by name. The encoder is written from
the same tables. -/

namespace Sys2Proof

/-! ### The tables of R102 and R103 -/

/-- The OPC value of an opcode (R102). -/
def Opcode.code : Opcode → BitVec 8
  | .nop => 0x00#8
  | .noteOn => 0x01#8
  | .noteOff => 0x02#8
  | .setParam => 0x03#8
  | .getParam => 0x04#8
  | .setSampleRate => 0x05#8
  | .render => 0x06#8
  | .reset => 0x07#8
  | .readStatus => 0x08#8
  | .readClock => 0x09#8
  | .readEnv => 0x0A#8

/-- The opcode of an OPC value; 0x0B to 0xFF are undefined (R102, R107). -/
def Opcode.ofCode? (c : BitVec 8) : Option Opcode :=
  if c = 0x00#8 then some .nop
  else if c = 0x01#8 then some .noteOn
  else if c = 0x02#8 then some .noteOff
  else if c = 0x03#8 then some .setParam
  else if c = 0x04#8 then some .getParam
  else if c = 0x05#8 then some .setSampleRate
  else if c = 0x06#8 then some .render
  else if c = 0x07#8 then some .reset
  else if c = 0x08#8 then some .readStatus
  else if c = 0x09#8 then some .readClock
  else if c = 0x0A#8 then some .readEnv
  else none

/-- The reserved mask of the command word (R102). -/
def Opcode.reservedMask : Opcode → Word
  | .nop => 0x00FFFFFF#32
  | .noteOn => 0x000000FF#32
  | .noteOff => 0x0000FFFF#32
  | .setParam => 0x0000FFFF#32
  | .getParam => 0x0000FFFF#32
  | .setSampleRate => 0x00FFFFFF#32
  | .render => 0x00000000#32
  | .reset => 0x00FFFFFF#32
  | .readStatus => 0x00FFFFFF#32
  | .readClock => 0x00FFFFFF#32
  | .readEnv => 0x00FFFFFF#32

/-- The opcode field OPC of a command word, bits 31:24 (R100). -/
def opcField (w : Word) : BitVec 8 := w.extractLsb' 24 8

/-- A command's length in words, from OPC alone (R103). -/
def cmdLength (w : Word) : Nat :=
  if opcField w = 0x03#8 then 2 else if opcField w = 0x05#8 then 3 else 1

/-! ### The fields of R101 and R105 -/

/-- Bits 23:16: PITCH, IDX or NCH. -/
def fieldB (w : Word) : BitVec 8 := w.extractLsb' 16 8

/-- Bits 15:8: VEL. -/
def fieldC (w : Word) : BitVec 8 := w.extractLsb' 8 8

/-- Bits 7:0. -/
def low8 (w : Word) : BitVec 8 := w.extractLsb' 0 8

/-- Bits 15:0: N, or reserved bits. -/
def low16 (w : Word) : BitVec 16 := w.extractLsb' 0 16

/-- Bits 23:0: the reserved bits of formats Z and D. -/
def low24 (w : Word) : BitVec 24 := w.extractLsb' 0 24

/-! ### Decoder -/

/-- Why a list of words is no command. -/
inductive DecodeError where
  /-- there is no command word -/
  | noWord
  /-- OPC is 0x0B to 0xFF (R107) -/
  | undefinedOpcode (opc : BitVec 8)
  /-- a data word of a multi-word command is missing (R103) -/
  | missingDataWord
deriving DecidableEq, Repr

/-- What the decoder answers: a command with the words after it, or a rejection by name. -/
inductive DecodeResult where
  | command (i : Instr) (rest : List Word)
  | rejected (e : DecodeError)
deriving DecidableEq, Repr

/-- Decode the command of opcode `op` whose command word is `w`, with `ws` after it (R101, R104, R105). -/
def decodeAs (op : Opcode) (w : Word) (ws : List Word) : DecodeResult :=
  match op with
  | .nop => .command (.nop (low24 w)) ws
  | .noteOn => .command (.noteOn (fieldB w) (fieldC w) (low8 w)) ws
  | .noteOff => .command (.noteOff (fieldB w) (low16 w)) ws
  | .setParam =>
    match ws with
    | d :: rest => .command (.setParam (fieldB w) d (low16 w)) rest
    | [] => .rejected .missingDataWord
  | .getParam => .command (.getParam (fieldB w) (low16 w)) ws
  | .setSampleRate =>
    match ws with
    | lo :: hi :: rest => .command (.setSampleRate lo hi (low24 w)) rest
    | _ => .rejected .missingDataWord
  | .render => .command (.render (fieldB w) (low16 w)) ws
  | .reset => .command (.reset (low24 w)) ws
  | .readStatus => .command (.readStatus (low24 w)) ws
  | .readClock => .command (.readClock (low24 w)) ws
  | .readEnv => .command (.readEnv (low24 w)) ws

/-- The decoder (R108: "every 32-bit word decodes, either to a defined command or to ILLEGAL"). -/
def decode : List Word → DecodeResult
  | [] => .rejected .noWord
  | w :: ws =>
    match Opcode.ofCode? (opcField w) with
    | some op => decodeAs op w ws
    | none => .rejected (.undefinedOpcode (opcField w))

/-! ### Encoder -/

/-- A command word of format Z or D: OPC, 24 reserved bits. -/
def wordZ (op : Opcode) (rsv : BitVec 24) : Word := op.code ++ rsv

/-- A command word of format N2 or I: OPC, an 8-bit field, 16 reserved bits; also format B, with N. -/
def wordB (op : Opcode) (b : BitVec 8) (low : BitVec 16) : Word := (op.code ++ b) ++ low

/-- A command word of format N1: OPC, PITCH, VEL, 8 reserved bits. -/
def wordN1 (op : Opcode) (b c low : BitVec 8) : Word := (op.code ++ b) ++ (c ++ low)

/-- The words of a command (R101, R104). -/
def encode : Instr → List Word
  | .nop rsv => [wordZ .nop rsv]
  | .noteOn p v rsv => [wordN1 .noteOn p v rsv]
  | .noteOff p rsv => [wordB .noteOff p rsv]
  | .setParam i d rsv => [wordB .setParam i rsv, d]
  | .getParam i rsv => [wordB .getParam i rsv]
  | .setSampleRate lo hi rsv => [wordZ .setSampleRate rsv, lo, hi]
  | .render nch n => [wordB .render nch n]
  | .reset rsv => [wordZ .reset rsv]
  | .readStatus rsv => [wordZ .readStatus rsv]
  | .readClock rsv => [wordZ .readClock rsv]
  | .readEnv rsv => [wordZ .readEnv rsv]

/-- The opcode of a command. -/
def Instr.opcode : Instr → Opcode
  | .nop _ => .nop
  | .noteOn _ _ _ => .noteOn
  | .noteOff _ _ => .noteOff
  | .setParam _ _ _ => .setParam
  | .getParam _ _ => .getParam
  | .setSampleRate _ _ _ => .setSampleRate
  | .render _ _ => .render
  | .reset _ => .reset
  | .readStatus _ => .readStatus
  | .readClock _ => .readClock
  | .readEnv _ => .readEnv

/-! ### The opcode table's numbering of bits -/

/-- The three words of an instruction whose bits are the low `nbits` bits of `w`, bit 0 the least
significant bit of the first word; three is the longest command (R103). -/
def tableWords (nbits w : Nat) : List Word :=
  let v := w % 2 ^ nbits
  [BitVec.ofNat 32 v, BitVec.ofNat 32 (v / 2 ^ 32), BitVec.ofNat 32 (v / 2 ^ 64)]

/-- The words of exactly the one command that begins `tableWords nbits w`. -/
def tableCommand (nbits w : Nat) : List Word :=
  (tableWords nbits w).take (cmdLength (BitVec.ofNat 32 (w % 2 ^ nbits)))

/-- The command the decoder reads from an instruction whose bits are `w`. -/
def decodeTableWord (nbits w : Nat) : Option Instr :=
  match decode (tableCommand nbits w) with
  | .command i _ => some i
  | .rejected _ => none

end Sys2Proof
end

