-- ==== Sys2Proof/Config.lean ====
section
/-! DEFINITION. What an implementation of the block fixes (`00_scope.md` R9) and the values the spec leaves
open: the raw configuration functions of R10 and the bit patterns of NaN results. -/

namespace Sys2Proof

/-- The numeric configuration parameters of R9. "A model that takes a different value is a different
configuration of the block, not a different block", so they are data, held in `State.cfg` (log 3). -/
structure Config where
  /-- `DUR_EPS`: durations at or below it are instantaneous (R172). -/
  durEps : F64
  /-- `MAX_DURATION_S`: full scale of the attack, decay and release knobs (R264). -/
  maxDurationS : F64
  /-- `DECLICK_TAU_S`: the declick time constant; +0.0 is the bypass (R237, R238). -/
  declickTauS : F64
  /-- `DECLICK_SNAP`: the magnitude below which silence snaps to +0.0 (R237, R239). -/
  declickSnap : F64
  /-- `RESET_SAMPLE_RATE` (R33). -/
  resetSampleRate : F64
deriving DecidableEq, Repr

/-- The values R9 fixes for this hardware: 2^-20 s, 4.0 s, 0.003 s, 2^-24, 44100.0 Hz. -/
def Config.savoy : Config where
  durEps := 0x3EB0000000000000#64
  maxDurationS := 0x4010000000000000#64
  declickTauS := 0x3F689374BC6A7EFA#64
  declickSnap := 0x3E70000000000000#64
  resetSampleRate := 0x40E5888000000000#64

/-- The bypass configuration of R9 and R237: this hardware with `DECLICK_TAU_S` = 0.0, the configuration
in which `95_test_vectors.md` gives its exact vectors. -/
def Config.bypass : Config := { Config.savoy with declickTauS := 0x0000000000000000#64 }

/-- `TWO_PI` of R9: the binary64 nearest to 2π. -/
def Config.twoPi : F64 := 0x401921FB54442D18#64

/-- The binary64 operators that can give a NaN. -/
inductive FloatOp where
  | add | sub | mul | div | fmod | widen
deriving DecidableEq, Repr

/-- FREE VALUE (log 4): an arbitrary function, from which `sin64` is made by keeping what R10 asks of it. -/
opaque Config.rawSin64 : F64 → F64

/-- FREE VALUE (log 4): an arbitrary function, from which `exp2_64` is made by keeping what R10 asks of it. -/
opaque Config.rawExp2 : F64 → F64

/-- FREE VALUE (log 4): an arbitrary function, from which `exp64` is made by keeping what R10 asks of it. -/
opaque Config.rawExp : F64 → F64

/-- FREE VALUE (log 5): the bit pattern proposed for a NaN result of a binary64 operator. -/
opaque Config.freeNaN64 : FloatOp → F64 → F64 → F64

/-- FREE VALUE (log 5): the bit pattern proposed for the binary32 NaN that narrowing a NaN gives. -/
opaque Config.freeNaN32 : F64 → F32

end Sys2Proof
end

