-- ==== Sys2Proof/Machine/Float.lean ====
section
/-! DEFINITION. IEEE 754 binary64 and binary32 arithmetic on bit patterns (`00_scope.md` R11, R12):
round to nearest, ties to even, one rounding per operator, subnormals kept, no flags. A finite value is an
exact integer multiple of the format's smallest subnormal (its "units"); every operator computes on those
integers exactly and rounds once at its end. -/

namespace Sys2Proof.Machine

open Sys2Proof

/-! ### Magnitudes: a pattern without its sign bit, as a natural number -/

/-- The value of a finite magnitude pattern in units of the smallest subnormal, for a format with `frac`
fraction bits. -/
def magUnits (frac m : Nat) : Nat :=
  if m / 2 ^ frac = 0 then m % 2 ^ frac
  else (2 ^ frac + m % 2 ^ frac) * 2 ^ (m / 2 ^ frac - 1)

/-- Integer nearest to `n / d`, ties to even (R11). -/
def roundDiv (n d : Nat) : Nat :=
  if 2 * (n % d) < d then n / d
  else if d < 2 * (n % d) then n / d + 1
  else if n / d % 2 = 0 then n / d
  else n / d + 1

/-- The magnitude pattern nearest to `num / den` units, ties to even, as if the exponent had no upper bound:
`k` is the exponent of the last kept place, and a carry out of the fraction moves into the exponent. -/
def roundMag (frac num den : Nat) : Nat :=
  let k := Nat.log2 (num / den) - frac
  k * 2 ^ frac + roundDiv num (den * 2 ^ k)

/-! ### binary64 -/

/-- Magnitude pattern of binary64 infinity. -/
def infMag64 : Nat := 0x7FF0000000000000

/-- Exponent of the binary64 unit: a finite value is an integer times 2^-1074. -/
def unitExp64 : Nat := 1074

def f64Neg? (x : F64) : Bool := x.msb

def f64Mag (x : F64) : Nat := x.toNat % 2 ^ 63

def f64IsNaN (x : F64) : Bool := decide (infMag64 < f64Mag x)

def f64IsInf (x : F64) : Bool := f64Mag x == infMag64

/-- `isFinite` of R12. -/
def f64IsFinite (x : F64) : Bool := decide (f64Mag x < infMag64)

def f64IsZero (x : F64) : Bool := f64Mag x == 0

/-- A binary64 from its sign and magnitude pattern. -/
def f64Pack (neg : Bool) (m : Nat) : F64 := BitVec.ofNat 64 ((if neg then 2 ^ 63 else 0) + m)

/-- The exact value of a finite binary64, in units of 2^-1074. -/
def f64Units (x : F64) : Int :=
  if f64Neg? x then - (magUnits 52 (f64Mag x) : Int) else (magUnits 52 (f64Mag x) : Int)

/-- Round the magnitude `num / den` units to binary64, overflowing to infinity (R11). -/
def f64Round (neg : Bool) (num den : Nat) : F64 :=
  f64Pack neg (min infMag64 (roundMag 52 num den))

def f64Zero : F64 := 0x0000000000000000#64
def f64One : F64 := 0x3FF0000000000000#64
def f64Inf (neg : Bool) : F64 := f64Pack neg infMag64

/-- A NaN result: the free pattern of Config where it is a NaN, and a NaN in every case (log 5). -/
def f64NaN (op : FloatOp) (a b : F64) : F64 :=
  if f64IsNaN (Config.freeNaN64 op a b) then Config.freeNaN64 op a b else 0x7FF8000000000000#64

/-- Negation: the sign bit flipped. -/
def f64Neg (x : F64) : F64 := x ^^^ 0x8000000000000000#64

/-- Magnitude (`abs` of R237): the sign bit cleared. -/
def f64Abs (x : F64) : F64 := x &&& 0x7FFFFFFFFFFFFFFF#64

/-- The sum, with the operator's own name for a NaN result. An exact zero sum is -0.0 only when both
operands are -0.0. -/
def f64AddAs (op : FloatOp) (a b : F64) : F64 :=
  if f64IsNaN a || f64IsNaN b then f64NaN op a b
  else if f64IsInf a then
    if f64IsInf b && (f64Neg? a != f64Neg? b) then f64NaN op a b else a
  else if f64IsInf b then b
  else if f64Units a + f64Units b = 0 then f64Pack (f64Neg? a && f64Neg? b) 0
  else f64Round (decide (f64Units a + f64Units b < 0)) (f64Units a + f64Units b).natAbs 1

def f64Add (a b : F64) : F64 := f64AddAs .add a b

def f64Sub (a b : F64) : F64 := f64AddAs .sub a (f64Neg b)

def f64Mul (a b : F64) : F64 :=
  if f64IsNaN a || f64IsNaN b then f64NaN .mul a b
  else if f64IsInf a || f64IsInf b then
    if f64IsZero a || f64IsZero b then f64NaN .mul a b
    else f64Inf (f64Neg? a != f64Neg? b)
  else f64Round (f64Neg? a != f64Neg? b)
    ((f64Units a).natAbs * (f64Units b).natAbs) (2 ^ unitExp64)

def f64Div (a b : F64) : F64 :=
  if f64IsNaN a || f64IsNaN b then f64NaN .div a b
  else if f64IsInf a then
    if f64IsInf b then f64NaN .div a b else f64Inf (f64Neg? a != f64Neg? b)
  else if f64IsInf b then f64Pack (f64Neg? a != f64Neg? b) 0
  else if f64IsZero b then
    if f64IsZero a then f64NaN .div a b else f64Inf (f64Neg? a != f64Neg? b)
  else f64Round (f64Neg? a != f64Neg? b)
    ((f64Units a).natAbs * 2 ^ unitExp64) (f64Units b).natAbs

/-- `fmod` of R12: the exact remainder of the truncated quotient, with the sign of `a`. -/
def f64Fmod (a b : F64) : F64 :=
  if f64IsNaN a || f64IsNaN b then f64NaN .fmod a b
  else if f64IsInf a || f64IsZero b then f64NaN .fmod a b
  else if f64IsInf b then a
  else f64Round (f64Neg? a) ((f64Units a).natAbs % (f64Units b).natAbs) 1

/-- The place of a non-NaN pattern in the order of values; both zeros are at 0. -/
def f64Key (x : F64) : Int := if f64Neg? x then - (f64Mag x : Int) else (f64Mag x : Int)

/-- `<` of R12: false when an operand is NaN. -/
def f64Lt (a b : F64) : Bool := !f64IsNaN a && !f64IsNaN b && decide (f64Key a < f64Key b)

/-- `≤` of R12. -/
def f64Le (a b : F64) : Bool := !f64IsNaN a && !f64IsNaN b && decide (f64Key a ≤ f64Key b)

/-- `==` of R12: -0.0 equals +0.0, and a NaN equals nothing. -/
def f64Eq (a b : F64) : Bool := !f64IsNaN a && !f64IsNaN b && decide (f64Key a = f64Key b)

/-- `f64(i)` of R12 for an integer: exact on [-2^53, 2^53]. -/
def f64OfInt (i : Int) : F64 := f64Round (decide (i < 0)) (i.natAbs * 2 ^ unitExp64) 1

/-- 2^n for n ≥ -1022, exactly. -/
def f64Pow2 (n : Int) : F64 := f64Pack false ((1023 + n).toNat * 2 ^ 52)

/-- `clampPM1` of R12; a NaN passes through. -/
def clampPM1 (x : F64) : F64 :=
  if f64Lt x (f64Neg f64One) then f64Neg f64One
  else if f64Lt f64One x then f64One
  else x

/-! ### binary32 -/

/-- Magnitude pattern of binary32 infinity. -/
def infMag32 : Nat := 0x7F800000

def f32Neg? (x : F32) : Bool := x.msb

def f32Mag (x : F32) : Nat := x.toNat % 2 ^ 31

def f32IsNaN (x : F32) : Bool := decide (infMag32 < f32Mag x)

def f32Pack (neg : Bool) (m : Nat) : F32 := BitVec.ofNat 32 ((if neg then 2 ^ 31 else 0) + m)

def f32Key (x : F32) : Int := if f32Neg? x then - (f32Mag x : Int) else (f32Mag x : Int)

def f32Lt (a b : F32) : Bool := !f32IsNaN a && !f32IsNaN b && decide (f32Key a < f32Key b)

def f32Le (a b : F32) : Bool := !f32IsNaN a && !f32IsNaN b && decide (f32Key a ≤ f32Key b)

def f32Zero : F32 := 0x00000000#32
def f32One : F32 := 0x3F800000#32

/-- `clamp01` of R12 on binary32: NaN, zeros and negatives give +0.0, values from 1 up give 1.0. -/
def clamp01 (x : F32) : F32 :=
  if f32IsNaN x || f32Le x f32Zero then f32Zero
  else if f32Le f32One x then f32One
  else x

/-! ### Conversions (R12) -/

/-- `f64(x)`: widening is exact; a binary32 unit is 2^925 binary64 units. -/
def f64OfF32 (x : F32) : F64 :=
  if f32IsNaN x then f64NaN .widen (x.setWidth 64) (x.setWidth 64)
  else if f32Mag x = infMag32 then f64Inf (f32Neg? x)
  else f64Round (f32Neg? x) (magUnits 23 (f32Mag x) * 2 ^ 925) 1

/-- A binary32 NaN result of narrowing: the free pattern of Config where it is a NaN (log 5). -/
def f32NaN (x : F64) : F32 :=
  if f32IsNaN (Config.freeNaN32 x) then Config.freeNaN32 x else 0x7FC00000#32

/-- `f32(x)`: narrowing with one rounding, overflowing to infinity. -/
def f32OfF64 (x : F64) : F32 :=
  if f64IsNaN x then f32NaN x
  else if f64IsInf x then f32Pack (f64Neg? x) infMag32
  else f32Pack (f64Neg? x) (min infMag32 (roundMag 23 (magUnits 52 (f64Mag x)) (2 ^ 925)))

/-- `f64_of(lo, hi)` of R12: `hi` holds bits 63:32, `lo` bits 31:0. -/
def f64OfWords (lo hi : Word) : F64 := hi ++ lo

/-- Bits 31:0 of a binary64's pattern. -/
def f64Lo (x : F64) : Word := x.extractLsb' 0 32

/-- Bits 63:32 of a binary64's pattern. -/
def f64Hi (x : F64) : Word := x.extractLsb' 32 32

end Sys2Proof.Machine
end

