-- ==== Sys2Proof/Machine/Transcendental.lean ====
section
/-! DEFINITION. The configuration functions `sin64`, `exp2_64` and `exp64` (`00_scope.md` R9, R10) and the
two quantities derived from a sample rate (`10_state.md` R34, `45_voice_engine.md` R238).

Each configuration function is an arbitrary function of Config with the properties of R10 imposed on it:
where the arbitrary function already has a property its value is kept, so the three definitions range over
exactly the functions that R10 allows, and nothing else of them can be proved (log 4). -/

namespace Sys2Proof.Machine

open Sys2Proof

/-- `sin64`: in [-1.0, 1.0] at every finite argument, never NaN there, and +0.0 at +0.0 (R10). -/
def sin64 (x : F64) : F64 :=
  if x = f64Zero then f64Zero
  else if f64IsFinite x then
    if f64IsNaN (Config.rawSin64 x) then f64Zero else clampPM1 (Config.rawSin64 x)
  else Config.rawSin64 x

/-- The integers at which R10 fixes `exp2_64`. -/
def exp2Exact : List Int := [-5, -4, -3, -2, -1, 0, 1, 2, 3, 4]

/-- `exp2_64`: exactly 2^n at the integers -5..4, positive and finite on [-69/12, 58/12] (R10). R10 does not say
whether -0.0 counts as the integer 0; DEDUCED, safe: here it does not, so at -0.0 only "positive and finite" holds,
which R10 gives in either reading (log 4). -/
def exp2_64 (x : F64) : F64 :=
  match exp2Exact.find? (fun n => x == f64OfInt n) with
  | some n => f64Pow2 n
  | none =>
    if f64Le (f64Div (f64OfInt (-69)) (f64OfInt 12)) x
        && f64Le x (f64Div (f64OfInt 58) (f64OfInt 12)) then
      if f64IsFinite (Config.rawExp2 x) && f64Lt f64Zero (Config.rawExp2 x) then Config.rawExp2 x
      else f64One
    else Config.rawExp2 x

/-- `exp64`: in (0, 1) at every finite negative argument (R10). -/
def exp64 (x : F64) : F64 :=
  if f64IsFinite x && f64Lt x f64Zero then
    if f64Lt f64Zero (Config.rawExp x) && f64Lt (Config.rawExp x) f64One then Config.rawExp x
    else f64Pow2 (-1)
  else Config.rawExp x

/-- `DT` of R34: one sample period. -/
def samplePeriod (r : F64) : F64 := f64Div f64One r

/-- `declickAlpha(r)` of R238. -/
def declickAlpha (c : Config) (r : F64) : F64 :=
  if f64Eq c.declickTauS f64Zero then f64One
  else f64Sub f64One (exp64 (f64Div (f64Neg f64One) (f64Mul c.declickTauS r)))

/-- The legality test of a sample rate (`41_clock.md` R135). -/
def legalRate (r : F64) : Bool :=
  f64IsFinite r && f64Lt f64Zero r && f64IsFinite (f64Div f64One r)

end Sys2Proof.Machine
end

