-- ==== Sys2Proof/Machine/State.lean ====
section
/-! DEFINITION. The state of the block (`10_state.md`), its interface streams (`20_memory.md`) and its value
after reset (`70_reset_and_hazards.md` R330). -/

namespace Sys2Proof.Machine

open Sys2Proof

/-- One thing for each parameter register, under the names of `10_state.md` R32. -/
structure Five (α : Type) where
  oscillator : α
  attack : α
  decay : α
  sustain : α
  release : α
deriving DecidableEq, Repr

/-- The stages of the envelope (R37, R170). -/
inductive Stage where
  | idle | attack | decay | sustain | release
deriving DecidableEq, Repr

/-- The waveform shapes, in the order of their codes (R201). -/
inductive Shape where
  | saw | square | triangle | sine
deriving DecidableEq, Repr

/-- The error codes of `60_exceptions.md` R301; codes 7 to 15 are never written. -/
inductive ErrCode where
  /-- 0 NONE: no error since ERR was last cleared -/
  | noError
  /-- 1 ILLEGAL: undefined opcode, or a port-R-only opcode on port C -/
  | illegal
  /-- 2 RESERVED: a reserved bit of the command word is 1 -/
  | reserved
  /-- 3 RANGE: PITCH or VEL above 127 -/
  | range
  /-- 4 INDEX: IDX above 4 -/
  | index
  /-- 5 BAD_RATE: an illegal sample rate; it also sets FAULT -/
  | badRate
  /-- 6 FAULTED: refused while FAULT is 1 -/
  | faulted
deriving DecidableEq, Repr

/-- `NT`, the NoteTracker (R36). The note fields keep their last values while `sounding` is false. -/
structure NoteTracker where
  sounding : Bool
  pitch : BitVec 7
  velocity : BitVec 7
  onset : F64
deriving DecidableEq, Repr

/-- `ENV`, the EnvelopeGenerator (R37). -/
structure Envelope where
  stage : Stage
  value : F64
  /-- the source's `stageStartTime` -/
  start : F64
  /-- the level the current or last Attack started from -/
  atk : F64
  /-- the source's `releaseStartValue` -/
  rel : F64
deriving DecidableEq, Repr

/-- `VL`, the voice latch (R38). -/
structure VoiceLatch where
  pitch : BitVec 7
  velocity : BitVec 7
deriving DecidableEq, Repr

/-- The storage of `STATUS`: FAULT and ERR. Its other fields are views (R40). -/
structure Status where
  fault : Bool
  err : ErrCode
deriving DecidableEq, Repr

/-- `SNAP`, the mapped parameter snapshot of the current RENDER (R41, R264). -/
structure Snapshot where
  shape : Shape
  a : F64
  d : F64
  s : F64
  r : F64
deriving DecidableEq, Repr

/-- One port: what the host has sent and the port has not received, what the port holds of an unfinished
word and of an unfinished command, and what it has answered (`20_memory.md` R70, R73, R79; R43, R44). -/
structure Port where
  /-- whole words of the command stream, not yet received -/
  input : List Word
  /-- bytes a byte transport has delivered after those words, not yet received (R72, R73) -/
  bytesIn : List Byte
  /-- the partial word the port holds: the bytes of a word not yet complete (R73) -/
  held : List Byte
  /-- framing state: the words of a multi-word command received so far (R43) -/
  frame : List Word
  /-- the response stream, oldest word first (R79) -/
  responses : List Word
deriving DecidableEq, Repr

/-- A port with nothing sent, held or answered. -/
def Port.empty : Port where
  input := []
  bytesIn := []
  held := []
  frame := []
  responses := []

/-- One entry of the interleaving of the two ports' atomic events (R78; log 1). -/
inductive Event where
  /-- the next command of a port; for a RENDER, its snapshot reads not yet made and its compute step -/
  | command (p : PortId)
  /-- one snapshot read of the RENDER that is next on port R, made ahead of the rest (R76; log 2) -/
  | snapRead (i : ParamIdx)
  /-- hardware reset, from outside the block (R331; log 14) -/
  | hardwareReset
deriving DecidableEq, Repr

/-- The state of the block and of its interface. -/
structure State where
  /-- the configuration parameters of R9; no command changes them (log 3) -/
  cfg : Config
  /-- `P[0..4]`, binary32 patterns as written (R31) -/
  params : Five F32
  /-- `SR`, the sample rate in Hz (R33) -/
  sr : F64
  /-- `DT`, derived from SR (R34) -/
  dt : F64
  /-- `ALPHA`, derived from SR (R34, R238) -/
  alpha : F64
  /-- `CLK`, accumulated time in seconds (R35) -/
  clk : F64
  nt : NoteTracker
  env : Envelope
  vl : VoiceLatch
  /-- `DC.y`, the declick filter's last output (R39) -/
  dcY : F64
  status : Status
  /-- `SNAPRAW`: the snapshot reads already made by the RENDER in progress (R76, R231; log 2) -/
  snapRaw : Five (Option F32)
  /-- `SNAP` (R41); stale between RENDERs -/
  snap : Snapshot
  portR : Port
  portC : Port
  /-- the output stream of port R, oldest frame first; a frame is its samples by channel (R80) -/
  out : List (List F32)
  /-- the port whose command is executing: the `port` of R110's `execute(port, words)` (log 8) -/
  cur : PortId
  /-- the interleaving of events still to come (R78; log 1) -/
  sched : List Event
deriving DecidableEq, Repr

/-- Why the machine stops. It has no constructor: no rule of the spec stops the block. A refused command
records its code in `STATUS.ERR` and the block goes on (R300, R305; log 15). -/
inductive Fault where
deriving DecidableEq, Repr

/-- Why the model refuses an instruction. -/
inductive Refusal where
  /-- Raised by an arm of `exec` that has no meaning yet; no arm is left so. Safe: nothing is claimed of a
  run that stops. -/
  | notModelled (mnemonic : String)
deriving DecidableEq, Repr

/-- No snapshot read made: no RENDER is in progress. -/
def noSnapReads : Five (Option F32) where
  oscillator := none
  attack := none
  decay := none
  sustain := none
  release := none

/-- The machine right after hardware reset of this hardware's configuration (R330, R331). `SNAP`, the streams,
`cur` and `sched` have no reset value in the spec: DESIGN CHOICE (log 1, 7, 8, 11, 21). -/
def State.reset : State where
  cfg := Config.savoy
  params := ⟨0, 0, 0, 0, 0⟩
  sr := Config.savoy.resetSampleRate
  dt := samplePeriod Config.savoy.resetSampleRate
  alpha := declickAlpha Config.savoy Config.savoy.resetSampleRate
  clk := f64Zero
  nt := ⟨false, 0, 0, f64Zero⟩
  env := ⟨.idle, f64Zero, f64Zero, f64Zero, f64Zero⟩
  vl := ⟨0, 0⟩
  dcY := f64Zero
  status := ⟨false, .noError⟩
  snapRaw := noSnapReads
  snap := ⟨.saw, f64Zero, f64Zero, f64Zero, f64Zero⟩
  portR := Port.empty
  portC := Port.empty
  out := []
  cur := .R
  sched := []

end Sys2Proof.Machine
end

