-- ==== Sys2Proof/Machine/Flags.lean ====
section
/-! DEFINITION. The STATUS register's fields and word (`10_state.md` R40, `47_system.md` R285) and the numeric
codes it shows (R37, `60_exceptions.md` R301). -/

namespace Sys2Proof.Machine

open Sys2Proof

/-- The 4-bit code of ERR (R301). -/
def ErrCode.code : ErrCode → BitVec 4
  | .noError => 0
  | .illegal => 1
  | .reserved => 2
  | .range => 3
  | .index => 4
  | .badRate => 5
  | .faulted => 6

/-- The 3-bit code of a stage (R37). -/
def Stage.code : Stage → BitVec 3
  | .idle => 0
  | .attack => 1
  | .decay => 2
  | .sustain => 3
  | .release => 4

/-- NOTE_PITCH: the sounding note's pitch, else 0 (R40). -/
def notePitch (nt : NoteTracker) : BitVec 8 := if nt.sounding then nt.pitch.setWidth 8 else 0

/-- NOTE_VEL: the sounding note's velocity, else 0 (R40). -/
def noteVel (nt : NoteTracker) : BitVec 8 := if nt.sounding then nt.velocity.setWidth 8 else 0

/-- `statusWord()` of R285: FAULT, three zeros, ERR, SOUNDING, STAGE, four zeros, NOTE_PITCH, NOTE_VEL. -/
def statusWord (s : State) : Word :=
  (((BitVec.ofBool s.status.fault ++ (0 : BitVec 3)) ++ ErrCode.code s.status.err) ++
    ((BitVec.ofBool s.nt.sounding ++ Stage.code s.env.stage) ++ (0 : BitVec 4))) ++
    (notePitch s.nt ++ noteVel s.nt)

end Sys2Proof.Machine
end

