-- ==== Sys2Proof/Machine/Operands.lean ====
section
/-! DEFINITION. What the opcode table says of a command besides its encoding (`30_encoding.md` R102, R107;
`60_exceptions.md` R302, R303), the checks before a command's effect, and its operand forms (R105). -/

namespace Sys2Proof.Machine

open Sys2Proof

/-- The fixed number of response words of an opcode (R102, `20_memory.md` R79). -/
def Opcode.responseWords : Opcode → Nat
  | .getParam => 1
  | .readStatus => 1
  | .readClock => 2
  | .readEnv => 2
  | .nop => 0
  | .noteOn => 0
  | .noteOff => 0
  | .setParam => 0
  | .setSampleRate => 0
  | .render => 0
  | .reset => 0

/-- Port C carries only NOP, SET_PARAM and GET_PARAM (R8, R107). -/
def Opcode.legalOnC : Opcode → Bool
  | .nop => true
  | .setParam => true
  | .getParam => true
  | .noteOn => false
  | .noteOff => false
  | .setSampleRate => false
  | .render => false
  | .reset => false
  | .readStatus => false
  | .readClock => false
  | .readEnv => false

/-- The commands refused with FAULTED while `STATUS.FAULT` is 1 (R303). -/
def Opcode.frozenByFault : Opcode → Bool
  | .noteOn => true
  | .noteOff => true
  | .setParam => true
  | .setSampleRate => true
  | .render => true
  | .nop => false
  | .getParam => false
  | .reset => false
  | .readStatus => false
  | .readClock => false
  | .readEnv => false

/-- May an opcode be sent on a port (R107)? -/
def Opcode.legalOn (op : Opcode) : PortId → Bool
  | .R => true
  | .C => Opcode.legalOnC op

/-- The checks of R110 that come before a command's own: wrong port, then the fault state, then reserved
bits. `none` lets the command pass. -/
def firstRefusal (op : Opcode) (reservedSet : Bool) (s : State) : Option ErrCode :=
  if Opcode.legalOn op s.cur = false then some .illegal
  else if s.status.fault && Opcode.frozenByFault op then some .faulted
  else if reservedSet then some .reserved
  else none

/-- A PITCH or VEL field above 127 (R105, R301). -/
def outOfRange (x : BitVec 8) : Bool := decide (127 < x.toNat)

/-- A pitch or velocity as the state holds it; used on fields that are not `outOfRange`. -/
def midi7 (x : BitVec 8) : BitVec 7 := x.setWidth 7

/-- The parameter register an IDX field names; 5 to 255 name none (R32, R71). -/
def paramIdx? (x : BitVec 8) : Option ParamIdx :=
  if x = 0 then some .oscillator
  else if x = 1 then some .attack
  else if x = 2 then some .decay
  else if x = 3 then some .sustain
  else if x = 4 then some .release
  else none

end Sys2Proof.Machine
end

