-- ==== Sys2Proof/Machine/Ops.lean ====
section
/-! DEFINITION. The operations the meanings share: the parameter file, the ports' response streams, the output
stream, raising an error, and reset. -/

namespace Sys2Proof.Machine

open Sys2Proof

/-! ### The parameter file and its snapshot reads -/

def Five.get {α : Type} (f : Five α) : ParamIdx → α
  | .oscillator => f.oscillator
  | .attack => f.attack
  | .decay => f.decay
  | .sustain => f.sustain
  | .release => f.release

def Five.set {α : Type} (f : Five α) (i : ParamIdx) (v : α) : Five α :=
  match i with
  | .oscillator => { f with oscillator := v }
  | .attack => { f with attack := v }
  | .decay => { f with decay := v }
  | .sustain => { f with sustain := v }
  | .release => { f with release := v }

/-- `ParamRead(i)`: the whole pattern of one register (R75). -/
def paramRead (i : ParamIdx) (s : State) : F32 := s.params.get i

/-- `P[i] <- v` (R75, R260): the pattern as given. -/
def paramWrite (i : ParamIdx) (v : F32) (s : State) : State := { s with params := s.params.set i v }

/-- One snapshot read of the RENDER in progress (R76). -/
def snapReadNow (i : ParamIdx) (s : State) : State :=
  { s with snapRaw := s.snapRaw.set i (some (paramRead i s)) }

/-- What the RENDER's snapshot holds for register `i`: the read already made, else a read made now (R76). -/
def snapRawOrRead (s : State) (i : ParamIdx) : F32 := (s.snapRaw.get i).getD (paramRead i s)

/-! ### Ports and streams -/

def State.port (s : State) : PortId → Port
  | .R => s.portR
  | .C => s.portC

def State.setPort (s : State) (p : PortId) (q : Port) : State :=
  match p with
  | .R => { s with portR := q }
  | .C => { s with portC := q }

/-- `Respond(port, w)` for each word in order (R79). -/
def respond (p : PortId) (ws : List Word) (s : State) : State :=
  s.setPort p { s.port p with responses := (s.port p).responses ++ ws }

/-- A binary64 result as two response words, low word first (R72, R104). -/
def f64Words (x : F64) : List Word := [f64Lo x, f64Hi x]

/-- `EmitFrame(y, nch)` of R80: one frame of `nch` equal samples; with nch = 0 the stream is unchanged (log 9). -/
def emitFrame (y : F32) (nch : BitVec 8) (s : State) : State :=
  if nch = 0 then s else { s with out := s.out ++ [List.replicate nch.toNat y] }

/-! ### Errors (R15, R300): the block's only exception mechanism

There is no trap, no vector and no return from one (R305, R306): the next command simply runs. -/

/-- `STATUS.ERR <- e`. -/
def setErr (e : ErrCode) (s : State) : State := { s with status := { s.status with err := e } }

/-- `STATUS.FAULT <- 1`. -/
def setFault (s : State) : State := { s with status := { s.status with fault := true } }

/-- `raise Error(e)` of R15: the opcode's response words, all zero, on the port the command arrived on, and
the code in ERR. `n` is the opcode's number of response words, 0 for an undefined opcode. -/
def raiseError (e : ErrCode) (n : Nat) (s : State) : State :=
  setErr e (respond s.cur (List.replicate n 0) s)

/-- Run a command's own effect if the checks of R110 let it pass, else raise their error. -/
def guarded (op : Opcode) (reservedSet : Bool) (s : State) (effect : State → State) : State :=
  match firstRefusal op reservedSet s with
  | some e => raiseError e (Opcode.responseWords op) s
  | none => effect s

/-! ### Rate and reset -/

/-- Write SR and the two registers derived from it (R34). -/
def setRate (r : F64) (s : State) : State :=
  { s with sr := r, dt := samplePeriod r, alpha := declickAlpha s.cfg r }

/-- `resetState()` of R330. It leaves framing and streams alone (R282, R331), and `SNAP`, to which no rule
gives a reset value (log 7). -/
def resetState (s : State) : State :=
  { setRate s.cfg.resetSampleRate s with
    params := ⟨0, 0, 0, 0, 0⟩
    clk := f64Zero
    nt := ⟨false, 0, 0, f64Zero⟩
    env := ⟨.idle, f64Zero, f64Zero, f64Zero, f64Zero⟩
    vl := ⟨0, 0⟩
    dcY := f64Zero
    status := ⟨false, .noError⟩ }

end Sys2Proof.Machine
end

