-- ==== Sys2Proof/Machine/Clock.lean ====
section
/-! DEFINITION. The Clock and the sample rate (`41_clock.md`): SET_SAMPLE_RATE and READ_CLOCK. -/

namespace Sys2Proof.Machine

open Sys2Proof

/-- `Clock.advance(n)` of R131: one quotient and one sum per block. -/
def clockAdvance (n : Nat) (s : State) : State :=
  { s with clk := f64Add s.clk (f64Div (f64OfInt n) s.sr) }

/-- `Clock.reset()` of R133. -/
def clockReset (s : State) : State := { s with clk := f64Zero }

/-- The rebase of R137: the stored times reduced by the Clock value `old` that the reset discards. -/
def rebase (old : F64) (s : State) : State :=
  { s with
    env := { s.env with start := f64Sub s.env.start old }
    nt := { s.nt with onset := f64Sub s.nt.onset old } }

/-- SET_SAMPLE_RATE's own effect (R136): a legal rate is taken, an illegal one sets FAULT and nothing else. -/
def changeRate (r : F64) (s : State) : State :=
  if legalRate r then rebase s.clk (clockReset (setRate r s))
  else raiseError .badRate 0 (setFault s)

/-- SET_SAMPLE_RATE (R136). -/
def execSetSampleRate (lo hi : Word) (rsv : BitVec 24) (s : State) :
    Host.Outcome State Fault Refusal :=
  .next (guarded .setSampleRate (rsv != 0) s (changeRate (f64OfWords lo hi)))

/-- READ_CLOCK (R138): CLK as two words, on port R, the only port that may ask. -/
def execReadClock (rsv : BitVec 24) (s : State) : Host.Outcome State Fault Refusal :=
  .next (guarded .readClock (rsv != 0) s (fun s => respond .R (f64Words s.clk) s))

end Sys2Proof.Machine
end

