-- ==== Sys2Proof/Machine/Envelope.lean ====
section
/-! DEFINITION. The EnvelopeGenerator (`43_envelope.md`): its evaluation once per sample, its two event entry
points, and READ_ENV. -/

namespace Sys2Proof.Machine

open Sys2Proof

/-- Elapsed time in the stage, with R174's guard against a negative or NaN difference. -/
def elapsed (t start : F64) : F64 :=
  if f64Le f64Zero (f64Sub t start) then f64Sub t start else f64Zero

/-- A stage of duration `d` is complete at elapsed time `e`: it is instantaneous, or `e` has reached `d` (R172). -/
def stageDone (c : Config) (d e : F64) : Bool := f64Le d c.durEps || f64Le d e

/-- `evalIdle()` of R175. -/
def evalIdle (v : Envelope) : Envelope := { v with value := f64Zero }

/-- The Attack's level before its clamp at 1.0 (R176). -/
def attackLevel (c : Config) (a e : F64) (v : Envelope) : F64 :=
  if stageDone c a e then f64One
  else f64Add v.atk (f64Mul (f64Sub f64One v.atk) (f64Div e a))

/-- `evalAttack(t, e)` of R176. -/
def evalAttack (c : Config) (a t e : F64) (v : Envelope) : Envelope :=
  if f64Le f64One (attackLevel c a e v) then
    { v with value := f64One, stage := .decay, start := t }
  else { v with value := attackLevel c a e v }

/-- `evalDecay(t, e)` of R177. -/
def evalDecay (c : Config) (d sustain t e : F64) (v : Envelope) : Envelope :=
  if stageDone c d e then { v with value := sustain, stage := .sustain, start := t }
  else { v with value := f64Sub f64One (f64Mul (f64Div e d) (f64Sub f64One sustain)) }

/-- `evalSustain()` of R178. -/
def evalSustain (sustain : F64) (v : Envelope) : Envelope := { v with value := sustain }

/-- The Release's level (R179). -/
def releaseLevel (r e : F64) (v : Envelope) : F64 := f64Mul v.rel (f64Sub f64One (f64Div e r))

/-- The end of a Release: value 0.0, stage Idle, entered at `t` (R179). -/
def enterIdle (t : F64) (v : Envelope) : Envelope :=
  { v with value := f64Zero, stage := .idle, start := t }

/-- `evalRelease(t, e)` of R179. -/
def evalRelease (c : Config) (r t e : F64) (v : Envelope) : Envelope :=
  if stageDone c r e then enterIdle t v
  else if f64Le (releaseLevel r e v) f64Zero then enterIdle t v
  else { v with value := releaseLevel r e v }

/-- `Env.evaluate(t)` of R174: at most one transition (R173). -/
def envEvaluate (c : Config) (sn : Snapshot) (t : F64) (v : Envelope) : Envelope :=
  match v.stage with
  | .idle => evalIdle v
  | .attack => evalAttack c sn.a t (elapsed t v.start) v
  | .decay => evalDecay c sn.d sn.s t (elapsed t v.start) v
  | .sustain => evalSustain sn.s v
  | .release => evalRelease c sn.r t (elapsed t v.start) v

/-- `Env.trigger(now)` of R180, in every stage: the Attack starts from the current value. -/
def envTrigger (now : F64) (v : Envelope) : Envelope :=
  { v with atk := v.value, stage := .attack, start := now }

/-- `Env.release(now)` of R181. -/
def envRelease (now : F64) (v : Envelope) : Envelope :=
  { v with rel := v.value, stage := .release, start := now }

/-- READ_ENV (R185): ENV.value as two words, on port R, the only port that may ask. -/
def execReadEnv (rsv : BitVec 24) (s : State) : Host.Outcome State Fault Refusal :=
  .next (guarded .readEnv (rsv != 0) s (fun s => respond .R (f64Words s.env.value) s))

end Sys2Proof.Machine
end

