-- ==== Sys2Proof/Machine/NoteTracker.lean ====
section
/-! DEFINITION. The NoteTracker (`42_note_tracker.md`): NOTE_ON and NOTE_OFF. -/

namespace Sys2Proof.Machine

open Sys2Proof

/-- A note of pitch `p` and velocity `v` starts now, whatever sounded before (R151, R152). -/
def startNote (p v : BitVec 7) (s : State) : State :=
  { s with
    nt := ⟨true, p, v, s.clk⟩
    vl := ⟨p, v⟩
    env := envTrigger s.clk s.env }

/-- The sounding note ends now; its fields keep their values (R153). -/
def endNote (s : State) : State :=
  { s with
    nt := { s.nt with sounding := false }
    env := envRelease s.clk s.env }

/-- NOTE_ON's own effect (R151). -/
def noteOn (pitch vel : BitVec 8) (s : State) : State :=
  if outOfRange pitch || outOfRange vel then raiseError .range 0 s
  else startNote (midi7 pitch) (midi7 vel) s

/-- NOTE_OFF's own effect (R153); a stale one changes nothing (R154). -/
def noteOff (pitch : BitVec 8) (s : State) : State :=
  if outOfRange pitch then raiseError .range 0 s
  else if s.nt.sounding && s.nt.pitch == midi7 pitch then endNote s
  else s

/-- NOTE_ON (R151). -/
def execNoteOn (pitch vel rsv : BitVec 8) (s : State) : Host.Outcome State Fault Refusal :=
  .next (guarded .noteOn (rsv != 0) s (noteOn pitch vel))

/-- NOTE_OFF (R153). -/
def execNoteOff (pitch : BitVec 8) (rsv : BitVec 16) (s : State) :
    Host.Outcome State Fault Refusal :=
  .next (guarded .noteOff (rsv != 0) s (noteOff pitch))

end Sys2Proof.Machine
end

