-- ==== Sys2Proof/Machine/Parameters.lean ====
section
/-! DEFINITION. The parameter registers (`46_parameters.md`): SET_PARAM, GET_PARAM and the mapping of a
snapshot. -/

namespace Sys2Proof.Machine

open Sys2Proof

/-- SET_PARAM's own effect (R262). -/
def setParam (idx : BitVec 8) (data : Word) (s : State) : State :=
  match paramIdx? idx with
  | some i => paramWrite i data s
  | none => raiseError .index 0 s

/-- GET_PARAM's own effect (R263): the answer goes to the port the command arrived on. -/
def getParam (idx : BitVec 8) (s : State) : State :=
  match paramIdx? idx with
  | some i => respond s.cur [paramRead i s] s
  | none => raiseError .index 1 s

/-- SET_PARAM (R262). -/
def execSetParam (idx : BitVec 8) (data : Word) (rsv : BitVec 16) (s : State) :
    Host.Outcome State Fault Refusal :=
  .next (guarded .setParam (rsv != 0) s (setParam idx data))

/-- GET_PARAM (R263). -/
def execGetParam (idx : BitVec 8) (rsv : BitVec 16) (s : State) :
    Host.Outcome State Fault Refusal :=
  .next (guarded .getParam (rsv != 0) s (getParam idx))

/-- 0.25, 0.5 and 0.75 as binary32 (R202). -/
def f32Quarter : F32 := 0x3E800000#32
def f32Half : F32 := 0x3F000000#32
def f32ThreeQuarters : F32 := 0x3F400000#32

/-- `shapeSelect(x)` of `44_oscillator.md` R202: half-open quartiles, and Sine for everything else. -/
def shapeSelect (x : F32) : Shape :=
  if f32IsNaN x then .sine
  else if f32Le f32Zero x && f32Lt x f32Quarter then .saw
  else if f32Le f32Quarter x && f32Lt x f32Half then .square
  else if f32Le f32Half x && f32Lt x f32ThreeQuarters then .triangle
  else .sine

/-- A knob position as a duration in seconds: linear, full scale `MAX_DURATION_S` (R264). -/
def knobSeconds (c : Config) (x : F32) : F64 := f64Mul c.maxDurationS (f64OfF32 (clamp01 x))

/-- A knob position as a level (R264). -/
def knobLevel (x : F32) : F64 := f64OfF32 (clamp01 x)

/-- `mapParams(raw)` of R264. -/
def mapParams (c : Config) (raw : Five F32) : Snapshot where
  shape := shapeSelect raw.oscillator
  a := knobSeconds c raw.attack
  d := knobSeconds c raw.decay
  s := knobLevel raw.sustain
  r := knobSeconds c raw.release

end Sys2Proof.Machine
end

