-- ==== Sys2Proof/Machine/System.lean ====
section
/-! DEFINITION. The system commands (`47_system.md`): NOP, RESET, READ_STATUS. -/

namespace Sys2Proof.Machine

open Sys2Proof

/-- NOP (R280). -/
def execNop (rsv : BitVec 24) (s : State) : Host.Outcome State Fault Refusal :=
  .next (guarded .nop (rsv != 0) s (fun s => s))

/-- RESET (R282). -/
def execReset (rsv : BitVec 24) (s : State) : Host.Outcome State Fault Refusal :=
  .next (guarded .reset (rsv != 0) s resetState)

/-- READ_STATUS's own effect (R284): the word, then ERR cleared, in one step (R85). -/
def readStatus (s : State) : State := setErr .noError (respond .R [statusWord s] s)

/-- READ_STATUS (R284). -/
def execReadStatus (rsv : BitVec 24) (s : State) : Host.Outcome State Fault Refusal :=
  .next (guarded .readStatus (rsv != 0) s readStatus)

end Sys2Proof.Machine
end

