-- ==== Sys2Proof/Machine/Oscillator.lean ====
section
/-! DEFINITION. The OscillatorBank (`44_oscillator.md`): a pure function of shape, pitch and absolute time. -/

namespace Sys2Proof.Machine

open Sys2Proof

def f64Two : F64 := 0x4000000000000000#64
def f64Four : F64 := 0x4010000000000000#64
def f64Quarter : F64 := 0x3FD0000000000000#64
def f64ThreeQuarters : F64 := 0x3FE8000000000000#64
/-- 12.0 (R203). -/
def f64Twelve : F64 := 0x4028000000000000#64
/-- 440.0 Hz, the frequency of pitch 69 (R203). -/
def f64A4 : F64 := 0x407B800000000000#64

/-- `freq(p)` of R203. -/
def freq (p : BitVec 7) : F64 :=
  f64Mul f64A4 (exp2_64 (f64Div (f64OfInt ((p.toNat : Int) - 69)) f64Twelve))

/-- `oscSine(f, t)` of R206. -/
def oscSine (f t : F64) : F64 := sin64 (f64Mul (f64Mul Config.twoPi f) t)

/-- `oscSquare(f, t)` of R207: the sign of the same sine, +0.0 for a zero. -/
def oscSquare (f t : F64) : F64 :=
  if f64Lt f64Zero (oscSine f t) then f64One
  else if f64Lt (oscSine f t) f64Zero then f64Neg f64One
  else f64Zero

/-- `fmod(t, 1/f)`, the time into the current period (R205). -/
def periodTime (f t : F64) : F64 := f64Fmod t (f64Div f64One f)

/-- `oscSaw(f, t)` of R208. -/
def oscSaw (f t : F64) : F64 :=
  clampPM1 (f64Sub (f64Mul (f64Mul f64Two (periodTime f t)) f) f64One)

/-- The triangle over the fractional phase `q` (R209). -/
def trianglePhase (q : F64) : F64 :=
  if f64Lt q f64Quarter then f64Mul f64Four q
  else if f64Lt q f64ThreeQuarters then f64Sub f64Two (f64Mul f64Four q)
  else f64Sub (f64Mul f64Four q) f64Four

/-- `oscTriangle(f, t)` of R209. -/
def oscTriangle (f t : F64) : F64 := clampPM1 (trianglePhase (f64Mul (periodTime f t) f))

/-- `Osc.render` at a frequency (R200). -/
def oscAt (shape : Shape) (f t : F64) : F64 :=
  match shape with
  | .sine => oscSine f t
  | .square => oscSquare f t
  | .saw => oscSaw f t
  | .triangle => oscTriangle f t

/-- `Osc.render(shape, p, t)` of R200. -/
def oscRender (shape : Shape) (p : BitVec 7) (t : F64) : F64 := oscAt shape (freq p) t

end Sys2Proof.Machine
end

