-- ==== Sys2Proof/Machine/VoiceEngine.lean ====
section
/-! DEFINITION. The VoiceEngine (`45_voice_engine.md`): voice selection, mixer, declick and RENDER. -/

namespace Sys2Proof.Machine

open Sys2Proof

/-- `selectVoice()` of R233: the sounding note, else the latch while the envelope is not Idle. -/
def selectVoice (s : State) : Option (BitVec 7 × BitVec 7) :=
  if s.nt.sounding then some (s.nt.pitch, s.nt.velocity)
  else if s.env.stage ≠ .idle then some (s.vl.pitch, s.vl.velocity)
  else none

/-- 127.0 (R235). -/
def f64Velocity127 : F64 := 0x405FC00000000000#64

/-- `velocityGain(v)` of R235. -/
def velocityGain (v : BitVec 7) : F64 := f64Div (f64OfInt v.toNat) f64Velocity127

/-- `mix(voice, t)` of R236, left to right with one rounding per product. -/
def mix (s : State) (t : F64) : F64 :=
  match selectVoice s with
  | none => f64Zero
  | some (p, v) =>
    f64Mul (f64Mul (oscRender s.snap.shape p t) s.env.value) (velocityGain v)

/-- The smoother's output before the snap (R237). -/
def smooth (c : Config) (alpha y m : F64) : F64 :=
  if f64Eq c.declickTauS f64Zero then m else f64Add y (f64Mul alpha (f64Sub m y))

/-- The snap of R237 and R239. -/
def snapSilence (c : Config) (m y : F64) : F64 :=
  if f64Eq m f64Zero && f64Lt (f64Abs y) c.declickSnap then f64Zero else y

/-- `declick(m)` of R237, from the last output `y`. -/
def declick (c : Config) (alpha y m : F64) : F64 := snapSilence c m (smooth c alpha y m)

/-- The envelope's evaluation at a sample (R174, R234 step 1). -/
def evalEnvelope (t : F64) (s : State) : State :=
  { s with env := envEvaluate s.cfg s.snap t s.env }

/-- The mix and declick at a sample, after the envelope's evaluation (R234 steps 2 to 5). -/
def declickSample (t : F64) (s : State) : State :=
  { s with dcY := declick s.cfg s.alpha s.dcY (mix s t) }

/-- The frame of a sample (R240, R234 step 6). -/
def emitSample (nch : BitVec 8) (s : State) : State := emitFrame (f32OfF64 s.dcY) nch s

/-- One sample at time `t` (R234). -/
def sampleStep (nch : BitVec 8) (t : F64) (s : State) : State :=
  emitSample nch (declickSample t (evalEnvelope t s))

/-- The samples of a block: `k` of them still to come, the next at `t0 + off` (R231, R232). -/
def sampleLoop (nch : BitVec 8) (t0 : F64) : Nat → F64 → State → State
  | 0, _, s => s
  | k + 1, off, s =>
    sampleLoop nch t0 k (f64Add off s.dt) (sampleStep nch (f64Add t0 off) s)

/-- The five patterns of the snapshot (R76, R231). -/
def snapshotRaw (s : State) : Five F32 where
  oscillator := snapRawOrRead s .oscillator
  attack := snapRawOrRead s .attack
  decay := snapRawOrRead s .decay
  sustain := snapRawOrRead s .sustain
  release := snapRawOrRead s .release

/-- The end of the snapshot: `SNAP` mapped from the five patterns (R231, R264). -/
def takeSnapshot (s : State) : State :=
  { s with snap := mapParams s.cfg (snapshotRaw s), snapRaw := noSnapReads }

/-- RENDER's compute step (R231, R78): the samples, then the Clock. -/
def renderBlock (nch : BitVec 8) (n : Nat) (s : State) : State :=
  clockAdvance n (sampleLoop nch s.clk n f64Zero s)

/-- RENDER (R231): the snapshot reads not yet made, then the compute step. -/
def execRender (nch : BitVec 8) (n : BitVec 16) (s : State) : Host.Outcome State Fault Refusal :=
  .next (guarded .render false s (fun s => renderBlock nch n.toNat (takeSnapshot s)))

end Sys2Proof.Machine
end

