-- ==== Sys2Proof/Machine/Dispatch.lean ====
section
/-! DEFINITION. The meaning of every command, one arm per row of the opcode table. -/

namespace Sys2Proof.Machine

open Sys2Proof

def exec (i : Instr) (s : State) : Host.Outcome State Fault Refusal :=
  match i with
  | .nop rsv => Sys2Proof.Machine.execNop rsv s
  | .noteOn pitch vel rsv => Sys2Proof.Machine.execNoteOn pitch vel rsv s
  | .noteOff pitch rsv => Sys2Proof.Machine.execNoteOff pitch rsv s
  | .setParam idx data rsv => Sys2Proof.Machine.execSetParam idx data rsv s
  | .getParam idx rsv => Sys2Proof.Machine.execGetParam idx rsv s
  | .setSampleRate lo hi rsv => Sys2Proof.Machine.execSetSampleRate lo hi rsv s
  | .render nch n => Sys2Proof.Machine.execRender nch n s
  | .reset rsv => Sys2Proof.Machine.execReset rsv s
  | .readStatus rsv => Sys2Proof.Machine.execReadStatus rsv s
  | .readClock rsv => Sys2Proof.Machine.execReadClock rsv s
  | .readEnv rsv => Sys2Proof.Machine.execReadEnv rsv s

end Sys2Proof.Machine
end

