-- ==== Sys2Proof/Machine/Ports.lean ====
section
/-! DEFINITION. How commands come out of a port and how the two ports' events interleave (`20_memory.md` R72,
R73, R76 to R78; `30_encoding.md` R103, R110; `70_reset_and_hazards.md` R331). -/

namespace Sys2Proof.Machine

open Sys2Proof

/-! ### Receiving words and commands -/

/-- The word four transport bytes carry, little-endian (R72). -/
def wordOfBytes (b0 b1 b2 b3 : Byte) : Word := (b3 ++ b2) ++ (b1 ++ b0)

/-- Whole words out of a list of bytes, and the bytes of a last word not yet complete (R73). -/
def packBytes : List Byte → List Word × List Byte
  | b0 :: b1 :: b2 :: b3 :: rest =>
    (wordOfBytes b0 b1 b2 b3 :: (packBytes rest).1, (packBytes rest).2)
  | bs => ([], bs)

/-- The words a port has before it: those of the command it is in, those sent, and those its bytes make. -/
def Port.words (q : Port) : List Word := q.frame ++ q.input ++ (packBytes (q.held ++ q.bytesIn)).1

/-- A port that has received all it was sent and still lacks a complete command: the words received are framing
state and the bytes of an unfinished word are held (R43, R73). -/
def Port.received (q : Port) (frame : List Word) : Port :=
  { q with frame := frame, input := [], bytesIn := [], held := (packBytes (q.held ++ q.bytesIn)).2 }

/-- A port without its first `k` words. What was sent after them stays as sent, whole words and bytes alike, and is
not yet received (R43, R73; log 11). -/
def Port.dropWords (q : Port) (k : Nat) : Port :=
  if k ≤ (q.frame ++ q.input).length then { q with frame := [], input := (q.frame ++ q.input).drop k }
  else { q with
    frame := []
    input := []
    held := []
    bytesIn := (q.held ++ q.bytesIn).drop (4 * (k - (q.frame ++ q.input).length)) }

/-- The next complete command of a port, and the port without its words. With no complete command the words
received so far become framing state (R43, R103). -/
def Port.takeCommand (q : Port) : Option (List Word) × Port :=
  match q.words with
  | [] => (none, q.received [])
  | w :: ws =>
    if cmdLength w ≤ (w :: ws).length then
      (some ((w :: ws).take (cmdLength w)), q.dropWords (cmdLength w))
    else (none, q.received (w :: ws))

/-! ### Executing a port's next command -/

/-- `execute(port, words)` of R110 on the decoded command; an undefined opcode is ILLEGAL with no response
words (R107). -/
def execute (p : PortId) (ws : List Word) (s : State) : Host.Outcome State Fault Refusal :=
  match decode ws with
  | .command i _ => exec i { s with cur := p }
  | .rejected _ => .next (raiseError .illegal 0 { s with cur := p })

/-- One command of a port, or the receipt of an incomplete one, which has no other effect (R73). -/
def runPort (p : PortId) (s : State) : Host.Outcome State Fault Refusal :=
  match (s.port p).takeCommand with
  | (some ws, q) => execute p ws (s.setPort p q)
  | (none, q) => .next (s.setPort p q)

/-! ### The interleaving -/

/-- Is the next command of port R a RENDER that will execute? Its snapshot reads may then be made (R76). -/
def renderPending (s : State) : Bool :=
  match s.portR.takeCommand.1 with
  | some (w :: _) => opcField w == Opcode.code .render && !s.status.fault
  | _ => false

/-- One snapshot read ahead of the RENDER's compute step; each register is read once (R76, log 2). -/
def earlySnapRead (i : ParamIdx) (s : State) : State :=
  if renderPending s && (s.snapRaw.get i).isNone then snapReadNow i s else s

/-- Has any snapshot read of the RENDER in progress been made? -/
def snapshotBegun (s : State) : Bool := s.snapRaw != noSnapReads

/-- A port after hardware reset: no framing state and no partial word (R331). -/
def Port.cleared (q : Port) : Port := { q with frame := [], held := [] }

/-- Hardware reset (R330, R331): resetState and empty framing on both ports. DESIGN CHOICE: a RENDER in progress is
lost with its one word, and words and bytes sent and not yet received stay (log 11, 14). -/
def hardwareReset (s : State) : State :=
  { resetState s with
    portR := (if snapshotBegun s then s.portR.dropWords 1 else s.portR).cleared
    portC := s.portC.cleared
    snapRaw := noSnapReads }

/-- Has a port anything to receive or to execute? -/
def Port.hasWork (q : Port) : Bool :=
  q.takeCommand.1.isSome || !q.input.isEmpty || !q.bytesIn.isEmpty

/-- The next event: the first entry of `sched`; with none listed, port R while it has anything to do, then
port C (log 1). -/
def nextEvent (s : State) : Event :=
  match s.sched with
  | e :: _ => e
  | [] => .command (if s.portR.hasWork then .R else .C)

/-- One event of the interleaving (R78). -/
def runEvent (e : Event) (s : State) : Host.Outcome State Fault Refusal :=
  match e with
  | .command p => runPort p s
  | .snapRead i => .next (earlySnapRead i s)
  | .hardwareReset => .next (hardwareReset s)

/-- The state with its next event taken off `sched`. -/
def popEvent (s : State) : State := { s with sched := s.sched.tail }

/-- The state in which the words `ws` are the next command words of port R and port R's next command is the
next event. -/
def placeCommand (ws : List Word) (s : State) : State :=
  { s with
    portR := { s.portR with frame := [], input := ws ++ s.portR.input }
    snapRaw := noSnapReads
    sched := .command .R :: s.sched }

end Sys2Proof.Machine
end

