-- ==== Sys2Proof/Machine/Step.lean ====
section
/-! DEFINITION. One step of the machine: one atomic event of the interleaving (`20_memory.md` R78). -/

namespace Sys2Proof.Machine

open Sys2Proof

/-- One step: take the next event off the interleaving and perform it. -/
def step (s : State) : Host.Outcome State Fault Refusal := runEvent (nextEvent s) (popEvent s)

/-- `s` with the instruction of the opcode table's bits `w` as the next command on port R, so that the very
next step executes it (log 13). -/
def State.withFetchWord (s : State) (nbits w : Nat) : State := placeCommand (tableCommand nbits w) s

end Sys2Proof.Machine
end

