-- ==== Sys2Proof/Safety.lean ====
section
/-! DEFINITION. What counts as a legal state of the block: the invariants the spec states of every reachable
state, each as a decidable predicate, and the quiescent state. -/

namespace Sys2Proof.Machine

open Sys2Proof

/-- In [+0.0, 1.0]: no NaN, and not -0.0 either. -/
def inUnit (x : F64) : Bool := !f64Neg? x && f64Le x f64One

/-- In [-1.0, 1.0], and so no NaN. -/
def inPM1 (x : F64) : Bool := f64Le (f64Neg f64One) x && f64Le x f64One

/-- The stages in which a note sounds (`10_state.md` R45). -/
def Stage.holdsNote : Stage → Bool
  | .attack => true
  | .decay => true
  | .sustain => true
  | .idle => false
  | .release => false

/-- R45: a note sounds exactly in Attack, Decay and Sustain. -/
abbrev VoiceInv (s : State) : Prop := s.nt.sounding = Stage.holdsNote s.env.stage

/-- `45_voice_engine.md` R233: while a note sounds, the voice latch holds its pitch and velocity. -/
abbrev LatchInv (s : State) : Prop :=
  s.nt.sounding = true → s.vl.pitch = s.nt.pitch ∧ s.vl.velocity = s.nt.velocity

/-- R46: the envelope's levels lie in [0.0, 1.0]. -/
abbrev LevelInv (s : State) : Prop :=
  inUnit s.env.value = true ∧ inUnit s.env.atk = true ∧ inUnit s.env.rel = true

/-- R33, R34: SR is legal, and DT and ALPHA are what SR gives. -/
abbrev RateInv (s : State) : Prop :=
  legalRate s.sr = true ∧ s.dt = samplePeriod s.sr ∧ s.alpha = declickAlpha s.cfg s.sr

/-- R175: in Idle the value is +0.0. -/
abbrev IdleInv (s : State) : Prop := s.env.stage = .idle → s.env.value = f64Zero

/-- R35: CLK is at least +0.0 (its sign bit is 0) and never NaN. -/
abbrev ClockInv (s : State) : Prop := f64Neg? s.clk = false ∧ f64IsNaN s.clk = false

/-- A configuration of R9 in which the rules make sense: a finite non-negative full scale, a legal reset rate. -/
abbrev Config.legal (c : Config) : Prop :=
  f64IsFinite c.maxDurationS = true ∧ f64Le f64Zero c.maxDurationS = true ∧
  legalRate c.resetSampleRate = true

/-- R76: snapshot reads have been made only while the RENDER they belong to is next on port R. -/
abbrev SnapshotInv (s : State) : Prop := snapshotBegun s = true → renderPending s = true

/-- R43: the framing state of a port is empty or the beginning of a multi-word command not yet complete. -/
def framePending : List Word → Bool
  | [] => true
  | w :: ws => decide ((w :: ws).length < cmdLength w)

/-- R43, R73: a port holds at most an incomplete command and an incomplete word. -/
abbrev Port.FramingInv (q : Port) : Prop := framePending q.frame = true ∧ q.held.length < 4

/-- All the invariants of a reachable state. -/
structure Inv (s : State) : Prop where
  voice : VoiceInv s
  latch : LatchInv s
  levels : LevelInv s
  idle : IdleInv s
  rate : RateInv s
  clock : ClockInv s
  config : Config.legal s.cfg
  snapshot : SnapshotInv s
  framingR : s.portR.FramingInv
  framingC : s.portC.FramingInv

/-- `70_reset_and_hazards.md` R346: quiescence. -/
abbrev Quiescent (s : State) : Prop :=
  s.env.stage = .idle ∧ s.nt.sounding = false ∧ s.dcY = f64Zero

end Sys2Proof.Machine
end

