-- ==== Sys2Proof/WellFormed.lean ====
section
/-! DEFINITION. Well-formed commands: the reserved bits of the command word are all zero (`30_encoding.md`
R101, R106). Operand values outside the source's domains (PITCH or VEL above 127, IDX above 4) decode and
are refused by the command's own check when it executes (R105), so they are well-formed syntax. -/

namespace Sys2Proof

/-- Are the reserved bits of the command word not all zero (R106)? RENDER has none. -/
def Instr.reservedSet : Instr → Bool
  | .nop rsv => rsv != 0
  | .noteOn _ _ rsv => rsv != 0
  | .noteOff _ rsv => rsv != 0
  | .setParam _ _ rsv => rsv != 0
  | .getParam _ rsv => rsv != 0
  | .setSampleRate _ _ rsv => rsv != 0
  | .render _ _ => false
  | .reset rsv => rsv != 0
  | .readStatus rsv => rsv != 0
  | .readClock rsv => rsv != 0
  | .readEnv rsv => rsv != 0

/-- The well-formedness check (R106). -/
def Instr.wf (i : Instr) : Bool := !i.reservedSet

end Sys2Proof
end

