-- ==== Sys2Proof/Certificates/Slice0/Obligations.lean ====
section
/-! DEFINITION. The statements for the provers. Each docstring names the rules of spec/ it formalises. A number
of an assumption-log entry stands where a clause is the model's own choice. -/

namespace Sys2Proof.Claims

open Sys2Proof Sys2Proof.Machine

/-! ### Words the statements share -/

/-- `s` with zero response words on the port the command arrived on and the code in ERR: all that a refused
command does (`00_scope.md` R15, `60_exceptions.md` R305). -/
def refused (s : State) (e : ErrCode) (words : Nat) : State :=
  match s.cur with
  | .R => { s with
      status := ⟨s.status.fault, e⟩
      portR := { s.portR with responses := s.portR.responses ++ List.replicate words 0 } }
  | .C => { s with
      status := ⟨s.status.fault, e⟩
      portC := { s.portC with responses := s.portC.responses ++ List.replicate words 0 } }

/-- `s` with response words appended on the port the command arrived on. -/
def answered (s : State) (ws : List Word) : State :=
  match s.cur with
  | .R => { s with portR := { s.portR with responses := s.portR.responses ++ ws } }
  | .C => { s with portC := { s.portC with responses := s.portC.responses ++ ws } }

/-- NOP, SET_PARAM and GET_PARAM, the commands port C may carry (`30_encoding.md` R107). -/
def portCMayCarry : Instr → Bool
  | .nop _ => true
  | .setParam _ _ _ => true
  | .getParam _ _ => true
  | _ => false

/-- The commands refused while FAULT is 1 (R303). -/
def refusedUnderFault : Instr → Bool
  | .noteOn _ _ _ => true
  | .noteOff _ _ => true
  | .setParam _ _ _ => true
  | .setSampleRate _ _ _ => true
  | .render _ _ => true
  | _ => false

/-- The number of response words (R102, `20_memory.md` R79). -/
def responseCount : Instr → Nat
  | .getParam _ _ => 1
  | .readStatus _ => 1
  | .readClock _ => 2
  | .readEnv _ => 2
  | _ => 0

/-- The command's own check (R301): RANGE, INDEX, BAD_RATE. -/
def ownError : Instr → Option ErrCode
  | .noteOn p v _ => if 127 < p.toNat ∨ 127 < v.toNat then some .range else none
  | .noteOff p _ => if 127 < p.toNat then some .range else none
  | .setParam i _ _ => if 4 < i.toNat then some .index else none
  | .getParam i _ => if 4 < i.toNat then some .index else none
  | .setSampleRate lo hi _ =>
    let r : F64 := hi ++ lo
    if f64IsFinite r = true ∧ f64Lt f64Zero r = true ∧ f64IsFinite (f64Div f64One r) = true then none
    else some .badRate
  | _ => none

/-- The error a decoded command reports, in the order of R302. -/
def firstError (i : Instr) (s : State) : Option ErrCode :=
  if s.cur = .C ∧ portCMayCarry i = false then some .illegal
  else if s.status.fault = true ∧ refusedUnderFault i = true then some .faulted
  else if i.wf = false then some .reserved
  else ownError i

/-- The reserved mask of the command word (R102). -/
def reservedMask : Instr → Word
  | .nop _ => 0x00FFFFFF#32
  | .noteOn _ _ _ => 0x000000FF#32
  | .noteOff _ _ => 0x0000FFFF#32
  | .setParam _ _ _ => 0x0000FFFF#32
  | .getParam _ _ => 0x0000FFFF#32
  | .setSampleRate _ _ _ => 0x00FFFFFF#32
  | .render _ _ => 0x00000000#32
  | .reset _ => 0x00FFFFFF#32
  | .readStatus _ => 0x00FFFFFF#32
  | .readClock _ => 0x00FFFFFF#32
  | .readEnv _ => 0x00FFFFFF#32

/-- `s` and `t` agree on every register of the block but STATUS, and on the output stream. -/
def sameBlock (s t : State) : Prop :=
  t.cfg = s.cfg ∧ t.params = s.params ∧ t.sr = s.sr ∧ t.dt = s.dt ∧ t.alpha = s.alpha ∧ t.clk = s.clk ∧
  t.nt = s.nt ∧ t.env = s.env ∧ t.vl = s.vl ∧ t.dcY = s.dcY ∧ t.snapRaw = s.snapRaw ∧ t.snap = s.snap ∧
  t.out = s.out

/-- Register `i` of the parameter file by its index (`10_state.md` R32). -/
def regAt (f : Five F32) (i : BitVec 8) : F32 :=
  if i = 0 then f.oscillator else if i = 1 then f.attack else if i = 2 then f.decay
  else if i = 3 then f.sustain else f.release

/-- The parameter file with the register of index `i` written. -/
def withReg (f : Five F32) (i : BitVec 8) (d : F32) : Five F32 :=
  if i = 0 then { f with oscillator := d } else if i = 1 then { f with attack := d }
  else if i = 2 then { f with decay := d } else if i = 3 then { f with sustain := d }
  else { f with release := d }

/-- The in-block time offset of sample `k`: DT added `k` times to +0.0 (`45_voice_engine.md` R232). -/
def offset (dt : F64) : Nat → F64
  | 0 => f64Zero
  | k + 1 => f64Add (offset dt k) dt

/-- The voice at a sample whose envelope, evaluated, is `e` (R233). -/
def voiceAt (s : State) (e : Envelope) : Option (BitVec 7 × BitVec 7) :=
  if s.nt.sounding = true then some (s.nt.pitch, s.nt.velocity)
  else if e.stage = .idle then none
  else some (s.vl.pitch, s.vl.velocity)

/-- The mixer at a sample (R236): +0.0 without a voice, else (raw * env) * (f64(v) / 127.0). -/
def mixAt (s : State) (e : Envelope) (t : F64) : F64 :=
  match voiceAt s e with
  | none => f64Zero
  | some (p, v) =>
    f64Mul (f64Mul (oscRender s.snap.shape p t) e.value)
      (f64Div (f64OfInt v.toNat) 0x405FC00000000000#64)

/-- The declick at a sample (R237), from the last output `y`, the input `m`. -/
def declickAt (s : State) (m : F64) : F64 :=
  let y := if f64Eq s.cfg.declickTauS f64Zero = true then m
    else f64Add s.dcY (f64Mul s.alpha (f64Sub m s.dcY))
  if f64Eq m f64Zero = true ∧ f64Lt (f64Abs y) s.cfg.declickSnap = true then f64Zero else y

/-- `b` is `a` after one sample at time `t` (R234): the envelope evaluated first, then voice, mix, declick and
one frame of `nch` equal samples; no other state element changes. -/
def OneSample (nch : BitVec 8) (t : F64) (a b : State) : Prop :=
  let e := envEvaluate a.cfg a.snap t a.env
  let y := declickAt a (mixAt a e t)
  b = { a with
    env := e
    dcY := y
    out := if nch = 0 then a.out else a.out ++ [List.replicate nch.toNat (f32OfF64 y)] }

/-- The pattern a RENDER's snapshot holds for one register: the early read if one was made, else the register
(`20_memory.md` R76, log 2). -/
def patternOf (early : Option F32) (now : F32) : F32 := early.getD now

/-- The four bytes of a word, little-endian (`20_memory.md` R72). -/
def bytesLE (w : Word) : List Byte :=
  [w.extractLsb' 0 8, w.extractLsb' 8 8, w.extractLsb' 16 8, w.extractLsb' 24 8]

/-- RENDER admitted: on port R, outside the fault state (R231). -/
def renderAdmitted (s : State) : Prop := s.cur = .R ∧ s.status.fault = false

/-- The register values of the table of `70_reset_and_hazards.md` R330, for this hardware's configuration. -/
def ResetTable (t : State) : Prop :=
  t.params = ⟨0x00000000#32, 0x00000000#32, 0x00000000#32, 0x00000000#32, 0x00000000#32⟩ ∧
  t.sr = 0x40E5888000000000#64 ∧ t.dt = 0x3EF7C6F8C751F177#64 ∧
  t.alpha = declickAlpha Config.savoy 0x40E5888000000000#64 ∧
  t.clk = 0x0000000000000000#64 ∧
  t.nt = ⟨false, 0, 0, 0x0000000000000000#64⟩ ∧ t.vl = ⟨0, 0⟩ ∧
  t.env = ⟨.idle, 0x0000000000000000#64, 0x0000000000000000#64, 0x0000000000000000#64,
    0x0000000000000000#64⟩ ∧
  t.dcY = 0x0000000000000000#64 ∧ t.status = ⟨false, .noError⟩

/-- The numeric code of an error (`60_exceptions.md` R301). -/
def errNumber : ErrCode → Nat
  | .noError => 0
  | .illegal => 1
  | .reserved => 2
  | .range => 3
  | .index => 4
  | .badRate => 5
  | .faulted => 6

/-- The numeric code of a stage (`10_state.md` R37). -/
def stageNumber : Stage → Nat
  | .idle => 0
  | .attack => 1
  | .decay => 2
  | .sustain => 3
  | .release => 4

/-- Elapsed time in the stage (`43_envelope.md` R174). -/
def elapsedTime (t start : F64) : F64 :=
  let e := f64Sub t start
  if f64Le 0x0000000000000000#64 e = true then e else 0x0000000000000000#64

/-- `x` clamped to [-1.0, 1.0] (`00_scope.md` R12); a NaN passes through. -/
def clampTo1 (x : F64) : F64 :=
  if f64Lt x 0xBFF0000000000000#64 = true then 0xBFF0000000000000#64
  else if f64Lt 0x3FF0000000000000#64 x = true then 0x3FF0000000000000#64
  else x

/-- `s` with the next event taken off the interleaving. -/
def eventTaken (s : State) : State := { s with sched := s.sched.tail }

/-- A RENDER that will execute is next on port R (`20_memory.md` R76, `45_voice_engine.md` R246). -/
def renderIsNext (s : State) : Prop :=
  s.portR.words.head?.map (fun w => w.extractLsb' 24 8) = some 0x06#8 ∧ s.status.fault = false

/-- Clear the error code of a status word. -/
def withoutErr (w : Word) : Word := w &&& 0xF0FFFFFF#32

end Sys2Proof.Claims

open Sys2Proof Sys2Proof.Machine Sys2Proof.Claims

/-! ### Encoding -/

/-- Every command is read back from its own words, with every operand, data word and reserved bit
(`30_encoding.md` R100, R101, R104, R105). -/
def Obligations.DecodeOfEncodeIsIdentity : Prop :=
  ∀ (i : Instr) (rest : List Word), decode (encode i ++ rest) = .command i rest

/-- A decoded command encodes back to exactly the words it was read from: no bit is ignored and no two
readings exist. -/
def Obligations.EncodeOfDecodeIsIdentity : Prop :=
  ∀ (ws : List Word) (i : Instr) (rest : List Word),
    decode ws = .command i rest → encode i ++ rest = ws

/-- R108: every complete command is a defined command when OPC is at most 0x0A, taking its length of R103, and
is otherwise rejected as an undefined opcode. -/
def Obligations.EveryWordIsCommandOrUndefined : Prop :=
  ∀ (w : Word) (rest : List Word), cmdLength w ≤ rest.length + 1 →
    if (w.extractLsb' 24 8).toNat ≤ 0x0A then
      ∃ i, decode (w :: rest) = .command i ((w :: rest).drop (cmdLength w)) ∧
        (encode i).length = cmdLength w
    else decode (w :: rest) = .rejected (.undefinedOpcode (w.extractLsb' 24 8))

/-- R106, R102: a decoded command is well-formed exactly when its command word has no bit in the reserved mask. -/
def Obligations.WellFormedMeansReservedMaskClear : Prop :=
  ∀ (w : Word) (rest after : List Word) (i : Instr), decode (w :: rest) = .command i after →
    (i.wf = true ↔ w &&& reservedMask i = 0)

/-- R113: the encoding examples of the spec decode to the commands they stand for. -/
def Obligations.SpecEncodingExamplesDecode : Prop :=
  decode [0x01457F00#32] = .command (.noteOn 69 127 0) [] ∧
  decode [0x02450000#32] = .command (.noteOff 69 0) [] ∧
  decode [0x03030000#32, 0x3F000000#32] = .command (.setParam 3 0x3F000000#32 0) [] ∧
  decode [0x03000000#32, 0x3F666666#32] = .command (.setParam 0 0x3F666666#32 0) [] ∧
  decode [0x04010000#32] = .command (.getParam 1 0) [] ∧
  decode [0x05000000#32, 0x00000000#32, 0x40E58880#32] =
    .command (.setSampleRate 0x00000000#32 0x40E58880#32 0) [] ∧
  decode [0x06020200#32] = .command (.render 2 512) [] ∧
  decode [0x07000000#32] = .command (.reset 0) [] ∧
  decode [0x08000000#32] = .command (.readStatus 0) []

/-! ### Ports, framing and the step -/

/-- R103: a command's length is 2 for OPC 3, 3 for OPC 5 and 1 otherwise; a port with that many words consumes
exactly them, whatever becomes of the command, and a port with fewer keeps them and changes nothing else. -/
def Obligations.FramingIndependentOfOutcome : Prop :=
  (∀ w : Word, cmdLength w =
    if w.toNat / 2 ^ 24 = 3 then 2 else if w.toNat / 2 ^ 24 = 5 then 3 else 1) ∧
  ∀ (p : PortId) (s : State) (w : Word) (ws : List Word), (s.port p).words = w :: ws →
    (cmdLength w ≤ (w :: ws).length → ∃ t, runPort p s = .next t ∧
      (t.port p).words = (w :: ws).drop (cmdLength w)) ∧
    ((w :: ws).length < cmdLength w → ∃ q, runPort p s = .next (s.setPort p q) ∧
      q.words = w :: ws ∧ q.responses = (s.port p).responses)

/-- R107: an undefined opcode on either port is ILLEGAL, consumes one word and answers no word; a command port C
may not carry is ILLEGAL there, consumes its words and answers its zeros. Neither changes anything else. -/
def Obligations.IllegalCommandsAreRefused : Prop :=
  (∀ (p : PortId) (s : State) (w : Word) (ws : List Word), (s.port p).words = w :: ws →
    0x0A < (w.extractLsb' 24 8).toNat →
    ∃ t, runPort p s = .next t ∧ t.status = ⟨s.status.fault, .illegal⟩ ∧ (t.port p).words = ws ∧
      (t.port p).responses = (s.port p).responses ∧ (∀ q, q ≠ p → t.port q = s.port q) ∧
      sameBlock s t) ∧
  (∀ (s : State) (ws rest : List Word) (i : Instr), s.portC.words = ws →
    decode ws = .command i rest → portCMayCarry i = false →
    ∃ t, runPort .C s = .next t ∧ t.status = ⟨s.status.fault, .illegal⟩ ∧ t.portC.words = rest ∧
      t.portC.responses = s.portC.responses ++ List.replicate (responseCount i) 0 ∧
      t.portR = s.portR ∧ sameBlock s t)

/-- When the words before a port decode to a command and the next event is that port's, a step is `exec` of the
command, with its words, and nothing else that was sent, taken off the port and the event off the interleaving (R110,
R77; log 1, 11). -/
def Obligations.StepRunsDecodedCommand : Prop :=
  ∀ (s : State) (p : PortId) (i : Instr) (rest : List Word), nextEvent s = .command p →
    decode (s.port p).words = .command i rest →
    let q := (s.port p).dropWords (encode i).length
    q.words = rest ∧ q.responses = (s.port p).responses ∧
    step s = exec i { (s.setPort p q) with cur := p, sched := s.sched.tail }

/-- R78, R76, R331: a step takes the first event off the interleaving and performs it: a port's command, hardware
reset, or one snapshot read, which records the register's pattern when a RENDER is next and has not read it, and does
nothing else. With no event listed it is port R's turn while R has anything to do, else C's (log 1, 2, 14, 24). -/
def Obligations.StepPerformsTheNextEvent : Prop :=
  ∀ s : State,
    (∀ p rest, s.sched = .command p :: rest → step s = runPort p (eventTaken s)) ∧
    (∀ rest, s.sched = .hardwareReset :: rest → step s = .next (hardwareReset (eventTaken s))) ∧
    (∀ i rest, s.sched = .snapRead i :: rest →
      (renderIsNext s → s.snapRaw.get i = none → ∃ t, step s = .next t ∧
        t.snapRaw.get i = some (s.params.get i) ∧
        (∀ k, k ≠ i → t.snapRaw.get k = s.snapRaw.get k) ∧
        t = { eventTaken s with snapRaw := t.snapRaw }) ∧
      (¬ renderIsNext s ∨ s.snapRaw.get i ≠ none → step s = .next (eventTaken s))) ∧
    (s.sched = [] → step s = runPort (if s.portR.hasWork = true then .R else .C) s)

/-- R300, R305, R108: nothing stops the block. Every command and every step has a next state. -/
def Obligations.NothingStopsTheBlock : Prop :=
  (∀ (i : Instr) (s : State), ∃ t, exec i s = .next t) ∧ (∀ s : State, ∃ t, step s = .next t)

/-- R72, R73: a byte transport carries words little-endian, and the bytes of a word not yet complete stay held. -/
def Obligations.ByteTransportIsLittleEndian : Prop :=
  ∀ (ws : List Word) (bs : List Byte), bs.length < 4 →
    packBytes (ws.flatMap bytesLE ++ bs) = (ws, bs)

/-! ### Refusals -/

/-- R302: the first error in the order ILLEGAL, FAULTED, RESERVED, own check is the one reported, and a command
with none of them leaves ERR alone (READ_STATUS and RESET clear it). An undefined opcode is ILLEGAL before all
else. BAD_RATE also sets FAULT. -/
def Obligations.FirstErrorInOrderIsReported : Prop :=
  (∀ (i : Instr) (s : State) (e : ErrCode), firstError i s = some e → e ≠ .badRate →
    exec i s = .next (refused s e (responseCount i))) ∧
  (∀ (i : Instr) (s : State), firstError i s = some .badRate →
    exec i s = .next (refused { s with status := ⟨true, s.status.err⟩ } .badRate 0)) ∧
  (∀ (i : Instr) (s : State), firstError i s = none → ∃ t, exec i s = .next t ∧
    t.status.err = match i with
      | .reset _ => .noError
      | .readStatus _ => .noError
      | _ => s.status.err) ∧
  (∀ (p : PortId) (s : State) (w : Word) (ws : List Word), (s.port p).words = w :: ws →
    0x0A < (w.extractLsb' 24 8).toNat → ∃ t, runPort p s = .next t ∧ t.status.err = .illegal)

/-- R303: FAULT is set only by SET_SAMPLE_RATE with an illegal rate and cleared by no command but RESET; while it
is 1 the five commands that change state change nothing but ERR, and no other command reports FAULTED. -/
def Obligations.FaultStateIsFrozenUntilReset : Prop :=
  ∀ (i : Instr) (s t : State), exec i s = .next t →
    (s.status.fault = false → t.status.fault = true →
      ∃ lo hi, i = .setSampleRate lo hi 0 ∧ legalRate (hi ++ lo) = false) ∧
    (s.status.fault = true → t.status.fault = false → i = .reset 0) ∧
    (s.status.fault = true → refusedUnderFault i = true →
      t = { s with status := ⟨true, t.status.err⟩ }) ∧
    (s.status.fault = true → refusedUnderFault i = false → t.status.err = .faulted →
      s.status.err = .faulted)

/-! ### Each command, whole -/

/-- R280: NOP changes nothing; with a reserved bit set it is RESERVED. It is never ILLEGAL and never FAULTED. -/
def Obligations.NopChangesNothing : Prop :=
  ∀ (rsv : BitVec 24) (s : State),
    encode (.nop rsv) = [0x00#8 ++ rsv] ∧
    exec (.nop rsv) s = .next (if rsv = 0 then s else refused s .reserved 0)

/-- R151, R180: NOTE_ON takes the voice in every state, latches it, and starts an Attack from the current value. -/
def Obligations.NoteOnStealsAndTriggers : Prop :=
  ∀ (p v rsv : BitVec 8) (s : State),
  encode (.noteOn p v rsv) = [(0x01#8 ++ p) ++ (v ++ rsv)] ∧ exec (.noteOn p v rsv) s = .next (
    if s.cur = .C then refused s .illegal 0
    else if s.status.fault = true then refused s .faulted 0
    else if rsv ≠ 0 then refused s .reserved 0
    else if 127 < p.toNat ∨ 127 < v.toNat then refused s .range 0
    else { s with
      nt := ⟨true, p.setWidth 7, v.setWidth 7, s.clk⟩
      vl := ⟨p.setWidth 7, v.setWidth 7⟩
      env := { stage := .attack, value := s.env.value, start := s.clk, atk := s.env.value,
               rel := s.env.rel } })

/-- R153, R154, R181: NOTE_OFF of the sounding pitch empties the tracker and starts a Release from the current
value; a stale one changes nothing. -/
def Obligations.NoteOffReleasesOnlyTheSoundingPitch : Prop :=
  ∀ (p : BitVec 8) (rsv : BitVec 16) (s : State),
  encode (.noteOff p rsv) = [(0x02#8 ++ p) ++ rsv] ∧ exec (.noteOff p rsv) s = .next (
    if s.cur = .C then refused s .illegal 0
    else if s.status.fault = true then refused s .faulted 0
    else if rsv ≠ 0 then refused s .reserved 0
    else if 127 < p.toNat then refused s .range 0
    else if s.nt.sounding = true ∧ s.nt.pitch.toNat = p.toNat then
      { s with
        nt := ⟨false, s.nt.pitch, s.nt.velocity, s.nt.onset⟩
        env := { stage := .release, value := s.env.value, start := s.clk, atk := s.env.atk,
                 rel := s.env.value } }
    else s)

/-- R262, R260: SET_PARAM stores the 32-bit pattern unchanged, on either port; an index above 4 writes nothing. -/
def Obligations.SetParamStoresRawPattern : Prop :=
  ∀ (i : BitVec 8) (d : Word) (rsv : BitVec 16) (s : State),
  encode (.setParam i d rsv) = [(0x03#8 ++ i) ++ rsv, d] ∧ exec (.setParam i d rsv) s = .next (
    if s.status.fault = true then refused s .faulted 0
    else if rsv ≠ 0 then refused s .reserved 0
    else if 4 < i.toNat then refused s .index 0
    else { s with params := withReg s.params i d })

/-- R263: GET_PARAM answers the whole pattern on the port it arrived on, under FAULT too; an index above 4
answers one zero word. -/
def Obligations.GetParamAnswersOnItsPort : Prop :=
  ∀ (i : BitVec 8) (rsv : BitVec 16) (s : State),
  encode (.getParam i rsv) = [(0x04#8 ++ i) ++ rsv] ∧ exec (.getParam i rsv) s = .next (
    if rsv ≠ 0 then refused s .reserved 1
    else if 4 < i.toNat then refused s .index 1
    else answered s [regAt s.params i])

/-- R136, R135: a legal rate is taken with its DT and ALPHA, the Clock restarts at +0.0 and the stored times are
reduced by the old Clock; an illegal rate sets FAULT and changes no other register. -/
def Obligations.SetSampleRateRebasesOrFaults : Prop :=
  ∀ (lo hi : Word) (rsv : BitVec 24) (s : State),
  encode (.setSampleRate lo hi rsv) = [0x05#8 ++ rsv, lo, hi] ∧ exec (.setSampleRate lo hi rsv) s = .next (
    let r : F64 := hi ++ lo
    if s.cur = .C then refused s .illegal 0
    else if s.status.fault = true then refused s .faulted 0
    else if rsv ≠ 0 then refused s .reserved 0
    else if f64IsFinite r = true ∧ f64Lt f64Zero r = true ∧ f64IsFinite (f64Div f64One r) = true then
      { s with
        sr := r
        dt := f64Div f64One r
        alpha := declickAlpha s.cfg r
        clk := f64Zero
        env := { s.env with start := f64Sub s.env.start s.clk }
        nt := { s.nt with onset := f64Sub s.nt.onset s.clk } }
    else refused { s with status := ⟨true, s.status.err⟩ } .badRate 0)

/-- R231, R232, R234: RENDER maps the snapshot of the five registers, produces n samples at the times
CLK + (DT summed k times), and then advances the Clock once by n / SR. Nothing else changes. -/
def Obligations.RenderIsSnapshotThenSamplesThenClock : Prop :=
  ∀ (nch : BitVec 8) (n : BitVec 16) (s : State),
    encode (.render nch n) = [(0x06#8 ++ nch) ++ n] ∧
    (s.cur = .C → exec (.render nch n) s = .next (refused s .illegal 0)) ∧
    (s.cur = .R → s.status.fault = true → exec (.render nch n) s = .next (refused s .faulted 0)) ∧
    (renderAdmitted s → ∃ σ : Nat → State,
      σ 0 = { s with
        snapRaw := ⟨none, none, none, none, none⟩
        snap :=
          { shape := shapeSelect (patternOf s.snapRaw.oscillator s.params.oscillator)
            a := f64Mul s.cfg.maxDurationS
              (f64OfF32 (clamp01 (patternOf s.snapRaw.attack s.params.attack)))
            d := f64Mul s.cfg.maxDurationS
              (f64OfF32 (clamp01 (patternOf s.snapRaw.decay s.params.decay)))
            s := f64OfF32 (clamp01 (patternOf s.snapRaw.sustain s.params.sustain))
            r := f64Mul s.cfg.maxDurationS
              (f64OfF32 (clamp01 (patternOf s.snapRaw.release s.params.release))) } } ∧
      (∀ k, k < n.toNat → OneSample nch (f64Add s.clk (offset s.dt k)) (σ k) (σ (k + 1))) ∧
      exec (.render nch n) s = .next { σ n.toNat with
        clk := f64Add s.clk (f64Div (f64OfInt n.toNat) s.sr) })

/-- R282: RESET sets every register of the block to its reset value and touches neither framing nor streams. What
SNAP holds after it is left open here. -/
def Obligations.ResetCommandRestoresResetValues : Prop :=
  ∀ (rsv : BitVec 24) (s : State), encode (.reset rsv) = [0x07#8 ++ rsv] ∧
    (s.cur = .C → exec (.reset rsv) s = .next (refused s .illegal 0)) ∧
    (s.cur = .R → rsv ≠ 0 → exec (.reset rsv) s = .next (refused s .reserved 0)) ∧
    (s.cur = .R → rsv = 0 → ∃ t, exec (.reset rsv) s = .next t ∧ t = { s with
      params := ⟨0x00000000#32, 0x00000000#32, 0x00000000#32, 0x00000000#32, 0x00000000#32⟩
      sr := s.cfg.resetSampleRate
      dt := f64Div f64One s.cfg.resetSampleRate
      alpha := declickAlpha s.cfg s.cfg.resetSampleRate
      clk := f64Zero
      nt := ⟨false, 0, 0, f64Zero⟩
      env := ⟨.idle, f64Zero, f64Zero, f64Zero, f64Zero⟩
      vl := ⟨0, 0⟩
      dcY := f64Zero
      status := ⟨false, .noError⟩
      snap := t.snap })

/-- R284: READ_STATUS answers the status word and then clears ERR, and only ERR. -/
def Obligations.ReadStatusAnswersThenClearsErr : Prop :=
  ∀ (rsv : BitVec 24) (s : State),
  encode (.readStatus rsv) = [0x08#8 ++ rsv] ∧ exec (.readStatus rsv) s = .next (
    if s.cur = .C then refused s .illegal 1
    else if rsv ≠ 0 then refused s .reserved 1
    else { answered s [statusWord s] with status := ⟨s.status.fault, .noError⟩ })

/-- R138: READ_CLOCK answers CLK, low word first, and has no side effect. -/
def Obligations.ReadClockAnswersLowWordFirst : Prop :=
  ∀ (rsv : BitVec 24) (s : State),
  encode (.readClock rsv) = [0x09#8 ++ rsv] ∧ exec (.readClock rsv) s = .next (
    if s.cur = .C then refused s .illegal 2
    else if rsv ≠ 0 then refused s .reserved 2
    else answered s [s.clk.extractLsb' 0 32, s.clk.extractLsb' 32 32])

/-- R185: READ_ENV answers ENV.value, low word first, and has no side effect. -/
def Obligations.ReadEnvAnswersLowWordFirst : Prop :=
  ∀ (rsv : BitVec 24) (s : State),
  encode (.readEnv rsv) = [0x0A#8 ++ rsv] ∧ exec (.readEnv rsv) s = .next (
    if s.cur = .C then refused s .illegal 2
    else if rsv ≠ 0 then refused s .reserved 2
    else answered s [s.env.value.extractLsb' 0 32, s.env.value.extractLsb' 32 32])

/-- R285, R40: the status word as a number, field by field, with the codes of R37 and R301; the reserved bits are
0. -/
def Obligations.StatusWordHasItsFields : Prop :=
  ∀ s : State, (statusWord s).toNat =
    (if s.status.fault then 2 ^ 31 else 0) + errNumber s.status.err * 2 ^ 24 +
    (if s.nt.sounding then 2 ^ 23 else 0) + stageNumber s.env.stage * 2 ^ 20 +
    (if s.nt.sounding then s.nt.pitch.toNat * 2 ^ 8 + s.nt.velocity.toNat else 0)

/-- R284: two READ_STATUS in a row answer the same word but for ERR, which the second answers as 0. -/
def Obligations.SecondReadStatusShowsErrCleared : Prop :=
  ∀ s : State, s.cur = .R → ∃ t u, exec (.readStatus 0) s = .next t ∧ exec (.readStatus 0) t = .next u ∧
    u.portR.responses = s.portR.responses ++ [statusWord s, withoutErr (statusWord s)] ∧ u = { t with
      portR := { t.portR with responses := u.portR.responses } }

/-! ### Who writes what -/

/-- R31, R33, R34, R35, R36, R38, R39: which commands can change each register; and no command changes the
configuration. -/
def Obligations.RegistersHaveOnlyTheirWriters : Prop :=
  ∀ (i : Instr) (s t : State), exec i s = .next t →
    t.cfg = s.cfg ∧
    (t.params ≠ s.params → (∃ j d, i = .setParam j d 0) ∨ i = .reset 0) ∧
    (t.sr ≠ s.sr ∨ t.dt ≠ s.dt ∨ t.alpha ≠ s.alpha →
      (∃ lo hi, i = .setSampleRate lo hi 0) ∨ i = .reset 0) ∧
    (t.clk ≠ s.clk →
      (∃ nch n, i = .render nch n) ∨ (∃ lo hi, i = .setSampleRate lo hi 0) ∨ i = .reset 0) ∧
    (t.vl ≠ s.vl → (∃ p v, i = .noteOn p v 0) ∨ i = .reset 0) ∧
    (t.nt ≠ s.nt → (∃ p v, i = .noteOn p v 0) ∨ (∃ p, i = .noteOff p 0) ∨
      (∃ lo hi, i = .setSampleRate lo hi 0) ∨ i = .reset 0) ∧
    (t.env ≠ s.env → (∃ p v, i = .noteOn p v 0) ∨ (∃ p, i = .noteOff p 0) ∨
      (∃ nch n, i = .render nch n) ∨ (∃ lo hi, i = .setSampleRate lo hi 0) ∨ i = .reset 0) ∧
    (t.dcY ≠ s.dcY → (∃ nch n, i = .render nch n) ∨ i = .reset 0) ∧
    (t.out ≠ s.out → ∃ nch n, i = .render nch n)

/-- R78, R313: a command of port C writes P, ERR and port C's own streams and framing, nothing else. -/
def Obligations.PortCWritesOnlyParamsAndErr : Prop :=
  ∀ s t : State, runPort .C s = .next t →
    t = { s with params := t.params, status := ⟨s.status.fault, t.status.err⟩, portC := t.portC, cur := t.cur }

/-- R331: hardware reset empties the framing of both ports; the RESET command keeps it; neither touches the
response and output streams, and both leave the same registers and STATUS. SNAP, to which R330 gives no value, is left
open, and so are the snapshot reads of a RENDER in progress, which RESET cannot meet. That hardware reset empties the
partial word too is the model's choice (log 11), and that it can fall on a RENDER whose snapshot has begun (log 14). -/
def Obligations.ResetsDifferOnlyInFraming : Prop :=
  ∀ s : State, (hardwareReset s).portR.frame = [] ∧ (hardwareReset s).portC.frame = [] ∧
    (hardwareReset s).portR.held = [] ∧ (hardwareReset s).portC.held = [] ∧
    (hardwareReset s).portR.responses = s.portR.responses ∧
    (hardwareReset s).portC.responses = s.portC.responses ∧ (hardwareReset s).out = s.out ∧
    (s.cur = .R → ∃ t, exec (.reset 0) s = .next t ∧ t.portR = s.portR ∧ t.portC = s.portC ∧
      t.out = s.out ∧ sameBlock { t with
          snapRaw := (hardwareReset s).snapRaw
          snap := (hardwareReset s).snap } (hardwareReset s) ∧
      (hardwareReset s).status = t.status)

/-! ### Reset -/

/-- R330, R331: the table of reset values, for the reset state, for hardware reset of any state of this hardware and
for the RESET command in any state of it; hardware reset empties the framing state and RESET keeps it. -/
def Obligations.ResetStateIsAsTheTableSays : Prop :=
  (ResetTable State.reset ∧ State.reset.portR.frame = [] ∧ State.reset.portC.frame = []) ∧
  ∀ s : State, s.cfg = Config.savoy →
    (ResetTable (hardwareReset s) ∧ (hardwareReset s).portR.frame = [] ∧
      (hardwareReset s).portC.frame = []) ∧
    (s.cur = .R → ∃ t, exec (.reset 0) s = .next t ∧ ResetTable t ∧
      t.portR.frame = s.portR.frame ∧ t.portC.frame = s.portC.frame)

/-- R332: the reset state meets every invariant and is quiescent. -/
def Obligations.ResetStateMeetsInvariants : Prop := Inv State.reset ∧ Quiescent State.reset

/-! ### Invariants that every step keeps -/

/-- R45, R233: a note sounds exactly in Attack, Decay and Sustain, and the voice latch then holds it. -/
def Obligations.StepKeepsVoiceAndLatch : Prop :=
  ∀ s t : State, VoiceInv s → LatchInv s → step s = .next t → VoiceInv t ∧ LatchInv t

/-- R46, R175: the envelope's levels stay in [0.0, 1.0], and Idle stays at +0.0, under rounding. -/
def Obligations.StepKeepsEnvelopeLevels : Prop :=
  ∀ s t : State, Config.legal s.cfg → LevelInv s → IdleInv s → step s = .next t →
    LevelInv t ∧ IdleInv t

/-- R33, R34, R35: SR stays legal, DT and ALPHA stay what SR gives, and CLK stays at least +0.0 and never NaN. -/
def Obligations.StepKeepsRateAndClock : Prop :=
  ∀ s t : State, Config.legal s.cfg → RateInv s → ClockInv s → step s = .next t →
    t.cfg = s.cfg ∧ RateInv t ∧ ClockInv t

/-- R43, R73, R76: framing holds at most an incomplete command, and snapshot reads are held only for the RENDER
that is next on port R. -/
def Obligations.StepKeepsFramingAndSnapshot : Prop :=
  ∀ s t : State, SnapshotInv s → s.portR.FramingInv → s.portC.FramingInv → step s = .next t →
    SnapshotInv t ∧ t.portR.FramingInv ∧ t.portC.FramingInv

/-! ### Clock -/

/-- R134: a command that is no legal rate change and no RESET never lowers CLK; those two bring it to +0.0. -/
def Obligations.ClockNeverDecreasesBetweenResets : Prop :=
  ∀ (i : Instr) (s t : State), RateInv s → ClockInv s → exec i s = .next t →
    (f64Le s.clk t.clk = true ∧ f64Neg? t.clk = false) ∨
    (t.clk = f64Zero ∧ ((∃ lo hi, i = .setSampleRate lo hi 0 ∧ legalRate (hi ++ lo) = true) ∨
      i = .reset 0))

/-! ### Envelope -/

/-- R170, R173: one evaluation applies at most one transition, along Attack, Decay, Sustain and Release, Idle; a
transition's start time is the sample time; the start levels stay. -/
def Obligations.OneTransitionPerEvaluation : Prop :=
  ∀ (c : Config) (sn : Snapshot) (t : F64) (v : Envelope),
    let w := envEvaluate c sn t v
    w.atk = v.atk ∧ w.rel = v.rel ∧
    ((w.stage = v.stage ∧ w.start = v.start) ∨
      (w.start = t ∧ ((v.stage = .attack ∧ w.stage = .decay) ∨ (v.stage = .decay ∧ w.stage = .sustain) ∨
        (v.stage = .release ∧ w.stage = .idle))))

/-- R172, R176, R177, R179: a stage whose duration is instantaneous or has elapsed completes at this evaluation,
at 1.0, at the sustain level, at 0.0. -/
def Obligations.StagesCompleteAtTheirEnd : Prop :=
  ∀ (c : Config) (sn : Snapshot) (t : F64) (v : Envelope),
    let e := elapsed t v.start
    (v.stage = .attack → f64Le sn.a c.durEps = true ∨ f64Le sn.a e = true →
      envEvaluate c sn t v = ⟨.decay, f64One, t, v.atk, v.rel⟩) ∧
    (v.stage = .decay → f64Le sn.d c.durEps = true ∨ f64Le sn.d e = true →
      envEvaluate c sn t v = ⟨.sustain, sn.s, t, v.atk, v.rel⟩) ∧
    (v.stage = .release → f64Le sn.r c.durEps = true ∨ f64Le sn.r e = true →
      envEvaluate c sn t v = ⟨.idle, f64Zero, t, v.atk, v.rel⟩) ∧
    (v.stage = .idle → envEvaluate c sn t v = { v with value := f64Zero }) ∧
    (v.stage = .sustain → envEvaluate c sn t v = { v with value := sn.s })

/-- R174 to R179: one evaluation of the envelope, by the formulas of its stages, with the transitions of an Attack
that has reached 1.0 and of a Release that has reached 0.0. -/
def Obligations.EnvelopeFollowsItsFormulas : Prop :=
  ∀ (c : Config) (sn : Snapshot) (t : F64) (v : Envelope),
    let e := elapsedTime t v.start
    let rise := if f64Le sn.a c.durEps = true ∨ f64Le sn.a e = true then 0x3FF0000000000000#64
      else f64Add v.atk (f64Mul (f64Sub 0x3FF0000000000000#64 v.atk) (f64Div e sn.a))
    let fall := f64Mul v.rel (f64Sub 0x3FF0000000000000#64 (f64Div e sn.r))
    envEvaluate c sn t v = match v.stage with
      | .idle => { v with value := 0x0000000000000000#64 }
      | .attack =>
        if f64Le 0x3FF0000000000000#64 rise = true then
          { v with value := 0x3FF0000000000000#64, stage := .decay, start := t }
        else { v with value := rise }
      | .decay =>
        if f64Le sn.d c.durEps = true ∨ f64Le sn.d e = true then
          { v with value := sn.s, stage := .sustain, start := t }
        else { v with
          value := f64Sub 0x3FF0000000000000#64
            (f64Mul (f64Div e sn.d) (f64Sub 0x3FF0000000000000#64 sn.s)) }
      | .sustain => { v with value := sn.s }
      | .release =>
        if f64Le sn.r c.durEps = true ∨ f64Le sn.r e = true ∨ f64Le fall 0x0000000000000000#64 = true then
          { v with value := 0x0000000000000000#64, stage := .idle, start := t }
        else { v with value := fall }

/-- R186 item 2: the first sample after a NOTE_ON, at the trigger time, has exactly the pre-trigger value, when
the attack is not instantaneous. -/
def Obligations.AttackStartsAtPreTriggerValue : Prop :=
  ∀ (c : Config) (sn : Snapshot) (now : F64) (v : Envelope), inUnit v.value = true →
    f64IsFinite sn.a = true → f64Lt f64Zero sn.a = true → f64Le sn.a c.durEps = false →
    (envEvaluate c sn now (envTrigger now v)).value = v.value

/-- R186 items 3, 4 and 5: within an Attack the value does not decrease with time, within a Decay and within a
Release it does not increase, under rounding. -/
def Obligations.StagesAreMonotone : Prop :=
  ∀ (c : Config) (sn : Snapshot) (v : Envelope) (t t' : F64),
    f64IsFinite sn.a = true → f64IsFinite sn.d = true → f64IsFinite sn.r = true →
    inUnit sn.s = true → inUnit v.atk = true → inUnit v.rel = true → f64Le t t' = true →
    (v.stage = .attack →
      f64Le (envEvaluate c sn t v).value (envEvaluate c sn t' v).value = true) ∧
    (v.stage = .decay →
      f64Le (envEvaluate c sn t' v).value (envEvaluate c sn t v).value = true) ∧
    (v.stage = .release →
      f64Le (envEvaluate c sn t' v).value (envEvaluate c sn t v).value = true)

/-! ### Oscillator and parameters -/

/-- R200, R203, R206 to R209: the waveform of each shape, with the frequency 440 * 2^((p - 69) / 12). -/
def Obligations.WaveformsFollowTheirFormulas : Prop :=
  ∀ (p : BitVec 7) (t : F64),
    let f := f64Mul 0x407B800000000000#64
      (exp2_64 (f64Div (f64OfInt ((p.toNat : Int) - 69)) 0x4028000000000000#64))
    let sine := sin64 (f64Mul (f64Mul 0x401921FB54442D18#64 f) t)
    let m := f64Fmod t (f64Div 0x3FF0000000000000#64 f)
    let q := f64Mul m f
    oscRender .sine p t = sine ∧
    oscRender .square p t =
      (if f64Lt 0x0000000000000000#64 sine = true then 0x3FF0000000000000#64
      else if f64Lt sine 0x0000000000000000#64 = true then 0xBFF0000000000000#64
      else 0x0000000000000000#64) ∧
    oscRender .saw p t =
      clampTo1 (f64Sub (f64Mul (f64Mul 0x4000000000000000#64 m) f) 0x3FF0000000000000#64) ∧
    oscRender .triangle p t = clampTo1
      (if f64Lt q 0x3FD0000000000000#64 = true then f64Mul 0x4010000000000000#64 q
      else if f64Lt q 0x3FE8000000000000#64 = true then
        f64Sub 0x4000000000000000#64 (f64Mul 0x4010000000000000#64 q)
      else f64Sub (f64Mul 0x4010000000000000#64 q) 0x4010000000000000#64)

/-- R210: at a finite time and a finite positive frequency the Saw and the Triangle lie in [-1, 1] and the Square
is -1.0, +0.0 or 1.0; the Sine lies in [-1, 1] where its argument is finite. -/
def Obligations.OscillatorStaysInRange : Prop :=
  ∀ f t : F64, f64IsFinite f = true → f64Lt f64Zero f = true → f64IsFinite t = true →
    inPM1 (oscAt .saw f t) = true ∧ inPM1 (oscAt .triangle f t) = true ∧
    (oscAt .square f t = f64Neg f64One ∨ oscAt .square f t = f64Zero ∨ oscAt .square f t = f64One) ∧
    (f64IsFinite (f64Mul (f64Mul Config.twoPi f) t) = true → inPM1 (oscAt .sine f t) = true)

/-- R202: the shape a knob pattern selects, over all 2^32 patterns: half-open quartiles with -0.0 in the first,
and Sine for 0.75 and up, for negatives, infinities and NaN. -/
def Obligations.ShapeQuartiles : Prop :=
  ∀ x : F32, shapeSelect x =
    if x.toNat < 0x3E800000 ∨ x.toNat = 0x80000000 then .saw
    else if x.toNat < 0x3F000000 ∧ 0x3E800000 ≤ x.toNat then .square
    else if x.toNat < 0x3F400000 ∧ 0x3F000000 ≤ x.toNat then .triangle
    else .sine

/-- R264, R12: a knob position is clamped to [+0.0, 1.0] and widened exactly, over all patterns; a duration is
exactly 4 times that level and lies in [0.0, 4.0]. -/
def Obligations.KnobMappingIsExact : Prop :=
  ∀ x : F32,
    (f32IsNaN x = true ∨ 0x80000000 ≤ x.toNat → knobLevel x = f64Zero) ∧
    (f32IsNaN x = false ∧ 0x3F800000 ≤ x.toNat ∧ x.toNat < 0x80000000 → knobLevel x = f64One) ∧
    (x.toNat < 0x3F800000 → f64Units (knobLevel x) = (magUnits 23 x.toNat : Int) * 2 ^ 925) ∧
    inUnit (knobLevel x) = true ∧
    f64Units (knobSeconds Config.savoy x) = 4 * f64Units (knobLevel x) ∧
    f64Le f64Zero (knobSeconds Config.savoy x) = true ∧
    f64Le (knobSeconds Config.savoy x) 0x4010000000000000#64 = true

/-- R203, R204: the frequencies every conforming `exp2_64` gives exactly. -/
def Obligations.ExactFrequencies : Prop :=
  freq 9 = 0x402B800000000000#64 ∧ freq 21 = 0x403B800000000000#64 ∧ freq 33 = 0x404B800000000000#64 ∧
  freq 45 = 0x405B800000000000#64 ∧ freq 57 = 0x406B800000000000#64 ∧ freq 69 = 0x407B800000000000#64 ∧
  freq 81 = 0x408B800000000000#64 ∧ freq 93 = 0x409B800000000000#64 ∧
  freq 105 = 0x40AB800000000000#64 ∧ freq 117 = 0x40BB800000000000#64

/-- R10: the properties of the configuration functions, for every function Config may hold (log 4). -/
def Obligations.ConfigurationFunctionsMeetTheirProperties : Prop :=
  (∀ x, f64IsFinite x = true → inPM1 (sin64 x) = true) ∧ sin64 f64Zero = f64Zero ∧
  (∀ n : Int, -5 ≤ n → n ≤ 4 → exp2_64 (f64OfInt n) = f64Pow2 n ∧
    f64Units (f64Pow2 n) = 2 ^ (1074 + n).toNat) ∧
  (∀ x, f64Le (f64Div (f64OfInt (-69)) (f64OfInt 12)) x = true →
    f64Le x (f64Div (f64OfInt 58) (f64OfInt 12)) = true →
    f64IsFinite (exp2_64 x) = true ∧ f64Lt f64Zero (exp2_64 x) = true) ∧
  (∀ x, f64IsFinite x = true → f64Lt x f64Zero = true →
    f64Lt f64Zero (exp64 x) = true ∧ f64Lt (exp64 x) f64One = true)

/-! ### VoiceEngine -/

/-- R235: the velocity gain is f64(v) / 127.0, in [0, 1], +0.0 at 0 and 1.0 at 127. -/
def Obligations.VelocityGainIsVelocityOver127 : Prop :=
  (∀ v : BitVec 7, velocityGain v = f64Div (f64OfInt v.toNat) (f64OfInt 127) ∧
    inUnit (velocityGain v) = true) ∧
  velocityGain 0 = 0x0000000000000000#64 ∧ velocityGain 127 = 0x3FF0000000000000#64

/-- R236: without a voice the mixer gives +0.0; with one, its result lies in [-1, 1] when the waveform does and the
envelope's value is in [0, 1]. -/
def Obligations.MixStaysInRange : Prop :=
  ∀ (s : State) (t : F64),
    (selectVoice s = none → mix s t = f64Zero) ∧
    (inUnit s.env.value = true → (∀ p, inPM1 (oscRender s.snap.shape p t) = true) →
      inPM1 (mix s t) = true)

/-- R238: the declick coefficient is 1.0 in the bypass and 1.0 - exp64(-1.0 / (tau * r)) otherwise; it lies in (0, 1]
whenever that quotient is finite and negative (log 6 for the other rates). -/
def Obligations.DeclickCoefficientInUnit : Prop :=
  ∀ (c : Config) (r : F64),
    let x := f64Div 0xBFF0000000000000#64 (f64Mul c.declickTauS r)
    (f64Eq c.declickTauS 0x0000000000000000#64 = true → declickAlpha c r = 0x3FF0000000000000#64) ∧
    (f64Eq c.declickTauS 0x0000000000000000#64 = false →
      declickAlpha c r = f64Sub 0x3FF0000000000000#64 (exp64 x) ∧
      (f64IsFinite x = true → f64Lt x f64Zero = true →
        f64Lt f64Zero (declickAlpha c r) = true ∧ f64Le (declickAlpha c r) f64One = true))

/-- R237: in the bypass the declick's output is the mix exactly, except that -0.0 becomes +0.0. -/
def Obligations.BypassPassesTheMix : Prop :=
  ∀ (c : Config) (alpha y m : F64), f64Eq c.declickTauS f64Zero = true →
    f64Lt f64Zero c.declickSnap = true →
    declick c alpha y m = if f64Eq m f64Zero = true then f64Zero else m

/-- R80, R231: a RENDER appends exactly n frames of nch equal samples; with nch = 0 the stream is unchanged. -/
def Obligations.RenderAppendsExactlyItsFrames : Prop :=
  ∀ (nch : BitVec 8) (n : BitVec 16) (s : State), renderAdmitted s →
    ∃ t, exec (.render nch n) s = .next t ∧
      (nch = 0 → t.out = s.out) ∧
      (nch ≠ 0 → ∃ ys : List F32, ys.length = n.toNat ∧
        t.out = s.out ++ ys.map (fun y => List.replicate nch.toNat y))

/-- R80, R231: the channel count changes nothing but the frames. -/
def Obligations.ChannelCountChangesOnlyFrames : Prop :=
  ∀ (nch nch' : BitVec 8) (n : BitVec 16) (s : State), s.cur = .R →
    ∃ t t', exec (.render nch n) s = .next t ∧ exec (.render nch' n) s = .next t' ∧
      t' = { t with out := t'.out }

/-- R231, R131: a RENDER of no samples changes neither CLK, ENV, DC.y nor the streams. -/
def Obligations.EmptyRenderOnlyTakesItsSnapshot : Prop :=
  ∀ (nch : BitVec 8) (s : State), renderAdmitted s → RateInv s → ClockInv s →
    ∃ t, exec (.render nch 0) s = .next t ∧
      t = { s with snap := t.snap, snapRaw := noSnapReads }

/-- R346, R241: in a quiescent state a RENDER emits only +0.0 and changes nothing but CLK and its snapshot. -/
def Obligations.QuiescentRenderIsSilent : Prop :=
  ∀ (nch : BitVec 8) (n : BitVec 16) (s : State), renderAdmitted s → Quiescent s → IdleInv s →
    f64IsFinite s.alpha = true → f64Lt f64Zero s.cfg.declickSnap = true →
    ∃ t, exec (.render nch n) s = .next t ∧ t = { s with
      snap := t.snap
      snapRaw := noSnapReads
      clk := t.clk
      out := s.out ++ (if nch = 0 then []
        else List.replicate n.toNat (List.replicate nch.toNat 0x00000000#32)) }

/-- R243: once the snapshot reads are made, neither P, ERR nor port C can change what a RENDER does. -/
def Obligations.RenderIgnoresPortCAfterSnapshot : Prop :=
  ∀ (nch : BitVec 8) (n : BitVec 16) (s : State) (params : Five F32) (err : ErrCode) (portC : Port),
    renderAdmitted s → (∀ i, (s.snapRaw.get i).isSome = true) →
    ∃ t, exec (.render nch n) s = .next t ∧
      exec (.render nch n)
        { s with params := params, status := ⟨s.status.fault, err⟩, portC := portC } =
      .next { t with params := params, status := ⟨s.status.fault, err⟩, portC := portC }

/-- R76, R78: a SET_PARAM of port C between a RENDER's snapshot reads is seen by exactly the reads made after it:
an early read keeps the old pattern, a later one gives the new, each register on its own. -/
def Obligations.SnapshotSeesOldOrNewPerRegister : Prop :=
  ∀ (s : State) (i j : ParamIdx) (x : BitVec 8) (d : Word), renderPending s = true →
    s.snapRaw.get i = none → paramIdx? x = some j →
    ∃ e t u, runEvent (.snapRead i) s = .next e ∧
      exec (.setParam x d 0) { e with cur := .C } = .next t ∧
      exec (.setParam x d 0) { s with cur := .C } = .next u ∧
      snapRawOrRead t i = s.params.get i ∧
      (j = i → snapRawOrRead u i = d) ∧
      (∀ k, k ≠ i → snapRawOrRead t k = snapRawOrRead u k)
end

