-- ==== Sys2Proof/Laws/Decode.lean ====
section
/-! SUPPORT. The fields of an encoded command word, and a command word put together again from its fields. -/

namespace Sys2Proof

/-! ### A field of a concatenation -/

theorem extract_high {m n : Nat} (a : BitVec m) (b : BitVec n) :
    (a ++ b).extractLsb' n m = a := by
  ext i hi
  simp [BitVec.getLsbD_append, BitVec.getLsbD_eq_getElem hi]

theorem extract_low {m n : Nat} (a : BitVec m) (b : BitVec n) :
    (a ++ b).extractLsb' 0 n = b := by
  ext i hi
  simp [hi, BitVec.getLsbD_append]

theorem extract_append_low {m n k len : Nat} (a : BitVec m) (b : BitVec n) (h : k + len ≤ n) :
    (a ++ b).extractLsb' k len = b.extractLsb' k len := by
  ext i hi
  have : k + i < n := by omega
  simp [BitVec.getLsbD_append, this]

theorem extract_append_high {m n k len : Nat} (a : BitVec m) (b : BitVec n) (h : n ≤ k) :
    (a ++ b).extractLsb' k len = a.extractLsb' (k - n) len := by
  ext i hi
  have h1 : ¬ (k + i < n) := by omega
  have h2 : k + i - n = k - n + i := by omega
  simp [BitVec.getLsbD_append, h1, h2]

/-! ### The fields of the encoder's words -/

@[simp] theorem opcField_wordZ (op : Opcode) (r : BitVec 24) : opcField (wordZ op r) = op.code :=
  extract_high _ _

@[simp] theorem low24_wordZ (op : Opcode) (r : BitVec 24) : low24 (wordZ op r) = r := extract_low _ _

@[simp] theorem opcField_wordB (op : Opcode) (b : BitVec 8) (l : BitVec 16) :
    opcField (wordB op b l) = op.code := by
  unfold opcField wordB
  rw [extract_append_high _ _ (by norm_num)]; exact extract_high _ _

@[simp] theorem fieldB_wordB (op : Opcode) (b : BitVec 8) (l : BitVec 16) : fieldB (wordB op b l) = b := by
  unfold fieldB wordB
  rw [extract_append_high _ _ (by norm_num)]; exact extract_low _ _

@[simp] theorem low16_wordB (op : Opcode) (b : BitVec 8) (l : BitVec 16) : low16 (wordB op b l) = l :=
  extract_low _ _

@[simp] theorem opcField_wordN1 (op : Opcode) (b c l : BitVec 8) : opcField (wordN1 op b c l) = op.code := by
  unfold opcField wordN1
  rw [extract_append_high _ _ (by norm_num)]; exact extract_high _ _

@[simp] theorem fieldB_wordN1 (op : Opcode) (b c l : BitVec 8) : fieldB (wordN1 op b c l) = b := by
  unfold fieldB wordN1
  rw [extract_append_high _ _ (by norm_num)]; exact extract_low _ _

@[simp] theorem fieldC_wordN1 (op : Opcode) (b c l : BitVec 8) : fieldC (wordN1 op b c l) = c := by
  unfold fieldC wordN1
  rw [extract_append_low _ _ (by norm_num)]; exact extract_high _ _

@[simp] theorem low8_wordN1 (op : Opcode) (b c l : BitVec 8) : low8 (wordN1 op b c l) = l := by
  unfold low8 wordN1
  rw [extract_append_low _ _ (by norm_num)]; exact extract_low _ _

/-! ### The opcode table read both ways -/

@[simp] theorem ofCode?_code (op : Opcode) : Opcode.ofCode? op.code = some op := by
  cases op <;> decide

theorem code_of_ofCode? {c : BitVec 8} {op : Opcode} (h : Opcode.ofCode? c = some op) : op.code = c := by
  have key : ∀ c : BitVec 8, (Opcode.ofCode? c).all (fun op => op.code == c) = true := by decide +kernel
  have := key c
  rw [h] at this
  simpa using this

/-- OPC names an opcode exactly when it is at most 0x0A (R102, R107). -/
theorem ofCode?_isSome (c : BitVec 8) : (Opcode.ofCode? c).isSome = decide (c.toNat ≤ 0x0A) := by
  revert c; decide +kernel

/-! ### A word from its fields -/

theorem extract_split (w : Word) (k : Nat) (h : k ≤ 32) :
    w = ((w.extractLsb' k (32 - k)) ++ (w.extractLsb' 0 k)).cast (by omega) := by
  ext i hi
  simp only [BitVec.getElem_cast, BitVec.getElem_append, BitVec.getElem_extractLsb']
  split_ifs with h1
  · simp [BitVec.getLsbD_eq_getElem, hi]
  · rw [show k + (i - k) = i by omega, BitVec.getLsbD_eq_getElem hi]

/-- Every command word of format Z or D is OPC and the 24 low bits. -/
theorem wordZ_fields {w : Word} {op : Opcode} (h : op.code = opcField w) : wordZ op (low24 w) = w := by
  unfold wordZ; rw [h]
  exact (extract_split w 24 (by norm_num)).symm

/-- Every command word of format N2, I or B is OPC, bits 23:16 and the 16 low bits. -/
theorem wordB_fields {w : Word} {op : Opcode} (h : op.code = opcField w) :
    wordB op (fieldB w) (low16 w) = w := by
  unfold wordB; rw [h]
  ext i hi
  simp only [opcField, fieldB, low16, BitVec.getElem_append, BitVec.getElem_extractLsb']
  split_ifs with h1 h2
  · simp [BitVec.getLsbD_eq_getElem, hi]
  · rw [show 16 + (i - 16) = i by omega, BitVec.getLsbD_eq_getElem hi]
  · rw [show 24 + (i - 16 - 8) = i by omega, BitVec.getLsbD_eq_getElem hi]

/-- Every command word of format N1 is OPC, bits 23:16, bits 15:8 and bits 7:0. -/
theorem wordN1_fields {w : Word} {op : Opcode} (h : op.code = opcField w) :
    wordN1 op (fieldB w) (fieldC w) (low8 w) = w := by
  unfold wordN1; rw [h]
  ext i hi
  simp only [opcField, fieldB, fieldC, low8, BitVec.getElem_append, BitVec.getElem_extractLsb']
  split_ifs with h1 h2 h3
  · simp [BitVec.getLsbD_eq_getElem, hi]
  · rw [show 8 + (i - 8) = i by omega, BitVec.getLsbD_eq_getElem hi]
  · rw [show 16 + (i - 16) = i by omega, BitVec.getLsbD_eq_getElem hi]
  · rw [show 24 + (i - 16 - 8) = i by omega, BitVec.getLsbD_eq_getElem hi]

end Sys2Proof
end

