-- ==== Sys2Proof/Laws/Float.lean ====
section
/-! SUPPORT. What the arithmetic of Machine/Float.lean does, once: rounding is monotone and exact on
representable values; the operators keep [0, 1] where the rules need it and are monotone there. -/

namespace Sys2Proof.Machine

open Sys2Proof

/-! ### Rounding: monotone, and exact on representable values -/

theorem roundDiv_eq (n d : Nat) : roundDiv n d = n / d ∨ roundDiv n d = n / d + 1 := by
  unfold roundDiv; split_ifs <;> simp

theorem roundDiv_mul_left (n d c : Nat) (hc : 0 < c) : roundDiv (c * n) (c * d) = roundDiv n d := by
  unfold roundDiv
  rw [Nat.mul_div_mul_left _ _ hc, Nat.mul_mod_mul_left]
  have h1 : (2 * (c * (n % d)) < c * d) ↔ (2 * (n % d) < d) := by
    rw [Nat.mul_left_comm]; exact Nat.mul_lt_mul_left hc
  have h2 : (c * d < 2 * (c * (n % d))) ↔ (d < 2 * (n % d)) := by
    rw [Nat.mul_left_comm]; exact Nat.mul_lt_mul_left hc
  simp only [h1, h2]

theorem roundDiv_mono_same (n n' d : Nat) (h : n ≤ n') : roundDiv n d ≤ roundDiv n' d := by
  have hq : n / d ≤ n' / d := Nat.div_le_div_right h
  rcases Nat.lt_or_ge (n / d) (n' / d) with hlt | hge
  · have := roundDiv_eq n d
    have := roundDiv_eq n' d
    omega
  · have heq : n / d = n' / d := le_antisymm hq hge
    have e1 := Nat.div_add_mod n d
    have e2 := Nat.div_add_mod n' d
    rw [heq] at e1
    have hm : n % d ≤ n' % d := by omega
    unfold roundDiv
    rw [heq]
    split_ifs <;> omega

theorem roundDiv_mono (n d n' d' : Nat) (hd : 0 < d) (hd' : 0 < d') (h : n * d' ≤ n' * d) :
    roundDiv n d ≤ roundDiv n' d' := by
  rw [← roundDiv_mul_left n d d' hd', ← roundDiv_mul_left n' d' d hd, Nat.mul_comm d d']
  exact roundDiv_mono_same _ _ _ (by rw [Nat.mul_comm d' n, Nat.mul_comm d n']; exact h)

theorem roundDiv_one (n : Nat) : roundDiv n 1 = n := by
  unfold roundDiv; simp [Nat.mod_one]

theorem roundDiv_exact (q d : Nat) (hd : 0 < d) : roundDiv (q * d) d = q := by
  unfold roundDiv; simp [hd]

/-- the exponent -/
def rk (frac num den : Nat) : Nat := Nat.log2 (num / den) - frac

theorem roundMag_bounds (frac num den : Nat) (hd : 0 < den) :
    roundDiv num (den * 2 ^ rk frac num den) ≤ 2 ^ (frac + 1) ∧
    (0 < rk frac num den → 2 ^ frac ≤ roundDiv num (den * 2 ^ rk frac num den)) := by
  set k := rk frac num den with hk
  have hD : 0 < den * 2 ^ k := Nat.mul_pos hd (by positivity)
  constructor
  · have h1 : num / den < 2 ^ (frac + 1 + k) := by
      rcases Nat.eq_zero_or_pos (num / den) with h0 | h0
      · rw [h0]; positivity
      · refine lt_of_lt_of_le (Nat.lt_log2_self) (Nat.pow_le_pow_right (by norm_num) ?_)
        simp only [hk, rk]; omega
    have h2 : num < 2 ^ (frac + 1) * (den * 2 ^ k) := by
      have := (Nat.div_lt_iff_lt_mul hd).1 h1
      calc num < 2 ^ (frac + 1 + k) * den := this
        _ = _ := by rw [pow_add]; ring
    calc roundDiv num (den * 2 ^ k) ≤ roundDiv (2 ^ (frac + 1) * (den * 2 ^ k)) (den * 2 ^ k) :=
          roundDiv_mono_same _ _ _ h2.le
      _ = 2 ^ (frac + 1) := roundDiv_exact _ _ hD
  · intro hpos
    have hl : frac + k = Nat.log2 (num / den) := by simp only [hk, rk] at hpos ⊢; omega
    have hne : num / den ≠ 0 := by
      intro h0; rw [h0] at hl; simp at hl; omega
    have h1 : 2 ^ (frac + k) ≤ num / den := by rw [hl]; exact Nat.log2_self_le hne
    have h2 : 2 ^ frac * (den * 2 ^ k) ≤ num := by
      have := (Nat.le_div_iff_mul_le hd).1 h1
      calc _ = 2 ^ (frac + k) * den := by rw [pow_add]; ring
        _ ≤ num := this
    calc 2 ^ frac = roundDiv (2 ^ frac * (den * 2 ^ k)) (den * 2 ^ k) := (roundDiv_exact _ _ hD).symm
      _ ≤ _ := roundDiv_mono_same _ _ _ h2

theorem roundMag_mono (frac n d n' d' : Nat) (hd : 0 < d) (hd' : 0 < d') (h : n * d' ≤ n' * d) :
    roundMag frac n d ≤ roundMag frac n' d' := by
  have b1 := roundMag_bounds frac n d hd
  have b2 := roundMag_bounds frac n' d' hd'
  have hq : n / d ≤ n' / d' := by
    rw [Nat.le_div_iff_mul_le hd']
    have : n / d * d' * d ≤ n' * d := by
      calc n / d * d' * d = (n / d * d) * d' := by ring
        _ ≤ n * d' := Nat.mul_le_mul_right _ (Nat.div_mul_le_self n d)
        _ ≤ _ := h
    exact Nat.le_of_mul_le_mul_right this hd
  have hk : rk frac n d ≤ rk frac n' d' := by
    unfold rk
    exact Nat.sub_le_sub_right (by
      rcases Nat.eq_zero_or_pos (n/d) with h0 | h0
      · rw [h0]; simp
      · rw [Nat.log2_eq_log_two, Nat.log2_eq_log_two]; exact Nat.log_mono_right hq) _
  show rk frac n d * 2 ^ frac + roundDiv n (d * 2 ^ rk frac n d) ≤ rk frac n' d' * 2 ^ frac + roundDiv n' (d' * 2 ^ rk frac n' d')
  rcases Nat.lt_or_ge (rk frac n d) (rk frac n' d') with hlt | hge
  · have := b2.2 (by omega)
    have h3 : rk frac n d * 2 ^ frac + 2 ^ (frac + 1) ≤ rk frac n' d' * 2 ^ frac + 2 ^ frac := by
      rw [pow_succ]
      calc _ = (rk frac n d + 1) * 2 ^ frac + 2 ^ frac := by ring
        _ ≤ _ := Nat.add_le_add_right (Nat.mul_le_mul_right _ hlt) _
    omega
  · have heq := le_antisymm hk hge
    rw [heq]
    apply Nat.add_le_add_left
    apply roundDiv_mono
    · exact Nat.mul_pos hd (by positivity)
    · exact Nat.mul_pos hd' (by positivity)
    · calc n * (d' * 2 ^ rk frac n' d') = (n * d') * 2 ^ rk frac n' d' := by ring
        _ ≤ (n' * d) * 2 ^ rk frac n' d' := Nat.mul_le_mul_right _ h
        _ = _ := by ring

theorem roundMag_exact (frac m : Nat) : roundMag frac (magUnits frac m) 1 = m := by
  have hp : 0 < 2 ^ frac := by positivity
  have hm := Nat.div_add_mod m (2 ^ frac)
  have hlt := Nat.mod_lt m hp
  unfold magUnits
  split_ifs with h0
  · rw [h0] at hm
    have : roundMag frac (m % 2 ^ frac) 1 = m % 2 ^ frac := by
      unfold roundMag
      have hlog : Nat.log2 (m % 2 ^ frac / 1) - frac = 0 := by
        rw [Nat.div_one]
        rcases Nat.eq_zero_or_pos (m % 2 ^ frac) with h | h
        · rw [h]; simp
        · have := (Nat.log2_lt (by omega)).2 hlt
          omega
      rw [hlog]; simp [roundDiv_one]
    rw [this]; omega
  · set e := m / 2 ^ frac with he
    set f := m % 2 ^ frac with hf
    have hlog : Nat.log2 ((2 ^ frac + f) * 2 ^ (e - 1) / 1) = frac + (e - 1) := by
      rw [Nat.div_one, Nat.log2_eq_iff (by positivity)]
      constructor
      · rw [pow_add]; exact Nat.mul_le_mul_right _ (by omega)
      · have : 2 ^ (frac + (e - 1) + 1) = 2 ^ (frac + 1) * 2 ^ (e - 1) := by rw [← pow_add]; congr 1; omega
        rw [this]
        exact Nat.mul_lt_mul_of_pos_right (by rw [pow_succ]; omega) (by positivity)
    unfold roundMag
    simp only [hlog]
    rw [show frac + (e - 1) - frac = e - 1 by omega, one_mul, roundDiv_exact _ _ (by positivity)]
    have : e = (e - 1) + 1 := (Nat.succ_pred_eq_of_pos (Nat.pos_of_ne_zero h0)).symm
    have h2 : 2 ^ frac * e = (e - 1) * 2 ^ frac + 2 ^ frac := by
      conv_lhs => rw [this]
      ring
    omega

theorem magUnits_strictMono (frac m m' : Nat) (h : m < m') : magUnits frac m < magUnits frac m' := by
  by_contra hc
  have := roundMag_mono frac (magUnits frac m') 1 (magUnits frac m) 1 (by norm_num) (by norm_num) (by omega)
  rw [roundMag_exact, roundMag_exact] at this
  omega



/-! ### Sign and magnitude of a packed pattern -/

theorem f64Neg?_eq (x : F64) : f64Neg? x = decide (2 ^ 63 ≤ x.toNat) := by
  simp [f64Neg?, BitVec.msb_eq_decide]

theorem f64Mag_lt (x : F64) : f64Mag x < 2 ^ 63 := Nat.mod_lt _ (by norm_num)

theorem f64Pack_toNat (neg : Bool) (m : Nat) (h : m < 2 ^ 63) :
    (f64Pack neg m).toNat = (if neg then 2 ^ 63 else 0) + m := by
  unfold f64Pack; rw [BitVec.toNat_ofNat]; apply Nat.mod_eq_of_lt; split_ifs <;> omega

theorem f64Neg?_pack (neg : Bool) (m : Nat) (h : m < 2 ^ 63) : f64Neg? (f64Pack neg m) = neg := by
  rw [f64Neg?_eq, f64Pack_toNat neg m h]; cases neg <;> simp <;> omega

theorem f64Mag_pack (neg : Bool) (m : Nat) (h : m < 2 ^ 63) : f64Mag (f64Pack neg m) = m := by
  unfold f64Mag; rw [f64Pack_toNat neg m h]; cases neg <;> simp <;> omega

theorem f64_eq_pack (x : F64) : x = f64Pack (f64Neg? x) (f64Mag x) := by
  apply BitVec.eq_of_toNat_eq
  rw [f64Pack_toNat _ _ (f64Mag_lt x), f64Neg?_eq]; unfold f64Mag
  have := x.isLt
  simp only [decide_eq_true_eq]
  split_ifs <;> omega

theorem f64_ext {x y : F64} (hn : f64Neg? x = f64Neg? y) (hm : f64Mag x = f64Mag y) : x = y := by
  rw [f64_eq_pack x, f64_eq_pack y, hn, hm]

theorem infMag_lt : infMag64 < 2 ^ 63 := by decide

theorem minInf_lt (n : Nat) : min infMag64 n < 2 ^ 63 := lt_of_le_of_lt (min_le_left _ _) infMag_lt

@[simp] theorem f64Mag_round (neg : Bool) (n d : Nat) :
    f64Mag (f64Round neg n d) = min infMag64 (roundMag 52 n d) := f64Mag_pack _ _ (minInf_lt _)

@[simp] theorem f64Neg?_round (neg : Bool) (n d : Nat) : f64Neg? (f64Round neg n d) = neg :=
  f64Neg?_pack _ _ (minInf_lt _)

@[simp] theorem f64IsNaN_round (neg : Bool) (n d : Nat) : f64IsNaN (f64Round neg n d) = false := by
  simp [f64IsNaN]

theorem f64Key_round (neg : Bool) (n d : Nat) : f64Key (f64Round neg n d) =
    if neg then -((min infMag64 (roundMag 52 n d) : Nat) : Int) else (min infMag64 (roundMag 52 n d) : Nat) := by
  unfold f64Key; simp

theorem f64Neg?_neg (x : F64) : f64Neg? (f64Neg x) = !f64Neg? x := by
  unfold f64Neg? f64Neg
  rw [BitVec.msb_xor, show (0x8000000000000000#64).msb = true by decide]; simp

theorem f64Mag_neg (x : F64) : f64Mag (f64Neg x) = f64Mag x := by
  unfold f64Mag f64Neg
  have h : ∀ y : F64, y.toNat % 2 ^ 63 = (y.setWidth 63).toNat := fun y => by simp
  rw [h, h, BitVec.setWidth_xor, show BitVec.setWidth 63 (0x8000000000000000#64) = 0 by decide]; simp


/-! ### The order of values -/

theorem magUnits_le_iff (frac m m' : Nat) : magUnits frac m ≤ magUnits frac m' ↔ m ≤ m' := by
  constructor
  · intro h; by_contra hc; have := magUnits_strictMono frac m' m (by omega); omega
  · intro h; rcases Nat.lt_or_ge m m' with h1 | h1
    · exact (magUnits_strictMono frac _ _ h1).le
    · rw [le_antisymm h h1]

@[simp] theorem magUnits_zero (frac : Nat) : magUnits frac 0 = 0 := by simp [magUnits]

theorem magUnits_eq_zero_iff (frac m : Nat) : magUnits frac m = 0 ↔ m = 0 := by
  constructor
  · intro h; have := (magUnits_le_iff frac m 0).1 (by simp [h]); omega
  · rintro rfl; simp

theorem roundMag_le {frac n d m : Nat} (hd : 0 < d) (h : n ≤ magUnits frac m * d) : roundMag frac n d ≤ m := by
  conv_rhs => rw [← roundMag_exact frac m]
  exact roundMag_mono _ _ _ _ _ hd (by norm_num) (by simpa using h)

theorem le_roundMag {frac n d m : Nat} (hd : 0 < d) (h : magUnits frac m * d ≤ n) : m ≤ roundMag frac n d := by
  conv_lhs => rw [← roundMag_exact frac m]
  exact roundMag_mono _ _ _ _ _ (by norm_num) hd (by simpa using h)

theorem f64Units_natAbs (x : F64) : (f64Units x).natAbs = magUnits 52 (f64Mag x) := by
  unfold f64Units; split_ifs <;> simp

theorem f64Units_le_iff (x y : F64) : f64Units x ≤ f64Units y ↔ f64Key x ≤ f64Key y := by
  have h1 := magUnits_le_iff 52 (f64Mag x) (f64Mag y)
  have h2 := magUnits_le_iff 52 (f64Mag y) (f64Mag x)
  have h3 := magUnits_eq_zero_iff 52 (f64Mag x)
  have h4 := magUnits_eq_zero_iff 52 (f64Mag y)
  unfold f64Units f64Key
  split_ifs <;> omega

theorem f64Units_eq_zero_iff (x : F64) : f64Units x = 0 ↔ f64Key x = 0 := by
  have h3 := magUnits_eq_zero_iff 52 (f64Mag x)
  unfold f64Units f64Key
  split_ifs <;> omega

theorem f64Units_neg (x : F64) : f64Units (f64Neg x) = - f64Units x := by
  unfold f64Units; rw [f64Neg?_neg, f64Mag_neg]; cases f64Neg? x <;> simp

theorem f64Key_neg (x : F64) : f64Key (f64Neg x) = - f64Key x := by
  unfold f64Key; rw [f64Neg?_neg, f64Mag_neg]; cases f64Neg? x <;> simp

theorem f64Le_iff (a b : F64) : f64Le a b = true ↔ f64IsNaN a = false ∧ f64IsNaN b = false ∧ f64Key a ≤ f64Key b := by
  simp [f64Le, and_assoc]
theorem f64Lt_iff (a b : F64) : f64Lt a b = true ↔ f64IsNaN a = false ∧ f64IsNaN b = false ∧ f64Key a < f64Key b := by
  simp [f64Lt, and_assoc]

/-- rounding an integer number of units, as a key -/
def roundKey (u : Int) : Int :=
  if u < 0 then -((min infMag64 (roundMag 52 u.natAbs 1) : Nat) : Int) else (min infMag64 (roundMag 52 u.natAbs 1) : Nat)

theorem roundMag_one_mono {frac n n' : Nat} (h : n ≤ n') : roundMag frac n 1 ≤ roundMag frac n' 1 :=
  roundMag_mono _ _ _ _ _ (by norm_num) (by norm_num) (by simpa using h)

theorem roundKey_mono {u v : Int} (h : u ≤ v) : roundKey u ≤ roundKey v := by
  unfold roundKey
  split_ifs with h1 h2 h2
  · have := roundMag_one_mono (frac := 52) (show v.natAbs ≤ u.natAbs by omega)
    have := min_le_min_left infMag64 this
    omega
  · omega
  · omega
  · have := roundMag_one_mono (frac := 52) (show u.natAbs ≤ v.natAbs by omega)
    have := min_le_min_left infMag64 this
    omega

theorem roundKey_units (x : F64) (hx : f64IsNaN x = false) : roundKey (f64Units x) = f64Key x := by
  have hm : f64Mag x ≤ infMag64 := by simpa [f64IsNaN] using hx
  have h3 := magUnits_eq_zero_iff 52 (f64Mag x)
  unfold roundKey
  rw [f64Units_natAbs, roundMag_exact, min_eq_right hm]
  unfold f64Units f64Key
  split_ifs <;> omega

theorem f64IsFinite_notNaN {x : F64} (h : f64IsFinite x = true) : f64IsNaN x = false := by
  simp [f64IsFinite] at h; simp [f64IsNaN]; omega
theorem f64IsFinite_notInf {x : F64} (h : f64IsFinite x = true) : f64IsInf x = false := by
  simp [f64IsFinite] at h; simp [f64IsInf]; omega

theorem f64Add_finite (op : FloatOp) {a b : F64} (ha : f64IsFinite a = true) (hb : f64IsFinite b = true) :
    f64IsNaN (f64AddAs op a b) = false ∧ f64Key (f64AddAs op a b) = roundKey (f64Units a + f64Units b) := by
  unfold f64AddAs
  simp only [f64IsFinite_notNaN ha, f64IsFinite_notNaN hb, f64IsFinite_notInf ha, f64IsFinite_notInf hb, Bool.or_self, Bool.false_eq_true, if_false]
  split_ifs with h
  · rw [h]
    constructor
    · simp [f64IsNaN, f64Mag_pack]
    · unfold f64Key; rw [f64Mag_pack _ _ (by norm_num)]
      simp [roundKey, roundMag]; decide
  · constructor
    · simp
    · rw [f64Key_round]; unfold roundKey; simp

/-! ### Operators on non-negative values -/

theorem f64Key_zero : f64Key f64Zero = 0 := by decide
theorem f64Key_one : f64Key f64One = 0x3FF0000000000000 := by decide
theorem f64IsNaN_zero : f64IsNaN f64Zero = false := by decide
theorem f64IsNaN_one : f64IsNaN f64One = false := by decide
theorem f64IsFinite_one : f64IsFinite f64One = true := by decide
theorem f64Units_zero : f64Units f64Zero = 0 := by rw [f64Units_eq_zero_iff]; decide
theorem f64Mag_one : f64Mag f64One = 0x3FF0000000000000 := by decide
theorem f64Neg?_one : f64Neg? f64One = false := by decide
theorem magUnits_one : magUnits 52 0x3FF0000000000000 = 2 ^ 1074 := by
  unfold magUnits
  rw [if_neg (by norm_num), show (2 ^ 52 + 0x3FF0000000000000 % 2 ^ 52 : Nat) = 2 ^ 52 by norm_num,
    show (0x3FF0000000000000 / 2 ^ 52 - 1 : Nat) = 1022 by norm_num, ← pow_add]
theorem f64Units_one : f64Units f64One = 2 ^ 1074 := by
  unfold f64Units; rw [f64Neg?_one, f64Mag_one, magUnits_one]; push_cast; rfl

/-- 0 ≤ x, hence x is no NaN -/
theorem nonneg_iff (x : F64) : f64Le f64Zero x = true ↔ f64IsNaN x = false ∧ 0 ≤ f64Key x := by
  rw [f64Le_iff, f64Key_zero]; simp [f64IsNaN_zero]

theorem units_nonneg {x : F64} (h : 0 ≤ f64Key x) : 0 ≤ f64Units x := by
  rw [← f64Units_zero, f64Units_le_iff, f64Key_zero]; exact h

theorem key_nonneg_neg {x : F64} (h : 0 ≤ f64Key x) (hn : f64Neg? x = true) : f64Mag x = 0 := by
  unfold f64Key at h; rw [hn] at h; simp at h; omega

theorem key_eq_mag {x : F64} (h : 0 ≤ f64Key x) : f64Key x = f64Mag x := by
  cases hn : f64Neg? x
  · unfold f64Key; rw [hn]; simp
  · have := key_nonneg_neg h hn; unfold f64Key; rw [this]; simp

theorem inf_or_finite {x : F64} (h : f64IsNaN x = false) : f64IsInf x = true ∨ f64IsFinite x = true := by
  simp [f64IsNaN, f64IsInf, f64IsFinite] at *; omega

theorem key_le_inf {x : F64} (h : f64IsNaN x = false) : f64Key x ≤ infMag64 := by
  have : f64Mag x ≤ infMag64 := by simpa [f64IsNaN] using h
  unfold f64Key; split_ifs <;> omega

theorem key_inf {x : F64} (h : f64IsInf x = true) (h0 : 0 ≤ f64Key x) : f64Key x = infMag64 := by
  have hm : f64Mag x = infMag64 := by simpa [f64IsInf] using h
  rw [key_eq_mag h0, hm]

theorem inf_nonneg_sign {x : F64} (h : f64IsInf x = true) (h0 : 0 ≤ f64Key x) : f64Neg? x = false := by
  have hm : f64Mag x = infMag64 := by simpa [f64IsInf] using h
  cases hn : f64Neg? x
  · rfl
  · have := key_nonneg_neg h0 hn; rw [hm] at this; exact absurd this (by decide)

theorem inf_notNaN {x : F64} (h : f64IsInf x = true) : f64IsNaN x = false := by
  simp [f64IsNaN, f64IsInf] at *; omega

/-- The sum of two non-negative values is no NaN and not below either of them. -/
theorem f64Add_nonneg {a b : F64} (ha : f64Le f64Zero a = true) (hb : f64Le f64Zero b = true) :
    f64Le a (f64Add a b) = true ∧ f64Le b (f64Add a b) = true := by
  rw [nonneg_iff] at ha hb
  obtain ⟨na, ka⟩ := ha; obtain ⟨nb, kb⟩ := hb
  rcases inf_or_finite na with ia | fa
  · have sa := inf_nonneg_sign ia ka
    have : f64Add a b = a := by
      unfold f64Add f64AddAs; rw [na, nb, ia]; simp
      intro ib; rw [sa, inf_nonneg_sign ib kb]; simp
    rw [this, f64Le_iff, f64Le_iff]
    have := key_le_inf nb; have := key_inf ia ka
    exact ⟨⟨na, na, le_rfl⟩, nb, na, by omega⟩
  rcases inf_or_finite nb with ib | fb
  · have : f64Add a b = b := by
      unfold f64Add f64AddAs; rw [na, nb, ib, f64IsFinite_notInf fa]; simp
    rw [this, f64Le_iff, f64Le_iff]
    have := key_le_inf na; have := key_inf ib kb
    exact ⟨⟨na, nb, by omega⟩, nb, nb, le_rfl⟩
  · obtain ⟨hn, hk⟩ := f64Add_finite .add fa fb
    have ua := units_nonneg ka; have ub := units_nonneg kb
    unfold f64Add
    rw [f64Le_iff, f64Le_iff, hn, hk, ← roundKey_units a na, ← roundKey_units b nb]
    exact ⟨⟨na, rfl, roundKey_mono (by omega)⟩, nb, rfl, roundKey_mono (by omega)⟩

theorem nonneg_trans {a b : F64} (ha : f64Le f64Zero a = true) (h : f64Le a b = true) : f64Le f64Zero b = true := by
  rw [f64Le_iff] at *; exact ⟨ha.1, h.2.1, ha.2.2.trans h.2.2⟩

theorem f64Mul_nonneg {a b : F64} (ha : f64Le f64Zero a = true) (hb : f64Le f64Zero b = true)
    (fa : f64IsFinite a = true) (fb : f64IsFinite b = true) :
    f64IsNaN (f64Mul a b) = false ∧
    f64Key (f64Mul a b) = (min infMag64 (roundMag 52 ((f64Units a).natAbs * (f64Units b).natAbs) (2 ^ unitExp64)) : Nat) := by
  rw [nonneg_iff] at ha hb
  obtain ⟨na, ka⟩ := ha; obtain ⟨nb, kb⟩ := hb
  unfold f64Mul
  simp only [na, nb, f64IsFinite_notInf fa, f64IsFinite_notInf fb, Bool.or_self, Bool.false_eq_true, if_false, f64IsNaN_round, true_and, f64Key_round]
  split_ifs with h
  · have : (f64Units a).natAbs * (f64Units b).natAbs = 0 := by
      rw [f64Units_natAbs, f64Units_natAbs]
      cases hsa : f64Neg? a
      · have hsb : f64Neg? b = true := by simpa [hsa] using h
        rw [key_nonneg_neg kb hsb]; simp
      · rw [key_nonneg_neg ka hsa]; simp
    rw [this]; simp [roundMag, roundDiv]
  · rfl

theorem f64Div_nonneg {a b : F64} (ha : f64Le f64Zero a = true) (hb : f64Lt f64Zero b = true)
    (fa : f64IsFinite a = true) (fb : f64IsFinite b = true) :
    f64IsNaN (f64Div a b) = false ∧
    f64Key (f64Div a b) = (min infMag64 (roundMag 52 ((f64Units a).natAbs * 2 ^ unitExp64) (f64Units b).natAbs) : Nat) := by
  rw [nonneg_iff] at ha
  rw [f64Lt_iff, f64Key_zero] at hb
  obtain ⟨na, ka⟩ := ha; obtain ⟨_, nb, kb⟩ := hb
  have zb : f64IsZero b = false := by
    rw [key_eq_mag kb.le] at kb; simp [f64IsZero]; omega
  have sb : f64Neg? b = false := by
    cases hs : f64Neg? b
    · rfl
    · have := key_nonneg_neg kb.le hs; rw [key_eq_mag kb.le, this] at kb; simp at kb
  unfold f64Div
  simp only [na, nb, zb, sb, f64IsFinite_notInf fa, f64IsFinite_notInf fb, Bool.or_self, Bool.false_eq_true, if_false, f64IsNaN_round, true_and, f64Key_round]
  split_ifs with h
  · have : (f64Units a).natAbs * 2 ^ unitExp64 = 0 := by
      rw [f64Units_natAbs, key_nonneg_neg ka (by simpa using h)]; simp
    rw [this]; simp [roundMag, roundDiv]
  · rfl


theorem key_nonneg_of_sign {x : F64} (h : f64Neg? x = false) : 0 ≤ f64Key x := by
  unfold f64Key; rw [h]; simp

theorem inUnit_iff (x : F64) : inUnit x = true ↔
    f64Neg? x = false ∧ f64IsNaN x = false ∧ f64Key x ≤ 0x3FF0000000000000 := by
  simp only [inUnit, Bool.and_eq_true, f64Le_iff, f64Key_one, f64IsNaN_one, Bool.not_eq_true']; tauto

theorem finite_of_key_le {x : F64} (h0 : 0 ≤ f64Key x) (h : f64Key x ≤ 0x3FF0000000000000) :
    f64IsFinite x = true := by
  rw [key_eq_mag h0] at h
  have : f64Mag x < infMag64 :=
    lt_of_le_of_lt (by exact_mod_cast h) (show 0x3FF0000000000000 < infMag64 by decide)
  simpa [f64IsFinite] using this

theorem inUnit_key {x : F64} (h : inUnit x = true) : 0 ≤ f64Key x :=
  key_nonneg_of_sign ((inUnit_iff x).1 h).1

theorem inUnit_finite {x : F64} (h : inUnit x = true) : f64IsFinite x = true :=
  finite_of_key_le (inUnit_key h) ((inUnit_iff x).1 h).2.2

theorem inUnit_nonneg {x : F64} (h : inUnit x = true) : f64Le f64Zero x = true :=
  (nonneg_iff x).2 ⟨((inUnit_iff x).1 h).2.1, inUnit_key h⟩

theorem units_natAbs_le_iff {x y : F64} (hx : 0 ≤ f64Key x) (hy : 0 ≤ f64Key y) :
    (f64Units x).natAbs ≤ (f64Units y).natAbs ↔ f64Key x ≤ f64Key y := by
  rw [← f64Units_le_iff]; have := units_nonneg hx; have := units_nonneg hy; omega

/-- Between zero and one, either zero included. -/
def unit0 (x : F64) : Prop := f64Le f64Zero x = true ∧ f64Le x f64One = true

theorem unit0_iff (x : F64) : unit0 x ↔ f64IsNaN x = false ∧ 0 ≤ f64Key x ∧ f64Key x ≤ 0x3FF0000000000000 := by
  rw [unit0, nonneg_iff, f64Le_iff, f64Key_one]
  constructor
  · rintro ⟨⟨h1, h2⟩, -, -, h3⟩; exact ⟨h1, h2, h3⟩
  · rintro ⟨h1, h2, h3⟩; exact ⟨⟨h1, h2⟩, h1, f64IsNaN_one, h3⟩

theorem unit0_of_inUnit {x : F64} (h : inUnit x = true) : unit0 x :=
  (unit0_iff x).2 ⟨((inUnit_iff x).1 h).2.1, inUnit_key h, ((inUnit_iff x).1 h).2.2⟩

theorem inUnit_of_unit0 {x : F64} (h : unit0 x) (hs : f64Neg? x = false) : inUnit x = true :=
  (inUnit_iff x).2 ⟨hs, ((unit0_iff x).1 h).1, ((unit0_iff x).1 h).2.2⟩

theorem unit0_finite {x : F64} (h : unit0 x) : f64IsFinite x = true :=
  finite_of_key_le ((unit0_iff x).1 h).2.1 ((unit0_iff x).1 h).2.2

theorem unit0_units {x : F64} (h : unit0 x) : (f64Units x).natAbs ≤ 2 ^ 1074 := by
  rw [unit0_iff] at h
  have := (units_natAbs_le_iff h.2.1 (y := f64One) (by decide)).2 (by rw [f64Key_one]; exact h.2.2)
  rw [f64Units_one] at this; simpa using this

theorem unit0_of_min {x : F64} {n d : Nat} (hn : f64IsNaN x = false)
    (hk : f64Key x = (min infMag64 (roundMag 52 n d) : Nat)) (hd : 0 < d) (h : n ≤ 2 ^ 1074 * d) :
    unit0 x := by
  rw [unit0_iff]
  have h1 := roundMag_le (frac := 52) (n := n) (m := 0x3FF0000000000000) hd (by rw [magUnits_one]; exact h)
  refine ⟨hn, ?_, ?_⟩ <;> rw [hk]
  · exact Int.natCast_nonneg _
  · exact_mod_cast (min_le_right infMag64 (roundMag 52 n d)).trans h1

theorem unit_pos : 0 < 2 ^ unitExp64 := by positivity

/-- A product of two finite values has the sign the operands give. -/
theorem f64Neg?_mul {a b : F64} (fa : f64IsFinite a = true) (fb : f64IsFinite b = true) :
    f64Neg? (f64Mul a b) = (f64Neg? a != f64Neg? b) := by
  unfold f64Mul
  simp [f64IsFinite_notNaN fa, f64IsFinite_notNaN fb, f64IsFinite_notInf fa, f64IsFinite_notInf fb]

/-- [0, 1] is closed under products. -/
theorem unit0_mul {a b : F64} (ha : unit0 a) (hb : unit0 b) : unit0 (f64Mul a b) := by
  obtain ⟨hn, hk⟩ := f64Mul_nonneg ha.1 hb.1 (unit0_finite ha) (unit0_finite hb)
  exact unit0_of_min hn hk unit_pos (Nat.mul_le_mul (unit0_units ha) (unit0_units hb))

theorem inUnit_mul {a b : F64} (ha : inUnit a = true) (hb : inUnit b = true) :
    inUnit (f64Mul a b) = true := by
  refine inUnit_of_unit0 (unit0_mul (unit0_of_inUnit ha) (unit0_of_inUnit hb)) ?_
  rw [f64Neg?_mul (inUnit_finite ha) (inUnit_finite hb), ((inUnit_iff a).1 ha).1, ((inUnit_iff b).1 hb).1]
  rfl

theorem units_pos {b : F64} (hb : f64Lt f64Zero b = true) : 0 < (f64Units b).natAbs := by
  rw [f64Lt_iff, f64Key_zero] at hb
  have h1 := units_nonneg hb.2.2.le
  have h2 := f64Units_eq_zero_iff b
  omega

theorem pos_sign {b : F64} (hb : f64Lt f64Zero b = true) : f64Neg? b = false := by
  rw [f64Lt_iff, f64Key_zero] at hb
  cases hs : f64Neg? b
  · rfl
  · have := key_nonneg_neg hb.2.2.le hs
    rw [key_eq_mag hb.2.2.le, this] at hb; simp at hb

theorem pos_not_zero {b : F64} (hb : f64Lt f64Zero b = true) : f64IsZero b = false := by
  rw [f64Lt_iff, f64Key_zero] at hb
  have h := hb.2.2
  rw [key_eq_mag hb.2.2.le] at h
  simp [f64IsZero]; omega

/-- A quotient of a finite value by a finite positive one has the sign of the first. -/
theorem f64Neg?_div {a b : F64} (fa : f64IsFinite a = true) (fb : f64IsFinite b = true)
    (hb : f64Lt f64Zero b = true) : f64Neg? (f64Div a b) = f64Neg? a := by
  unfold f64Div
  simp [f64IsFinite_notNaN fa, f64IsFinite_notNaN fb, f64IsFinite_notInf fa, f64IsFinite_notInf fb,
    pos_not_zero hb, pos_sign hb]

theorem finite_of_le {a b : F64} (ha : f64Le f64Zero a = true) (h : f64Le a b = true)
    (fb : f64IsFinite b = true) : f64IsFinite a = true := by
  rw [nonneg_iff] at ha
  have h2 := ((f64Le_iff _ _).1 h).2.2
  have hb := ha.2.trans h2
  rw [key_eq_mag ha.2, key_eq_mag hb] at h2
  simp only [f64IsFinite, decide_eq_true_eq] at *; omega

/-- The quotient of a value by a finite one not below it lies in [0, 1]. -/
theorem unit0_div {a b : F64} (ha : f64Le f64Zero a = true) (hb : f64Lt f64Zero b = true)
    (fb : f64IsFinite b = true) (hab : f64Le a b = true) : unit0 (f64Div a b) := by
  have fa := finite_of_le ha hab fb
  obtain ⟨hn, hk⟩ := f64Div_nonneg ha hb fa fb
  refine unit0_of_min hn hk (units_pos hb) ?_
  rw [Nat.mul_comm (_) (2 ^ unitExp64)]
  rw [nonneg_iff] at ha
  have h := ((f64Le_iff _ _).1 hab).2.2
  exact Nat.mul_le_mul_left _ ((units_natAbs_le_iff ha.2 (ha.2.trans h)).2 h)

theorem f64IsNaN_neg (x : F64) : f64IsNaN (f64Neg x) = f64IsNaN x := by
  unfold f64IsNaN; rw [f64Mag_neg]
theorem f64IsFinite_neg (x : F64) : f64IsFinite (f64Neg x) = f64IsFinite x := by
  unfold f64IsFinite; rw [f64Mag_neg]
theorem f64IsInf_neg (x : F64) : f64IsInf (f64Neg x) = f64IsInf x := by
  unfold f64IsInf; rw [f64Mag_neg]

theorem roundKey_zero : roundKey 0 = 0 := by
  have := roundKey_units _ f64IsNaN_zero
  rwa [f64Units_zero, f64Key_zero] at this
theorem roundKey_one : roundKey (2 ^ 1074) = 0x3FF0000000000000 := by
  rw [← f64Units_one, roundKey_units _ f64IsNaN_one, f64Key_one]

/-- A finite sum that is not below zero has sign bit 0 when one of the operands has. -/
theorem f64Neg?_add (op : FloatOp) {a b : F64} (fa : f64IsFinite a = true) (fb : f64IsFinite b = true)
    (h : 0 ≤ f64Units a + f64Units b) (hs : f64Neg? a = false ∨ f64Neg? b = false) :
    f64Neg? (f64AddAs op a b) = false := by
  unfold f64AddAs
  simp only [f64IsFinite_notNaN fa, f64IsFinite_notNaN fb, f64IsFinite_notInf fa, f64IsFinite_notInf fb,
    Bool.or_self, Bool.false_eq_true, if_false]
  split_ifs with h0
  · rw [f64Neg?_pack _ _ (by norm_num)]
    rcases hs with hs | hs <;> rw [hs] <;> simp
  · rw [f64Neg?_round]; simp; omega

/-- 1 - x stays in [+0.0, 1.0] for x in [0, 1]. -/
theorem inUnit_oneSub {x : F64} (hx : unit0 x) : inUnit (f64Sub f64One x) = true := by
  have fx : f64IsFinite (f64Neg x) = true := by rw [f64IsFinite_neg]; exact unit0_finite hx
  obtain ⟨hn, hk⟩ := f64Add_finite .sub f64IsFinite_one fx
  have h0 := units_nonneg ((unit0_iff x).1 hx).2.1
  have h3 : ((f64Units x).natAbs : Int) ≤ 2 ^ 1074 := by exact_mod_cast unit0_units hx
  rw [inUnit_iff]
  refine ⟨f64Neg?_add .sub f64IsFinite_one fx ?_ (.inl f64Neg?_one), hn, ?_⟩
  · rw [f64Units_neg, f64Units_one]
    generalize (2 : Int) ^ 1074 = U at *
    omega
  · unfold f64Sub
    rw [hk, f64Units_neg, f64Units_one, ← roundKey_one]; apply roundKey_mono
    generalize (2 : Int) ^ 1074 = U at *
    omega

/-- A value of [+0.0, 1.0] plus one of [0, 1]: no NaN, sign bit 0, not below the first. -/
theorem inUnit_add_unit0 {a b : F64} (ha : inUnit a = true) (hb : unit0 b) :
    f64Neg? (f64Add a b) = false ∧ f64IsNaN (f64Add a b) = false ∧ f64Le a (f64Add a b) = true := by
  have fa := inUnit_finite ha
  have fb := unit0_finite hb
  have ua := units_nonneg (inUnit_key ha)
  have ub := units_nonneg ((unit0_iff b).1 hb).2.1
  refine ⟨f64Neg?_add .add fa fb (by omega) (.inl ((inUnit_iff a).1 ha).1), (f64Add_finite .add fa fb).1, ?_⟩
  exact (f64Add_nonneg (inUnit_nonneg ha) hb.1).1

/-! ### Monotone operators, and exact corner cases -/

theorem f64Add_mono_finite (op : FloatOp) {a b a' b' : F64} (fa : f64IsFinite a = true) (fb : f64IsFinite b = true)
    (fa' : f64IsFinite a' = true) (fb' : f64IsFinite b' = true) (ha : f64Le a a' = true) (hb : f64Le b b' = true) :
    f64Le (f64AddAs op a b) (f64AddAs op a' b') = true := by
  obtain ⟨hn, hk⟩ := f64Add_finite op fa fb
  obtain ⟨hn', hk'⟩ := f64Add_finite op fa' fb'
  rw [f64Le_iff] at *
  refine ⟨hn, hn', ?_⟩
  rw [hk, hk']; apply roundKey_mono
  exact add_le_add ((f64Units_le_iff _ _).2 ha.2.2) ((f64Units_le_iff _ _).2 hb.2.2)

theorem f64Mul_mono {a b a' b' : F64} (na : f64Le f64Zero a = true) (nb : f64Le f64Zero b = true)
    (fa : f64IsFinite a = true) (fb : f64IsFinite b = true)
    (fa' : f64IsFinite a' = true) (fb' : f64IsFinite b' = true) (ha : f64Le a a' = true) (hb : f64Le b b' = true) :
    f64Le (f64Mul a b) (f64Mul a' b') = true := by
  have na' := nonneg_trans na ha
  have nb' := nonneg_trans nb hb
  obtain ⟨hn, hk⟩ := f64Mul_nonneg na nb fa fb
  obtain ⟨hn', hk'⟩ := f64Mul_nonneg na' nb' fa' fb'
  rw [nonneg_iff] at na nb na' nb'
  rw [f64Le_iff] at *
  refine ⟨hn, hn', ?_⟩
  rw [hk, hk']
  have := Nat.mul_le_mul ((units_natAbs_le_iff na.2 na'.2).2 ha.2.2) ((units_natAbs_le_iff nb.2 nb'.2).2 hb.2.2)
  exact_mod_cast min_le_min_left _ (roundMag_mono _ _ _ _ _ unit_pos unit_pos (Nat.mul_le_mul_right _ this))

theorem f64Div_mono {a a' b : F64} (na : f64Le f64Zero a = true) (hb : f64Lt f64Zero b = true)
    (fa : f64IsFinite a = true) (fa' : f64IsFinite a' = true) (fb : f64IsFinite b = true) (ha : f64Le a a' = true) :
    f64Le (f64Div a b) (f64Div a' b) = true := by
  have na' := nonneg_trans na ha
  obtain ⟨hn, hk⟩ := f64Div_nonneg na hb fa fb
  obtain ⟨hn', hk'⟩ := f64Div_nonneg na' hb fa' fb
  rw [nonneg_iff] at na na'
  rw [f64Le_iff] at *
  refine ⟨hn, hn', ?_⟩
  rw [hk, hk']
  have := (units_natAbs_le_iff na.2 na'.2).2 ha.2.2
  exact_mod_cast min_le_min_left _ (roundMag_mono _ _ _ _ _ (units_pos hb) (units_pos hb)
    (Nat.mul_le_mul_right _ (Nat.mul_le_mul_right _ this)))

theorem f64Neg_le {a b : F64} (h : f64Le a b = true) : f64Le (f64Neg b) (f64Neg a) = true := by
  rw [f64Le_iff] at *; rw [f64IsNaN_neg, f64IsNaN_neg, f64Key_neg, f64Key_neg]
  exact ⟨h.2.1, h.1, by omega⟩

theorem f64Le_refl {a : F64} (h : f64IsNaN a = false) : f64Le a a = true := by
  rw [f64Le_iff]; exact ⟨h, h, le_rfl⟩
theorem f64Le_trans {a b c : F64} (h : f64Le a b = true) (h' : f64Le b c = true) : f64Le a c = true := by
  rw [f64Le_iff] at *; exact ⟨h.1, h'.2.1, h.2.2.trans h'.2.2⟩

/-- x + 0 = x, bit for bit, when x is no NaN and not -0.0 -/
theorem f64Add_zero {x : F64} (hn : f64IsNaN x = false) (hz : x ≠ 0x8000000000000000#64) : f64Add x f64Zero = x := by
  have hz0 : f64IsInf f64Zero = false := by decide
  unfold f64Add f64AddAs
  rw [hn, f64IsNaN_zero, hz0]
  rcases inf_or_finite hn with hi | hf
  · simp [hi]
  · rw [f64IsFinite_notInf hf, f64Units_zero, add_zero]
    have e1 := f64Units_eq_zero_iff x
    have hm : f64Mag x ≤ infMag64 := by simpa [f64IsNaN] using hn
    simp only [Bool.or_self, Bool.false_eq_true, if_false]
    have hns : f64Neg? f64Zero = false := by decide
    split_ifs with h0
    · rw [hns, Bool.and_false]
      have hm0 : f64Mag x = 0 := by
        have := e1.1 h0; unfold f64Key at this; split_ifs at this <;> omega
      cases hs : f64Neg? x
      · rw [f64_eq_pack x, hs, hm0]
      · exfalso; apply hz; rw [f64_eq_pack x, hs, hm0]; decide
    · apply f64_ext
      · rw [f64Neg?_round]
        unfold f64Units
        have hne : f64Mag x ≠ 0 := by
          intro hm0; apply h0; rw [e1]; unfold f64Key; rw [hm0]; simp
        have := (magUnits_eq_zero_iff 52 (f64Mag x)).not.2 hne
        cases hs : f64Neg? x <;> simp <;> omega
      · rw [f64Mag_round, f64Units_natAbs, roundMag_exact, min_eq_right hm]

/-- x - x = +0.0 for a finite x -/
theorem f64Sub_self {x : F64} (hf : f64IsFinite x = true) : f64Sub x x = f64Zero := by
  unfold f64Sub f64AddAs
  rw [f64IsNaN_neg, f64IsInf_neg, f64IsFinite_notNaN hf, f64IsFinite_notInf hf, f64Units_neg, f64Neg?_neg]
  simp
  cases f64Neg? x <;> decide

end Sys2Proof.Machine
end

