-- ==== Sys2Proof/Laws/State.lean ====
section
/-! SUPPORT. One lemma per field per update of State, so that no later proof unfolds a record update. -/

namespace Sys2Proof.Machine

open Sys2Proof

/-! ### setErr -/

@[simp] theorem setErr_cfg (e : ErrCode) (s : State) : (setErr e s).cfg = s.cfg := rfl
@[simp] theorem setErr_params (e : ErrCode) (s : State) : (setErr e s).params = s.params := rfl
@[simp] theorem setErr_sr (e : ErrCode) (s : State) : (setErr e s).sr = s.sr := rfl
@[simp] theorem setErr_dt (e : ErrCode) (s : State) : (setErr e s).dt = s.dt := rfl
@[simp] theorem setErr_alpha (e : ErrCode) (s : State) : (setErr e s).alpha = s.alpha := rfl
@[simp] theorem setErr_clk (e : ErrCode) (s : State) : (setErr e s).clk = s.clk := rfl
@[simp] theorem setErr_nt (e : ErrCode) (s : State) : (setErr e s).nt = s.nt := rfl
@[simp] theorem setErr_env (e : ErrCode) (s : State) : (setErr e s).env = s.env := rfl
@[simp] theorem setErr_vl (e : ErrCode) (s : State) : (setErr e s).vl = s.vl := rfl
@[simp] theorem setErr_dcY (e : ErrCode) (s : State) : (setErr e s).dcY = s.dcY := rfl
@[simp] theorem setErr_status (e : ErrCode) (s : State) : (setErr e s).status = ⟨s.status.fault, e⟩ := rfl
@[simp] theorem setErr_snapRaw (e : ErrCode) (s : State) : (setErr e s).snapRaw = s.snapRaw := rfl
@[simp] theorem setErr_snap (e : ErrCode) (s : State) : (setErr e s).snap = s.snap := rfl
@[simp] theorem setErr_portR (e : ErrCode) (s : State) : (setErr e s).portR = s.portR := rfl
@[simp] theorem setErr_portC (e : ErrCode) (s : State) : (setErr e s).portC = s.portC := rfl
@[simp] theorem setErr_out (e : ErrCode) (s : State) : (setErr e s).out = s.out := rfl
@[simp] theorem setErr_cur (e : ErrCode) (s : State) : (setErr e s).cur = s.cur := rfl
@[simp] theorem setErr_sched (e : ErrCode) (s : State) : (setErr e s).sched = s.sched := rfl

/-! ### setFault -/

@[simp] theorem setFault_cfg (s : State) : (setFault s).cfg = s.cfg := rfl
@[simp] theorem setFault_params (s : State) : (setFault s).params = s.params := rfl
@[simp] theorem setFault_sr (s : State) : (setFault s).sr = s.sr := rfl
@[simp] theorem setFault_dt (s : State) : (setFault s).dt = s.dt := rfl
@[simp] theorem setFault_alpha (s : State) : (setFault s).alpha = s.alpha := rfl
@[simp] theorem setFault_clk (s : State) : (setFault s).clk = s.clk := rfl
@[simp] theorem setFault_nt (s : State) : (setFault s).nt = s.nt := rfl
@[simp] theorem setFault_env (s : State) : (setFault s).env = s.env := rfl
@[simp] theorem setFault_vl (s : State) : (setFault s).vl = s.vl := rfl
@[simp] theorem setFault_dcY (s : State) : (setFault s).dcY = s.dcY := rfl
@[simp] theorem setFault_status (s : State) : (setFault s).status = ⟨true, s.status.err⟩ := rfl
@[simp] theorem setFault_snapRaw (s : State) : (setFault s).snapRaw = s.snapRaw := rfl
@[simp] theorem setFault_snap (s : State) : (setFault s).snap = s.snap := rfl
@[simp] theorem setFault_portR (s : State) : (setFault s).portR = s.portR := rfl
@[simp] theorem setFault_portC (s : State) : (setFault s).portC = s.portC := rfl
@[simp] theorem setFault_out (s : State) : (setFault s).out = s.out := rfl
@[simp] theorem setFault_cur (s : State) : (setFault s).cur = s.cur := rfl
@[simp] theorem setFault_sched (s : State) : (setFault s).sched = s.sched := rfl

/-! ### setPort -/

@[simp] theorem setPort_cfg (s : State) (p : PortId) (q : Port) : (s.setPort p q).cfg = s.cfg := by cases p <;> rfl
@[simp] theorem setPort_params (s : State) (p : PortId) (q : Port) : (s.setPort p q).params = s.params := by cases p <;> rfl
@[simp] theorem setPort_sr (s : State) (p : PortId) (q : Port) : (s.setPort p q).sr = s.sr := by cases p <;> rfl
@[simp] theorem setPort_dt (s : State) (p : PortId) (q : Port) : (s.setPort p q).dt = s.dt := by cases p <;> rfl
@[simp] theorem setPort_alpha (s : State) (p : PortId) (q : Port) : (s.setPort p q).alpha = s.alpha := by cases p <;> rfl
@[simp] theorem setPort_clk (s : State) (p : PortId) (q : Port) : (s.setPort p q).clk = s.clk := by cases p <;> rfl
@[simp] theorem setPort_nt (s : State) (p : PortId) (q : Port) : (s.setPort p q).nt = s.nt := by cases p <;> rfl
@[simp] theorem setPort_env (s : State) (p : PortId) (q : Port) : (s.setPort p q).env = s.env := by cases p <;> rfl
@[simp] theorem setPort_vl (s : State) (p : PortId) (q : Port) : (s.setPort p q).vl = s.vl := by cases p <;> rfl
@[simp] theorem setPort_dcY (s : State) (p : PortId) (q : Port) : (s.setPort p q).dcY = s.dcY := by cases p <;> rfl
@[simp] theorem setPort_status (s : State) (p : PortId) (q : Port) : (s.setPort p q).status = s.status := by cases p <;> rfl
@[simp] theorem setPort_snapRaw (s : State) (p : PortId) (q : Port) : (s.setPort p q).snapRaw = s.snapRaw := by cases p <;> rfl
@[simp] theorem setPort_snap (s : State) (p : PortId) (q : Port) : (s.setPort p q).snap = s.snap := by cases p <;> rfl
@[simp] theorem setPort_out (s : State) (p : PortId) (q : Port) : (s.setPort p q).out = s.out := by cases p <;> rfl
@[simp] theorem setPort_cur (s : State) (p : PortId) (q : Port) : (s.setPort p q).cur = s.cur := by cases p <;> rfl
@[simp] theorem setPort_sched (s : State) (p : PortId) (q : Port) : (s.setPort p q).sched = s.sched := by cases p <;> rfl

/-! ### respond -/

@[simp] theorem respond_cfg (p : PortId) (ws : List Word) (s : State) : (respond p ws s).cfg = s.cfg := by cases p <;> rfl
@[simp] theorem respond_params (p : PortId) (ws : List Word) (s : State) : (respond p ws s).params = s.params := by cases p <;> rfl
@[simp] theorem respond_sr (p : PortId) (ws : List Word) (s : State) : (respond p ws s).sr = s.sr := by cases p <;> rfl
@[simp] theorem respond_dt (p : PortId) (ws : List Word) (s : State) : (respond p ws s).dt = s.dt := by cases p <;> rfl
@[simp] theorem respond_alpha (p : PortId) (ws : List Word) (s : State) : (respond p ws s).alpha = s.alpha := by cases p <;> rfl
@[simp] theorem respond_clk (p : PortId) (ws : List Word) (s : State) : (respond p ws s).clk = s.clk := by cases p <;> rfl
@[simp] theorem respond_nt (p : PortId) (ws : List Word) (s : State) : (respond p ws s).nt = s.nt := by cases p <;> rfl
@[simp] theorem respond_env (p : PortId) (ws : List Word) (s : State) : (respond p ws s).env = s.env := by cases p <;> rfl
@[simp] theorem respond_vl (p : PortId) (ws : List Word) (s : State) : (respond p ws s).vl = s.vl := by cases p <;> rfl
@[simp] theorem respond_dcY (p : PortId) (ws : List Word) (s : State) : (respond p ws s).dcY = s.dcY := by cases p <;> rfl
@[simp] theorem respond_status (p : PortId) (ws : List Word) (s : State) : (respond p ws s).status = s.status := by cases p <;> rfl
@[simp] theorem respond_snapRaw (p : PortId) (ws : List Word) (s : State) : (respond p ws s).snapRaw = s.snapRaw := by cases p <;> rfl
@[simp] theorem respond_snap (p : PortId) (ws : List Word) (s : State) : (respond p ws s).snap = s.snap := by cases p <;> rfl
@[simp] theorem respond_out (p : PortId) (ws : List Word) (s : State) : (respond p ws s).out = s.out := by cases p <;> rfl
@[simp] theorem respond_cur (p : PortId) (ws : List Word) (s : State) : (respond p ws s).cur = s.cur := by cases p <;> rfl
@[simp] theorem respond_sched (p : PortId) (ws : List Word) (s : State) : (respond p ws s).sched = s.sched := by cases p <;> rfl

/-! ### raiseError -/

@[simp] theorem raiseError_cfg (e : ErrCode) (n : Nat) (s : State) : (raiseError e n s).cfg = s.cfg := by simp [raiseError]
@[simp] theorem raiseError_params (e : ErrCode) (n : Nat) (s : State) : (raiseError e n s).params = s.params := by simp [raiseError]
@[simp] theorem raiseError_sr (e : ErrCode) (n : Nat) (s : State) : (raiseError e n s).sr = s.sr := by simp [raiseError]
@[simp] theorem raiseError_dt (e : ErrCode) (n : Nat) (s : State) : (raiseError e n s).dt = s.dt := by simp [raiseError]
@[simp] theorem raiseError_alpha (e : ErrCode) (n : Nat) (s : State) : (raiseError e n s).alpha = s.alpha := by simp [raiseError]
@[simp] theorem raiseError_clk (e : ErrCode) (n : Nat) (s : State) : (raiseError e n s).clk = s.clk := by simp [raiseError]
@[simp] theorem raiseError_nt (e : ErrCode) (n : Nat) (s : State) : (raiseError e n s).nt = s.nt := by simp [raiseError]
@[simp] theorem raiseError_env (e : ErrCode) (n : Nat) (s : State) : (raiseError e n s).env = s.env := by simp [raiseError]
@[simp] theorem raiseError_vl (e : ErrCode) (n : Nat) (s : State) : (raiseError e n s).vl = s.vl := by simp [raiseError]
@[simp] theorem raiseError_dcY (e : ErrCode) (n : Nat) (s : State) : (raiseError e n s).dcY = s.dcY := by simp [raiseError]
@[simp] theorem raiseError_status (e : ErrCode) (n : Nat) (s : State) : (raiseError e n s).status = ⟨s.status.fault, e⟩ := by simp [raiseError]
@[simp] theorem raiseError_snapRaw (e : ErrCode) (n : Nat) (s : State) : (raiseError e n s).snapRaw = s.snapRaw := by simp [raiseError]
@[simp] theorem raiseError_snap (e : ErrCode) (n : Nat) (s : State) : (raiseError e n s).snap = s.snap := by simp [raiseError]
@[simp] theorem raiseError_out (e : ErrCode) (n : Nat) (s : State) : (raiseError e n s).out = s.out := by simp [raiseError]
@[simp] theorem raiseError_cur (e : ErrCode) (n : Nat) (s : State) : (raiseError e n s).cur = s.cur := by simp [raiseError]
@[simp] theorem raiseError_sched (e : ErrCode) (n : Nat) (s : State) : (raiseError e n s).sched = s.sched := by simp [raiseError]

/-! ### setRate -/

@[simp] theorem setRate_cfg (r : F64) (s : State) : (setRate r s).cfg = s.cfg := rfl
@[simp] theorem setRate_params (r : F64) (s : State) : (setRate r s).params = s.params := rfl
@[simp] theorem setRate_sr (r : F64) (s : State) : (setRate r s).sr = r := rfl
@[simp] theorem setRate_dt (r : F64) (s : State) : (setRate r s).dt = samplePeriod r := rfl
@[simp] theorem setRate_alpha (r : F64) (s : State) : (setRate r s).alpha = declickAlpha s.cfg r := rfl
@[simp] theorem setRate_clk (r : F64) (s : State) : (setRate r s).clk = s.clk := rfl
@[simp] theorem setRate_nt (r : F64) (s : State) : (setRate r s).nt = s.nt := rfl
@[simp] theorem setRate_env (r : F64) (s : State) : (setRate r s).env = s.env := rfl
@[simp] theorem setRate_vl (r : F64) (s : State) : (setRate r s).vl = s.vl := rfl
@[simp] theorem setRate_dcY (r : F64) (s : State) : (setRate r s).dcY = s.dcY := rfl
@[simp] theorem setRate_status (r : F64) (s : State) : (setRate r s).status = s.status := rfl
@[simp] theorem setRate_snapRaw (r : F64) (s : State) : (setRate r s).snapRaw = s.snapRaw := rfl
@[simp] theorem setRate_snap (r : F64) (s : State) : (setRate r s).snap = s.snap := rfl
@[simp] theorem setRate_portR (r : F64) (s : State) : (setRate r s).portR = s.portR := rfl
@[simp] theorem setRate_portC (r : F64) (s : State) : (setRate r s).portC = s.portC := rfl
@[simp] theorem setRate_out (r : F64) (s : State) : (setRate r s).out = s.out := rfl
@[simp] theorem setRate_cur (r : F64) (s : State) : (setRate r s).cur = s.cur := rfl
@[simp] theorem setRate_sched (r : F64) (s : State) : (setRate r s).sched = s.sched := rfl

/-! ### paramWrite -/

@[simp] theorem paramWrite_cfg (i : ParamIdx) (v : F32) (s : State) : (paramWrite i v s).cfg = s.cfg := rfl
@[simp] theorem paramWrite_params (i : ParamIdx) (v : F32) (s : State) : (paramWrite i v s).params = s.params.set i v := rfl
@[simp] theorem paramWrite_sr (i : ParamIdx) (v : F32) (s : State) : (paramWrite i v s).sr = s.sr := rfl
@[simp] theorem paramWrite_dt (i : ParamIdx) (v : F32) (s : State) : (paramWrite i v s).dt = s.dt := rfl
@[simp] theorem paramWrite_alpha (i : ParamIdx) (v : F32) (s : State) : (paramWrite i v s).alpha = s.alpha := rfl
@[simp] theorem paramWrite_clk (i : ParamIdx) (v : F32) (s : State) : (paramWrite i v s).clk = s.clk := rfl
@[simp] theorem paramWrite_nt (i : ParamIdx) (v : F32) (s : State) : (paramWrite i v s).nt = s.nt := rfl
@[simp] theorem paramWrite_env (i : ParamIdx) (v : F32) (s : State) : (paramWrite i v s).env = s.env := rfl
@[simp] theorem paramWrite_vl (i : ParamIdx) (v : F32) (s : State) : (paramWrite i v s).vl = s.vl := rfl
@[simp] theorem paramWrite_dcY (i : ParamIdx) (v : F32) (s : State) : (paramWrite i v s).dcY = s.dcY := rfl
@[simp] theorem paramWrite_status (i : ParamIdx) (v : F32) (s : State) : (paramWrite i v s).status = s.status := rfl
@[simp] theorem paramWrite_snapRaw (i : ParamIdx) (v : F32) (s : State) : (paramWrite i v s).snapRaw = s.snapRaw := rfl
@[simp] theorem paramWrite_snap (i : ParamIdx) (v : F32) (s : State) : (paramWrite i v s).snap = s.snap := rfl
@[simp] theorem paramWrite_portR (i : ParamIdx) (v : F32) (s : State) : (paramWrite i v s).portR = s.portR := rfl
@[simp] theorem paramWrite_portC (i : ParamIdx) (v : F32) (s : State) : (paramWrite i v s).portC = s.portC := rfl
@[simp] theorem paramWrite_out (i : ParamIdx) (v : F32) (s : State) : (paramWrite i v s).out = s.out := rfl
@[simp] theorem paramWrite_cur (i : ParamIdx) (v : F32) (s : State) : (paramWrite i v s).cur = s.cur := rfl
@[simp] theorem paramWrite_sched (i : ParamIdx) (v : F32) (s : State) : (paramWrite i v s).sched = s.sched := rfl

/-! ### snapReadNow -/

@[simp] theorem snapReadNow_cfg (i : ParamIdx) (s : State) : (snapReadNow i s).cfg = s.cfg := rfl
@[simp] theorem snapReadNow_params (i : ParamIdx) (s : State) : (snapReadNow i s).params = s.params := rfl
@[simp] theorem snapReadNow_sr (i : ParamIdx) (s : State) : (snapReadNow i s).sr = s.sr := rfl
@[simp] theorem snapReadNow_dt (i : ParamIdx) (s : State) : (snapReadNow i s).dt = s.dt := rfl
@[simp] theorem snapReadNow_alpha (i : ParamIdx) (s : State) : (snapReadNow i s).alpha = s.alpha := rfl
@[simp] theorem snapReadNow_clk (i : ParamIdx) (s : State) : (snapReadNow i s).clk = s.clk := rfl
@[simp] theorem snapReadNow_nt (i : ParamIdx) (s : State) : (snapReadNow i s).nt = s.nt := rfl
@[simp] theorem snapReadNow_env (i : ParamIdx) (s : State) : (snapReadNow i s).env = s.env := rfl
@[simp] theorem snapReadNow_vl (i : ParamIdx) (s : State) : (snapReadNow i s).vl = s.vl := rfl
@[simp] theorem snapReadNow_dcY (i : ParamIdx) (s : State) : (snapReadNow i s).dcY = s.dcY := rfl
@[simp] theorem snapReadNow_status (i : ParamIdx) (s : State) : (snapReadNow i s).status = s.status := rfl
@[simp] theorem snapReadNow_snapRaw (i : ParamIdx) (s : State) : (snapReadNow i s).snapRaw = s.snapRaw.set i (some (s.params.get i)) := rfl
@[simp] theorem snapReadNow_snap (i : ParamIdx) (s : State) : (snapReadNow i s).snap = s.snap := rfl
@[simp] theorem snapReadNow_portR (i : ParamIdx) (s : State) : (snapReadNow i s).portR = s.portR := rfl
@[simp] theorem snapReadNow_portC (i : ParamIdx) (s : State) : (snapReadNow i s).portC = s.portC := rfl
@[simp] theorem snapReadNow_out (i : ParamIdx) (s : State) : (snapReadNow i s).out = s.out := rfl
@[simp] theorem snapReadNow_cur (i : ParamIdx) (s : State) : (snapReadNow i s).cur = s.cur := rfl
@[simp] theorem snapReadNow_sched (i : ParamIdx) (s : State) : (snapReadNow i s).sched = s.sched := rfl

/-! ### clockReset -/

@[simp] theorem clockReset_cfg (s : State) : (clockReset s).cfg = s.cfg := rfl
@[simp] theorem clockReset_params (s : State) : (clockReset s).params = s.params := rfl
@[simp] theorem clockReset_sr (s : State) : (clockReset s).sr = s.sr := rfl
@[simp] theorem clockReset_dt (s : State) : (clockReset s).dt = s.dt := rfl
@[simp] theorem clockReset_alpha (s : State) : (clockReset s).alpha = s.alpha := rfl
@[simp] theorem clockReset_clk (s : State) : (clockReset s).clk = f64Zero := rfl
@[simp] theorem clockReset_nt (s : State) : (clockReset s).nt = s.nt := rfl
@[simp] theorem clockReset_env (s : State) : (clockReset s).env = s.env := rfl
@[simp] theorem clockReset_vl (s : State) : (clockReset s).vl = s.vl := rfl
@[simp] theorem clockReset_dcY (s : State) : (clockReset s).dcY = s.dcY := rfl
@[simp] theorem clockReset_status (s : State) : (clockReset s).status = s.status := rfl
@[simp] theorem clockReset_snapRaw (s : State) : (clockReset s).snapRaw = s.snapRaw := rfl
@[simp] theorem clockReset_snap (s : State) : (clockReset s).snap = s.snap := rfl
@[simp] theorem clockReset_portR (s : State) : (clockReset s).portR = s.portR := rfl
@[simp] theorem clockReset_portC (s : State) : (clockReset s).portC = s.portC := rfl
@[simp] theorem clockReset_out (s : State) : (clockReset s).out = s.out := rfl
@[simp] theorem clockReset_cur (s : State) : (clockReset s).cur = s.cur := rfl
@[simp] theorem clockReset_sched (s : State) : (clockReset s).sched = s.sched := rfl

/-! ### clockAdvance -/

@[simp] theorem clockAdvance_cfg (n : Nat) (s : State) : (clockAdvance n s).cfg = s.cfg := rfl
@[simp] theorem clockAdvance_params (n : Nat) (s : State) : (clockAdvance n s).params = s.params := rfl
@[simp] theorem clockAdvance_sr (n : Nat) (s : State) : (clockAdvance n s).sr = s.sr := rfl
@[simp] theorem clockAdvance_dt (n : Nat) (s : State) : (clockAdvance n s).dt = s.dt := rfl
@[simp] theorem clockAdvance_alpha (n : Nat) (s : State) : (clockAdvance n s).alpha = s.alpha := rfl
@[simp] theorem clockAdvance_clk (n : Nat) (s : State) : (clockAdvance n s).clk = f64Add s.clk (f64Div (f64OfInt n) s.sr) := rfl
@[simp] theorem clockAdvance_nt (n : Nat) (s : State) : (clockAdvance n s).nt = s.nt := rfl
@[simp] theorem clockAdvance_env (n : Nat) (s : State) : (clockAdvance n s).env = s.env := rfl
@[simp] theorem clockAdvance_vl (n : Nat) (s : State) : (clockAdvance n s).vl = s.vl := rfl
@[simp] theorem clockAdvance_dcY (n : Nat) (s : State) : (clockAdvance n s).dcY = s.dcY := rfl
@[simp] theorem clockAdvance_status (n : Nat) (s : State) : (clockAdvance n s).status = s.status := rfl
@[simp] theorem clockAdvance_snapRaw (n : Nat) (s : State) : (clockAdvance n s).snapRaw = s.snapRaw := rfl
@[simp] theorem clockAdvance_snap (n : Nat) (s : State) : (clockAdvance n s).snap = s.snap := rfl
@[simp] theorem clockAdvance_portR (n : Nat) (s : State) : (clockAdvance n s).portR = s.portR := rfl
@[simp] theorem clockAdvance_portC (n : Nat) (s : State) : (clockAdvance n s).portC = s.portC := rfl
@[simp] theorem clockAdvance_out (n : Nat) (s : State) : (clockAdvance n s).out = s.out := rfl
@[simp] theorem clockAdvance_cur (n : Nat) (s : State) : (clockAdvance n s).cur = s.cur := rfl
@[simp] theorem clockAdvance_sched (n : Nat) (s : State) : (clockAdvance n s).sched = s.sched := rfl

/-! ### rebase -/

@[simp] theorem rebase_cfg (old : F64) (s : State) : (rebase old s).cfg = s.cfg := rfl
@[simp] theorem rebase_params (old : F64) (s : State) : (rebase old s).params = s.params := rfl
@[simp] theorem rebase_sr (old : F64) (s : State) : (rebase old s).sr = s.sr := rfl
@[simp] theorem rebase_dt (old : F64) (s : State) : (rebase old s).dt = s.dt := rfl
@[simp] theorem rebase_alpha (old : F64) (s : State) : (rebase old s).alpha = s.alpha := rfl
@[simp] theorem rebase_clk (old : F64) (s : State) : (rebase old s).clk = s.clk := rfl
@[simp] theorem rebase_nt (old : F64) (s : State) : (rebase old s).nt = { s.nt with onset := f64Sub s.nt.onset old } := rfl
@[simp] theorem rebase_env (old : F64) (s : State) : (rebase old s).env = { s.env with start := f64Sub s.env.start old } := rfl
@[simp] theorem rebase_vl (old : F64) (s : State) : (rebase old s).vl = s.vl := rfl
@[simp] theorem rebase_dcY (old : F64) (s : State) : (rebase old s).dcY = s.dcY := rfl
@[simp] theorem rebase_status (old : F64) (s : State) : (rebase old s).status = s.status := rfl
@[simp] theorem rebase_snapRaw (old : F64) (s : State) : (rebase old s).snapRaw = s.snapRaw := rfl
@[simp] theorem rebase_snap (old : F64) (s : State) : (rebase old s).snap = s.snap := rfl
@[simp] theorem rebase_portR (old : F64) (s : State) : (rebase old s).portR = s.portR := rfl
@[simp] theorem rebase_portC (old : F64) (s : State) : (rebase old s).portC = s.portC := rfl
@[simp] theorem rebase_out (old : F64) (s : State) : (rebase old s).out = s.out := rfl
@[simp] theorem rebase_cur (old : F64) (s : State) : (rebase old s).cur = s.cur := rfl
@[simp] theorem rebase_sched (old : F64) (s : State) : (rebase old s).sched = s.sched := rfl

/-! ### startNote -/

@[simp] theorem startNote_cfg (p v : BitVec 7) (s : State) : (startNote p v s).cfg = s.cfg := rfl
@[simp] theorem startNote_params (p v : BitVec 7) (s : State) : (startNote p v s).params = s.params := rfl
@[simp] theorem startNote_sr (p v : BitVec 7) (s : State) : (startNote p v s).sr = s.sr := rfl
@[simp] theorem startNote_dt (p v : BitVec 7) (s : State) : (startNote p v s).dt = s.dt := rfl
@[simp] theorem startNote_alpha (p v : BitVec 7) (s : State) : (startNote p v s).alpha = s.alpha := rfl
@[simp] theorem startNote_clk (p v : BitVec 7) (s : State) : (startNote p v s).clk = s.clk := rfl
@[simp] theorem startNote_nt (p v : BitVec 7) (s : State) : (startNote p v s).nt = ⟨true, p, v, s.clk⟩ := rfl
@[simp] theorem startNote_env (p v : BitVec 7) (s : State) : (startNote p v s).env = envTrigger s.clk s.env := rfl
@[simp] theorem startNote_vl (p v : BitVec 7) (s : State) : (startNote p v s).vl = ⟨p, v⟩ := rfl
@[simp] theorem startNote_dcY (p v : BitVec 7) (s : State) : (startNote p v s).dcY = s.dcY := rfl
@[simp] theorem startNote_status (p v : BitVec 7) (s : State) : (startNote p v s).status = s.status := rfl
@[simp] theorem startNote_snapRaw (p v : BitVec 7) (s : State) : (startNote p v s).snapRaw = s.snapRaw := rfl
@[simp] theorem startNote_snap (p v : BitVec 7) (s : State) : (startNote p v s).snap = s.snap := rfl
@[simp] theorem startNote_portR (p v : BitVec 7) (s : State) : (startNote p v s).portR = s.portR := rfl
@[simp] theorem startNote_portC (p v : BitVec 7) (s : State) : (startNote p v s).portC = s.portC := rfl
@[simp] theorem startNote_out (p v : BitVec 7) (s : State) : (startNote p v s).out = s.out := rfl
@[simp] theorem startNote_cur (p v : BitVec 7) (s : State) : (startNote p v s).cur = s.cur := rfl
@[simp] theorem startNote_sched (p v : BitVec 7) (s : State) : (startNote p v s).sched = s.sched := rfl

/-! ### endNote -/

@[simp] theorem endNote_cfg (s : State) : (endNote s).cfg = s.cfg := rfl
@[simp] theorem endNote_params (s : State) : (endNote s).params = s.params := rfl
@[simp] theorem endNote_sr (s : State) : (endNote s).sr = s.sr := rfl
@[simp] theorem endNote_dt (s : State) : (endNote s).dt = s.dt := rfl
@[simp] theorem endNote_alpha (s : State) : (endNote s).alpha = s.alpha := rfl
@[simp] theorem endNote_clk (s : State) : (endNote s).clk = s.clk := rfl
@[simp] theorem endNote_nt (s : State) : (endNote s).nt = { s.nt with sounding := false } := rfl
@[simp] theorem endNote_env (s : State) : (endNote s).env = envRelease s.clk s.env := rfl
@[simp] theorem endNote_vl (s : State) : (endNote s).vl = s.vl := rfl
@[simp] theorem endNote_dcY (s : State) : (endNote s).dcY = s.dcY := rfl
@[simp] theorem endNote_status (s : State) : (endNote s).status = s.status := rfl
@[simp] theorem endNote_snapRaw (s : State) : (endNote s).snapRaw = s.snapRaw := rfl
@[simp] theorem endNote_snap (s : State) : (endNote s).snap = s.snap := rfl
@[simp] theorem endNote_portR (s : State) : (endNote s).portR = s.portR := rfl
@[simp] theorem endNote_portC (s : State) : (endNote s).portC = s.portC := rfl
@[simp] theorem endNote_out (s : State) : (endNote s).out = s.out := rfl
@[simp] theorem endNote_cur (s : State) : (endNote s).cur = s.cur := rfl
@[simp] theorem endNote_sched (s : State) : (endNote s).sched = s.sched := rfl

/-! ### evalEnvelope -/

@[simp] theorem evalEnvelope_cfg (t : F64) (s : State) : (evalEnvelope t s).cfg = s.cfg := rfl
@[simp] theorem evalEnvelope_params (t : F64) (s : State) : (evalEnvelope t s).params = s.params := rfl
@[simp] theorem evalEnvelope_sr (t : F64) (s : State) : (evalEnvelope t s).sr = s.sr := rfl
@[simp] theorem evalEnvelope_dt (t : F64) (s : State) : (evalEnvelope t s).dt = s.dt := rfl
@[simp] theorem evalEnvelope_alpha (t : F64) (s : State) : (evalEnvelope t s).alpha = s.alpha := rfl
@[simp] theorem evalEnvelope_clk (t : F64) (s : State) : (evalEnvelope t s).clk = s.clk := rfl
@[simp] theorem evalEnvelope_nt (t : F64) (s : State) : (evalEnvelope t s).nt = s.nt := rfl
@[simp] theorem evalEnvelope_env (t : F64) (s : State) : (evalEnvelope t s).env = envEvaluate s.cfg s.snap t s.env := rfl
@[simp] theorem evalEnvelope_vl (t : F64) (s : State) : (evalEnvelope t s).vl = s.vl := rfl
@[simp] theorem evalEnvelope_dcY (t : F64) (s : State) : (evalEnvelope t s).dcY = s.dcY := rfl
@[simp] theorem evalEnvelope_status (t : F64) (s : State) : (evalEnvelope t s).status = s.status := rfl
@[simp] theorem evalEnvelope_snapRaw (t : F64) (s : State) : (evalEnvelope t s).snapRaw = s.snapRaw := rfl
@[simp] theorem evalEnvelope_snap (t : F64) (s : State) : (evalEnvelope t s).snap = s.snap := rfl
@[simp] theorem evalEnvelope_portR (t : F64) (s : State) : (evalEnvelope t s).portR = s.portR := rfl
@[simp] theorem evalEnvelope_portC (t : F64) (s : State) : (evalEnvelope t s).portC = s.portC := rfl
@[simp] theorem evalEnvelope_out (t : F64) (s : State) : (evalEnvelope t s).out = s.out := rfl
@[simp] theorem evalEnvelope_cur (t : F64) (s : State) : (evalEnvelope t s).cur = s.cur := rfl
@[simp] theorem evalEnvelope_sched (t : F64) (s : State) : (evalEnvelope t s).sched = s.sched := rfl

/-! ### declickSample -/

@[simp] theorem declickSample_cfg (t : F64) (s : State) : (declickSample t s).cfg = s.cfg := rfl
@[simp] theorem declickSample_params (t : F64) (s : State) : (declickSample t s).params = s.params := rfl
@[simp] theorem declickSample_sr (t : F64) (s : State) : (declickSample t s).sr = s.sr := rfl
@[simp] theorem declickSample_dt (t : F64) (s : State) : (declickSample t s).dt = s.dt := rfl
@[simp] theorem declickSample_alpha (t : F64) (s : State) : (declickSample t s).alpha = s.alpha := rfl
@[simp] theorem declickSample_clk (t : F64) (s : State) : (declickSample t s).clk = s.clk := rfl
@[simp] theorem declickSample_nt (t : F64) (s : State) : (declickSample t s).nt = s.nt := rfl
@[simp] theorem declickSample_env (t : F64) (s : State) : (declickSample t s).env = s.env := rfl
@[simp] theorem declickSample_vl (t : F64) (s : State) : (declickSample t s).vl = s.vl := rfl
@[simp] theorem declickSample_dcY (t : F64) (s : State) : (declickSample t s).dcY = declick s.cfg s.alpha s.dcY (mix s t) := rfl
@[simp] theorem declickSample_status (t : F64) (s : State) : (declickSample t s).status = s.status := rfl
@[simp] theorem declickSample_snapRaw (t : F64) (s : State) : (declickSample t s).snapRaw = s.snapRaw := rfl
@[simp] theorem declickSample_snap (t : F64) (s : State) : (declickSample t s).snap = s.snap := rfl
@[simp] theorem declickSample_portR (t : F64) (s : State) : (declickSample t s).portR = s.portR := rfl
@[simp] theorem declickSample_portC (t : F64) (s : State) : (declickSample t s).portC = s.portC := rfl
@[simp] theorem declickSample_out (t : F64) (s : State) : (declickSample t s).out = s.out := rfl
@[simp] theorem declickSample_cur (t : F64) (s : State) : (declickSample t s).cur = s.cur := rfl
@[simp] theorem declickSample_sched (t : F64) (s : State) : (declickSample t s).sched = s.sched := rfl

/-! ### emitFrame -/

@[simp] theorem emitFrame_cfg (y : F32) (nch : BitVec 8) (s : State) : (emitFrame y nch s).cfg = s.cfg := by unfold emitFrame; split <;> rfl
@[simp] theorem emitFrame_params (y : F32) (nch : BitVec 8) (s : State) : (emitFrame y nch s).params = s.params := by unfold emitFrame; split <;> rfl
@[simp] theorem emitFrame_sr (y : F32) (nch : BitVec 8) (s : State) : (emitFrame y nch s).sr = s.sr := by unfold emitFrame; split <;> rfl
@[simp] theorem emitFrame_dt (y : F32) (nch : BitVec 8) (s : State) : (emitFrame y nch s).dt = s.dt := by unfold emitFrame; split <;> rfl
@[simp] theorem emitFrame_alpha (y : F32) (nch : BitVec 8) (s : State) : (emitFrame y nch s).alpha = s.alpha := by unfold emitFrame; split <;> rfl
@[simp] theorem emitFrame_clk (y : F32) (nch : BitVec 8) (s : State) : (emitFrame y nch s).clk = s.clk := by unfold emitFrame; split <;> rfl
@[simp] theorem emitFrame_nt (y : F32) (nch : BitVec 8) (s : State) : (emitFrame y nch s).nt = s.nt := by unfold emitFrame; split <;> rfl
@[simp] theorem emitFrame_env (y : F32) (nch : BitVec 8) (s : State) : (emitFrame y nch s).env = s.env := by unfold emitFrame; split <;> rfl
@[simp] theorem emitFrame_vl (y : F32) (nch : BitVec 8) (s : State) : (emitFrame y nch s).vl = s.vl := by unfold emitFrame; split <;> rfl
@[simp] theorem emitFrame_dcY (y : F32) (nch : BitVec 8) (s : State) : (emitFrame y nch s).dcY = s.dcY := by unfold emitFrame; split <;> rfl
@[simp] theorem emitFrame_status (y : F32) (nch : BitVec 8) (s : State) : (emitFrame y nch s).status = s.status := by unfold emitFrame; split <;> rfl
@[simp] theorem emitFrame_snapRaw (y : F32) (nch : BitVec 8) (s : State) : (emitFrame y nch s).snapRaw = s.snapRaw := by unfold emitFrame; split <;> rfl
@[simp] theorem emitFrame_snap (y : F32) (nch : BitVec 8) (s : State) : (emitFrame y nch s).snap = s.snap := by unfold emitFrame; split <;> rfl
@[simp] theorem emitFrame_portR (y : F32) (nch : BitVec 8) (s : State) : (emitFrame y nch s).portR = s.portR := by unfold emitFrame; split <;> rfl
@[simp] theorem emitFrame_portC (y : F32) (nch : BitVec 8) (s : State) : (emitFrame y nch s).portC = s.portC := by unfold emitFrame; split <;> rfl
@[simp] theorem emitFrame_cur (y : F32) (nch : BitVec 8) (s : State) : (emitFrame y nch s).cur = s.cur := by unfold emitFrame; split <;> rfl
@[simp] theorem emitFrame_sched (y : F32) (nch : BitVec 8) (s : State) : (emitFrame y nch s).sched = s.sched := by unfold emitFrame; split <;> rfl

/-! ### emitSample -/

@[simp] theorem emitSample_cfg (nch : BitVec 8) (s : State) : (emitSample nch s).cfg = s.cfg := by simp [emitSample]
@[simp] theorem emitSample_params (nch : BitVec 8) (s : State) : (emitSample nch s).params = s.params := by simp [emitSample]
@[simp] theorem emitSample_sr (nch : BitVec 8) (s : State) : (emitSample nch s).sr = s.sr := by simp [emitSample]
@[simp] theorem emitSample_dt (nch : BitVec 8) (s : State) : (emitSample nch s).dt = s.dt := by simp [emitSample]
@[simp] theorem emitSample_alpha (nch : BitVec 8) (s : State) : (emitSample nch s).alpha = s.alpha := by simp [emitSample]
@[simp] theorem emitSample_clk (nch : BitVec 8) (s : State) : (emitSample nch s).clk = s.clk := by simp [emitSample]
@[simp] theorem emitSample_nt (nch : BitVec 8) (s : State) : (emitSample nch s).nt = s.nt := by simp [emitSample]
@[simp] theorem emitSample_env (nch : BitVec 8) (s : State) : (emitSample nch s).env = s.env := by simp [emitSample]
@[simp] theorem emitSample_vl (nch : BitVec 8) (s : State) : (emitSample nch s).vl = s.vl := by simp [emitSample]
@[simp] theorem emitSample_dcY (nch : BitVec 8) (s : State) : (emitSample nch s).dcY = s.dcY := by simp [emitSample]
@[simp] theorem emitSample_status (nch : BitVec 8) (s : State) : (emitSample nch s).status = s.status := by simp [emitSample]
@[simp] theorem emitSample_snapRaw (nch : BitVec 8) (s : State) : (emitSample nch s).snapRaw = s.snapRaw := by simp [emitSample]
@[simp] theorem emitSample_snap (nch : BitVec 8) (s : State) : (emitSample nch s).snap = s.snap := by simp [emitSample]
@[simp] theorem emitSample_portR (nch : BitVec 8) (s : State) : (emitSample nch s).portR = s.portR := by simp [emitSample]
@[simp] theorem emitSample_portC (nch : BitVec 8) (s : State) : (emitSample nch s).portC = s.portC := by simp [emitSample]
@[simp] theorem emitSample_cur (nch : BitVec 8) (s : State) : (emitSample nch s).cur = s.cur := by simp [emitSample]
@[simp] theorem emitSample_sched (nch : BitVec 8) (s : State) : (emitSample nch s).sched = s.sched := by simp [emitSample]

/-! ### takeSnapshot -/

@[simp] theorem takeSnapshot_cfg (s : State) : (takeSnapshot s).cfg = s.cfg := rfl
@[simp] theorem takeSnapshot_params (s : State) : (takeSnapshot s).params = s.params := rfl
@[simp] theorem takeSnapshot_sr (s : State) : (takeSnapshot s).sr = s.sr := rfl
@[simp] theorem takeSnapshot_dt (s : State) : (takeSnapshot s).dt = s.dt := rfl
@[simp] theorem takeSnapshot_alpha (s : State) : (takeSnapshot s).alpha = s.alpha := rfl
@[simp] theorem takeSnapshot_clk (s : State) : (takeSnapshot s).clk = s.clk := rfl
@[simp] theorem takeSnapshot_nt (s : State) : (takeSnapshot s).nt = s.nt := rfl
@[simp] theorem takeSnapshot_env (s : State) : (takeSnapshot s).env = s.env := rfl
@[simp] theorem takeSnapshot_vl (s : State) : (takeSnapshot s).vl = s.vl := rfl
@[simp] theorem takeSnapshot_dcY (s : State) : (takeSnapshot s).dcY = s.dcY := rfl
@[simp] theorem takeSnapshot_status (s : State) : (takeSnapshot s).status = s.status := rfl
@[simp] theorem takeSnapshot_snapRaw (s : State) : (takeSnapshot s).snapRaw = noSnapReads := rfl
@[simp] theorem takeSnapshot_snap (s : State) : (takeSnapshot s).snap = mapParams s.cfg (snapshotRaw s) := rfl
@[simp] theorem takeSnapshot_portR (s : State) : (takeSnapshot s).portR = s.portR := rfl
@[simp] theorem takeSnapshot_portC (s : State) : (takeSnapshot s).portC = s.portC := rfl
@[simp] theorem takeSnapshot_out (s : State) : (takeSnapshot s).out = s.out := rfl
@[simp] theorem takeSnapshot_cur (s : State) : (takeSnapshot s).cur = s.cur := rfl
@[simp] theorem takeSnapshot_sched (s : State) : (takeSnapshot s).sched = s.sched := rfl

/-! ### resetState -/

@[simp] theorem resetState_cfg (s : State) : (resetState s).cfg = s.cfg := rfl
@[simp] theorem resetState_params (s : State) : (resetState s).params = ⟨0, 0, 0, 0, 0⟩ := rfl
@[simp] theorem resetState_sr (s : State) : (resetState s).sr = s.cfg.resetSampleRate := rfl
@[simp] theorem resetState_dt (s : State) : (resetState s).dt = samplePeriod s.cfg.resetSampleRate := rfl
@[simp] theorem resetState_alpha (s : State) : (resetState s).alpha = declickAlpha s.cfg s.cfg.resetSampleRate := rfl
@[simp] theorem resetState_clk (s : State) : (resetState s).clk = f64Zero := rfl
@[simp] theorem resetState_nt (s : State) : (resetState s).nt = ⟨false, 0, 0, f64Zero⟩ := rfl
@[simp] theorem resetState_env (s : State) : (resetState s).env = ⟨.idle, f64Zero, f64Zero, f64Zero, f64Zero⟩ := rfl
@[simp] theorem resetState_vl (s : State) : (resetState s).vl = ⟨0, 0⟩ := rfl
@[simp] theorem resetState_dcY (s : State) : (resetState s).dcY = f64Zero := rfl
@[simp] theorem resetState_status (s : State) : (resetState s).status = ⟨false, .noError⟩ := rfl
@[simp] theorem resetState_snapRaw (s : State) : (resetState s).snapRaw = s.snapRaw := rfl
@[simp] theorem resetState_snap (s : State) : (resetState s).snap = s.snap := rfl
@[simp] theorem resetState_portR (s : State) : (resetState s).portR = s.portR := rfl
@[simp] theorem resetState_portC (s : State) : (resetState s).portC = s.portC := rfl
@[simp] theorem resetState_out (s : State) : (resetState s).out = s.out := rfl
@[simp] theorem resetState_cur (s : State) : (resetState s).cur = s.cur := rfl
@[simp] theorem resetState_sched (s : State) : (resetState s).sched = s.sched := rfl

/-! ### popEvent -/

@[simp] theorem popEvent_cfg (s : State) : (popEvent s).cfg = s.cfg := rfl
@[simp] theorem popEvent_params (s : State) : (popEvent s).params = s.params := rfl
@[simp] theorem popEvent_sr (s : State) : (popEvent s).sr = s.sr := rfl
@[simp] theorem popEvent_dt (s : State) : (popEvent s).dt = s.dt := rfl
@[simp] theorem popEvent_alpha (s : State) : (popEvent s).alpha = s.alpha := rfl
@[simp] theorem popEvent_clk (s : State) : (popEvent s).clk = s.clk := rfl
@[simp] theorem popEvent_nt (s : State) : (popEvent s).nt = s.nt := rfl
@[simp] theorem popEvent_env (s : State) : (popEvent s).env = s.env := rfl
@[simp] theorem popEvent_vl (s : State) : (popEvent s).vl = s.vl := rfl
@[simp] theorem popEvent_dcY (s : State) : (popEvent s).dcY = s.dcY := rfl
@[simp] theorem popEvent_status (s : State) : (popEvent s).status = s.status := rfl
@[simp] theorem popEvent_snapRaw (s : State) : (popEvent s).snapRaw = s.snapRaw := rfl
@[simp] theorem popEvent_snap (s : State) : (popEvent s).snap = s.snap := rfl
@[simp] theorem popEvent_portR (s : State) : (popEvent s).portR = s.portR := rfl
@[simp] theorem popEvent_portC (s : State) : (popEvent s).portC = s.portC := rfl
@[simp] theorem popEvent_out (s : State) : (popEvent s).out = s.out := rfl
@[simp] theorem popEvent_cur (s : State) : (popEvent s).cur = s.cur := rfl
@[simp] theorem popEvent_sched (s : State) : (popEvent s).sched = s.sched.tail := rfl

/-! ### Ports -/

@[simp] theorem setPort_port_same (s : State) (p : PortId) (q : Port) : (s.setPort p q).port p = q := by
  cases p <;> rfl

theorem setPort_port_ne (s : State) {p p' : PortId} (q : Port) (h : p' ≠ p) :
    (s.setPort p q).port p' = s.port p' := by
  cases p <;> cases p' <;> first | rfl | exact absurd rfl h

@[simp] theorem setPort_R_portR (s : State) (q : Port) : (s.setPort .R q).portR = q := rfl
@[simp] theorem setPort_R_portC (s : State) (q : Port) : (s.setPort .R q).portC = s.portC := rfl
@[simp] theorem setPort_C_portR (s : State) (q : Port) : (s.setPort .C q).portR = s.portR := rfl
@[simp] theorem setPort_C_portC (s : State) (q : Port) : (s.setPort .C q).portC = q := rfl

@[simp] theorem respond_nil (p : PortId) (s : State) : respond p [] s = s := by
  cases p <;> simp [respond, State.port, State.setPort]

/-- What `respond` does to the port it answers on: words appended to its response stream (R79). -/
@[simp] theorem respond_port_same (p : PortId) (ws : List Word) (s : State) :
    (respond p ws s).port p = { s.port p with responses := (s.port p).responses ++ ws } := by
  simp [respond]

/-- What `respond` does to the other port: nothing. -/
theorem respond_port_ne {p p' : PortId} (ws : List Word) (s : State) (h : p' ≠ p) :
    (respond p ws s).port p' = s.port p' := by
  simp [respond, setPort_port_ne s _ h]

/-- `raiseError` without response words writes ERR and nothing else (R15, R300). -/
theorem raiseError_zero (e : ErrCode) (s : State) : raiseError e 0 s = setErr e s := by
  simp [raiseError]

/-! ### The parameter file -/

@[simp] theorem Five.get_set_same {α : Type} (f : Five α) (i : ParamIdx) (v : α) : (f.set i v).get i = v := by
  cases i <;> rfl

theorem Five.get_set_ne {α : Type} (f : Five α) {i j : ParamIdx} (v : α) (h : j ≠ i) :
    (f.set i v).get j = f.get j := by
  cases i <;> cases j <;> first | rfl | exact absurd rfl h

theorem Five.ext_get {α : Type} {f g : Five α} (h : ∀ i, f.get i = g.get i) : f = g := by
  cases f; cases g
  have h1 := h .oscillator; have h2 := h .attack; have h3 := h .decay
  have h4 := h .sustain; have h5 := h .release
  simp only [Five.get] at h1 h2 h3 h4 h5
  simp [h1, h2, h3, h4, h5]

/-! ### Output stream -/

/-- What `emitFrame` appends (R80): one frame of `nch` equal samples, or nothing when `nch` is 0. -/
theorem emitFrame_out (y : F32) (nch : BitVec 8) (s : State) :
    (emitFrame y nch s).out = if nch = 0 then s.out else s.out ++ [List.replicate nch.toNat y] := by
  unfold emitFrame; split <;> rfl

end Sys2Proof.Machine
end

