-- ==== Sys2Proof/Laws/Envelope.lean ====
section
/-! SUPPORT. What one evaluation of the envelope does, and that the mapped parameters are in range. -/

namespace Sys2Proof.Machine

open Sys2Proof

/-! ### Elapsed time and completion -/

/-- Elapsed time is never negative and never NaN (R174's guard). -/
theorem elapsed_nonneg (t start : F64) : f64Le f64Zero (elapsed t start) = true := by
  unfold elapsed
  split_ifs with h
  · exact h
  · decide

/-- A stage not done has a duration above the elapsed time, so a positive one (R172). -/
theorem not_stageDone {c : Config} {d e : F64} (hd : f64IsNaN d = false)
    (he : f64Le f64Zero e = true) (h : stageDone c d e = false) :
    f64Lt f64Zero d = true ∧ f64Le e d = true := by
  rw [stageDone, Bool.or_eq_false_iff] at h
  rw [nonneg_iff] at he
  have h2 : ¬ (f64Le d e = true) := by rw [h.2]; simp
  rw [f64Le_iff] at h2
  have h3 : f64Key e < f64Key d := by
    by_contra hc
    exact h2 ⟨hd, he.1, by omega⟩
  rw [f64Lt_iff, f64Le_iff, f64Key_zero]
  exact ⟨⟨f64IsNaN_zero, hd, by omega⟩, he.1, hd, by omega⟩

/-- The elapsed fraction of a stage not done lies in [0, 1]. -/
theorem fraction_unit0 {c : Config} {d e : F64} (fd : f64IsFinite d = true)
    (he : f64Le f64Zero e = true) (h : stageDone c d e = false) : unit0 (f64Div e d) := by
  obtain ⟨h1, h2⟩ := not_stageDone (f64IsFinite_notNaN fd) he h
  exact unit0_div he h1 fd h2

/-! ### Levels -/

/-- The snapshot constants in their ranges (R171). -/
structure SnapshotInRange (sn : Snapshot) : Prop where
  a : f64IsFinite sn.a = true
  d : f64IsFinite sn.d = true
  r : f64IsFinite sn.r = true
  s : inUnit sn.s = true

/-- The Attack's level before its clamp: no NaN, sign bit 0 (R176). -/
theorem attackLevel_sign {c : Config} {a e : F64} {v : Envelope} (fa : f64IsFinite a = true)
    (he : f64Le f64Zero e = true) (hv : inUnit v.atk = true) :
    f64Neg? (attackLevel c a e v) = false ∧ f64IsNaN (attackLevel c a e v) = false := by
  unfold attackLevel
  split_ifs with h
  · exact ⟨f64Neg?_one, f64IsNaN_one⟩
  · have hp := unit0_mul (unit0_of_inUnit (inUnit_oneSub (unit0_of_inUnit hv)))
      (fraction_unit0 fa he (by simpa using h))
    exact ⟨(inUnit_add_unit0 hv hp).1, (inUnit_add_unit0 hv hp).2.1⟩

theorem inUnit_zero : inUnit f64Zero = true := by decide
theorem inUnit_one : inUnit f64One = true := by decide

theorem evalAttack_inUnit {c : Config} {a t e : F64} {v : Envelope} (fa : f64IsFinite a = true)
    (he : f64Le f64Zero e = true) (hv : inUnit v.atk = true) :
    inUnit (evalAttack c a t e v).value = true := by
  obtain ⟨h1, h2⟩ := attackLevel_sign (c := c) fa he hv
  unfold evalAttack
  split_ifs with h
  · exact inUnit_one
  · rw [f64Le_iff, f64Key_one] at h
    show inUnit (attackLevel c a e v) = true
    rw [inUnit_iff]
    refine ⟨h1, h2, ?_⟩
    by_contra hc
    exact h ⟨f64IsNaN_one, h2, by omega⟩

theorem evalDecay_inUnit {c : Config} {d sus t e : F64} {v : Envelope} (fd : f64IsFinite d = true)
    (he : f64Le f64Zero e = true) (hs : inUnit sus = true) :
    inUnit (evalDecay c d sus t e v).value = true := by
  unfold evalDecay
  split_ifs with h
  · exact hs
  · exact inUnit_oneSub (unit0_mul (fraction_unit0 fd he (by simpa using h))
      (unit0_of_inUnit (inUnit_oneSub (unit0_of_inUnit hs))))

theorem evalRelease_inUnit {c : Config} {r t e : F64} {v : Envelope} (fr : f64IsFinite r = true)
    (he : f64Le f64Zero e = true) (hv : inUnit v.rel = true) :
    inUnit (evalRelease c r t e v).value = true := by
  unfold evalRelease
  split_ifs with h h2
  · exact inUnit_zero
  · exact inUnit_zero
  · exact inUnit_mul hv (inUnit_oneSub (fraction_unit0 fr he (by simpa using h)))

/-- One evaluation leaves the level in [+0.0, 1.0] (R46). -/
theorem envEvaluate_inUnit {c : Config} {sn : Snapshot} {t : F64} {v : Envelope}
    (hs : SnapshotInRange sn) (ha : inUnit v.atk = true) (hr : inUnit v.rel = true) :
    inUnit (envEvaluate c sn t v).value = true := by
  unfold envEvaluate
  cases v.stage
  · exact inUnit_zero
  · exact evalAttack_inUnit hs.a (elapsed_nonneg _ _) ha
  · exact evalDecay_inUnit hs.d (elapsed_nonneg _ _) hs.s
  · exact hs.s
  · exact evalRelease_inUnit hs.r (elapsed_nonneg _ _) hr

/-! ### Stages -/

/-- One evaluation leaves the two start levels alone. -/
theorem envEvaluate_levels (c : Config) (sn : Snapshot) (t : F64) (v : Envelope) :
    (envEvaluate c sn t v).atk = v.atk ∧ (envEvaluate c sn t v).rel = v.rel := by
  unfold envEvaluate evalAttack evalDecay evalRelease
  cases v.stage <;> dsimp only <;> (try split_ifs) <;> exact ⟨rfl, rfl⟩

/-- What one evaluation can do to the stage and to its start time (R170, R173). -/
theorem envEvaluate_stage (c : Config) (sn : Snapshot) (t : F64) (v : Envelope) :
    ((envEvaluate c sn t v).stage = v.stage ∧ (envEvaluate c sn t v).start = v.start) ∨
    ((envEvaluate c sn t v).start = t ∧
      ((v.stage = .attack ∧ (envEvaluate c sn t v).stage = .decay) ∨
       (v.stage = .decay ∧ (envEvaluate c sn t v).stage = .sustain) ∨
       (v.stage = .release ∧ (envEvaluate c sn t v).stage = .idle))) := by
  unfold envEvaluate evalAttack evalDecay evalRelease evalIdle evalSustain enterIdle
  cases h : v.stage <;> simp only <;> (try split_ifs) <;> simp

/-- One evaluation keeps "a note sounds in this stage" (R45). -/
theorem envEvaluate_holdsNote (c : Config) (sn : Snapshot) (t : F64) (v : Envelope) :
    Stage.holdsNote (envEvaluate c sn t v).stage = Stage.holdsNote v.stage := by
  rcases envEvaluate_stage c sn t v with ⟨h, -⟩ | ⟨-, ⟨h, h'⟩ | ⟨h, h'⟩ | ⟨h, h'⟩⟩
  · rw [h]
  all_goals rw [h, h']; rfl

/-- An evaluation that ends in Idle ends at +0.0 (R175, R179). -/
theorem envEvaluate_idle {c : Config} {sn : Snapshot} {t : F64} {v : Envelope}
    (h : (envEvaluate c sn t v).stage = .idle) : (envEvaluate c sn t v).value = f64Zero := by
  unfold envEvaluate evalAttack evalDecay evalRelease evalIdle evalSustain enterIdle at *
  cases hs : v.stage <;> simp only [hs] at * <;> (try split_ifs at *) <;> simp_all

/-! ### The mapped parameters -/

theorem magUnits32_one : magUnits 23 0x3F800000 = 2 ^ 149 := by
  unfold magUnits
  rw [if_neg (by norm_num), show (2 ^ 23 + 0x3F800000 % 2 ^ 23 : Nat) = 2 ^ 23 by norm_num,
    show (0x3F800000 / 2 ^ 23 - 1 : Nat) = 126 by norm_num, ← pow_add]

/-- `clamp01` gives a pattern from +0.0 to 1.0 (R12). -/
theorem clamp01_toNat (x : F32) : (clamp01 x).toNat ≤ 0x3F800000 := by
  unfold clamp01
  split_ifs with h1 h2
  · decide
  · decide
  · simp only [Bool.or_eq_true, not_or, Bool.not_eq_true] at h1
    have hz : f32Key f32Zero = 0 := by decide
    have ho : f32Key f32One = 0x3F800000 := by decide
    have nz : f32IsNaN f32Zero = false := by decide
    have no : f32IsNaN f32One = false := by decide
    simp only [f32Le, h1.1, nz, no, hz, ho, Bool.not_false, Bool.true_and, decide_eq_true_eq,
      decide_eq_false_iff_not, not_le] at h1 h2
    have hk := h1.2
    unfold f32Key f32Mag at hk h2
    have := x.isLt
    cases hs : f32Neg? x
    · rw [hs] at h2
      have hm : x.toNat < 2 ^ 31 := by
        simp only [f32Neg?, BitVec.msb_eq_decide, decide_eq_false_iff_not] at hs; omega
      simp only [Bool.false_eq_true, if_false] at h2; omega
    · rw [hs] at hk; simp at hk; omega

/-- A clamped knob position widened lies in [+0.0, 1.0] (R264). -/
theorem knobLevel_inUnit (x : F32) : inUnit (knobLevel x) = true := by
  have h := clamp01_toNat x
  unfold knobLevel
  generalize clamp01 x = y at h
  have hm : f32Mag y = y.toNat := Nat.mod_eq_of_lt (by omega)
  have hn : f32IsNaN y = false := by simp [f32IsNaN, hm, infMag32]; omega
  have hi : ¬ (f32Mag y = infMag32) := by rw [hm, infMag32]; omega
  have hs : f32Neg? y = false := by
    simp only [f32Neg?, BitVec.msb_eq_decide, decide_eq_false_iff_not]; omega
  unfold f64OfF32
  rw [hn, hs, if_neg (by simp), if_neg hi]
  have hu : magUnits 23 (f32Mag y) ≤ 2 ^ 149 := by
    rw [← magUnits32_one, magUnits_le_iff, hm]; exact h
  refine inUnit_of_unit0 (unit0_of_min (n := magUnits 23 (f32Mag y) * 2 ^ 925) (d := 1)
    (by simp) ?_ Nat.one_pos ?_) (by simp)
  · rw [f64Key_round]; simp
  · rw [mul_one, show (1074 : Nat) = 149 + 925 by norm_num, pow_add]
    exact Nat.mul_le_mul_right _ hu

/-- A finite non-negative full scale times a level in [0, 1] is finite (R264). -/
theorem knobSeconds_finite {c : Config} (fc : f64IsFinite c.maxDurationS = true)
    (hc : f64Le f64Zero c.maxDurationS = true) (x : F32) : f64IsFinite (knobSeconds c x) = true := by
  have hu := unit0_of_inUnit (knobLevel_inUnit x)
  obtain ⟨hn, hk⟩ := f64Mul_nonneg hc hu.1 fc (unit0_finite hu)
  have h0 : 0 ≤ f64Key (knobSeconds c x) := by
    show 0 ≤ f64Key (f64Mul c.maxDurationS (knobLevel x))
    rw [hk]; exact Int.natCast_nonneg _
  have hle : roundMag 52 ((f64Units c.maxDurationS).natAbs * (f64Units (knobLevel x)).natAbs)
      (2 ^ unitExp64) ≤ f64Mag c.maxDurationS := by
    apply roundMag_le unit_pos
    rw [← f64Units_natAbs]
    exact Nat.mul_le_mul_left _ (unit0_units hu)
  have hm : f64Mag (knobSeconds c x) ≤ f64Mag c.maxDurationS := by
    have := key_eq_mag h0
    have hk' : f64Key (knobSeconds c x) = _ := hk
    rw [hk'] at this
    have h2 := (min_le_right infMag64 _).trans hle
    have h3 : (f64Mag (knobSeconds c x) : Int) ≤ f64Mag c.maxDurationS := by
      rw [← this]; exact_mod_cast h2
    exact_mod_cast h3
  simp only [f64IsFinite, decide_eq_true_eq] at *
  omega

/-- The mapped snapshot is in range under a legal configuration (R171, R264). -/
theorem mapParams_inRange {c : Config} (hc : Config.legal c) (raw : Five F32) :
    SnapshotInRange (mapParams c raw) where
  a := knobSeconds_finite hc.1 hc.2.1 _
  d := knobSeconds_finite hc.1 hc.2.1 _
  r := knobSeconds_finite hc.1 hc.2.1 _
  s := knobLevel_inUnit _

end Sys2Proof.Machine
end

