-- ==== Sys2Proof/Laws/Exec.lean ====
section
/-! SUPPORT. The checks before a command's effect, once for all commands, and the configuration functions'
properties. -/

namespace Sys2Proof.Machine

open Sys2Proof

/-! ### The checks of R110 -/

theorem firstRefusal_illegal {op : Opcode} {b : Bool} {s : State} (h : Opcode.legalOn op s.cur = false) :
    firstRefusal op b s = some .illegal := by simp [firstRefusal, h]

theorem firstRefusal_faulted {op : Opcode} {b : Bool} {s : State} (h : Opcode.legalOn op s.cur = true)
    (hf : s.status.fault = true) (hz : Opcode.frozenByFault op = true) :
    firstRefusal op b s = some .faulted := by simp [firstRefusal, h, hf, hz]

theorem firstRefusal_reserved {op : Opcode} {s : State} (h : Opcode.legalOn op s.cur = true)
    (hf : (s.status.fault && Opcode.frozenByFault op) = false) :
    firstRefusal op true s = some .reserved := by simp [firstRefusal, h, hf]

theorem firstRefusal_none {op : Opcode} {s : State} (h : Opcode.legalOn op s.cur = true)
    (hf : (s.status.fault && Opcode.frozenByFault op) = false) :
    firstRefusal op false s = none := by simp [firstRefusal, h, hf]

/-- What an admitted command has met. -/
theorem firstRefusal_eq_none_iff (op : Opcode) (b : Bool) (s : State) : firstRefusal op b s = none ↔
    Opcode.legalOn op s.cur = true ∧ (s.status.fault && Opcode.frozenByFault op) = false ∧ b = false := by
  unfold firstRefusal
  split_ifs with h1 h2 h3 <;> simp_all

/-- A command either raises one error, with no effect but ERR and zero words, or has its own effect. -/
theorem guarded_cases (op : Opcode) (b : Bool) (s : State) (f : State → State) :
    (∃ e, firstRefusal op b s = some e ∧ guarded op b s f = raiseError e (Opcode.responseWords op) s) ∨
    (firstRefusal op b s = none ∧ guarded op b s f = f s) := by
  unfold guarded
  cases h : firstRefusal op b s
  · exact .inr ⟨rfl, rfl⟩
  · exact .inl ⟨_, rfl, rfl⟩

/-- A property of states that raising an error and the command's own effect both keep is kept by the command. -/
theorem guarded_keeps {P : State → Prop} {op : Opcode} {b : Bool} {s : State} {f : State → State}
    (hr : ∀ e, P (raiseError e (Opcode.responseWords op) s)) (hf : firstRefusal op b s = none → P (f s)) :
    P (guarded op b s f) := by
  rcases guarded_cases op b s f with ⟨e, -, h⟩ | ⟨h, h'⟩
  · rw [h]; exact hr e
  · rw [h']; exact hf h

/-! ### The configuration functions (R10) -/

theorem clampPM1_range {x : F64} (h : f64IsNaN x = false) : inPM1 (clampPM1 x) = true := by
  unfold clampPM1
  have h1 : f64Le (f64Neg f64One) (f64Neg f64One) = true := by decide
  have h2 : f64Le (f64Neg f64One) f64One = true := by decide
  have h3 : f64Le f64One f64One = true := by decide
  have n1 : f64IsNaN (f64Neg f64One) = false := by decide
  split_ifs with ha hb
  · simp [inPM1, h1, h2]
  · simp [inPM1, h2, h3]
  · rw [f64Lt_iff] at ha hb
    rw [inPM1, Bool.and_eq_true, f64Le_iff, f64Le_iff]
    refine ⟨⟨n1, h, ?_⟩, h, f64IsNaN_one, ?_⟩
    · by_contra hc; exact ha ⟨h, n1, by omega⟩
    · by_contra hc; exact hb ⟨f64IsNaN_one, h, by omega⟩

/-- `sin64` lies in [-1.0, 1.0] at every finite argument (R10). -/
theorem sin64_range {x : F64} (h : f64IsFinite x = true) : inPM1 (sin64 x) = true := by
  unfold sin64
  split_ifs with h0 h1
  · decide
  · decide
  · exact clampPM1_range (by simpa using h1)

/-- `exp64` lies in (0, 1) at every finite negative argument (R10). -/
theorem exp64_range {x : F64} (h : f64IsFinite x = true) (h0 : f64Lt x f64Zero = true) :
    f64Lt f64Zero (exp64 x) = true ∧ f64Lt (exp64 x) f64One = true := by
  unfold exp64
  rw [h, h0]
  simp only [Bool.and_self, if_true]
  split_ifs with h1
  · rwa [Bool.and_eq_true] at h1
  · decide

end Sys2Proof.Machine
end

