-- ==== Sys2Proof/Laws/Rounding.lean ====
section
/-! SUPPORT. Exact products, bounds and NaN-freedom of the binary64 operators, beyond Laws/Float.lean. -/

namespace Sys2Proof.Machine

open Sys2Proof

/-! ### Magnitudes -/

/-- A normal magnitude from its exponent and fraction. -/
theorem magUnits_of (frac e f : Nat) (hf : f < 2^frac) : magUnits frac ((e+1)*2^frac+f) = (2^frac+f)*2^e := by
  have hp : 0 < 2^frac := by positivity
  unfold magUnits
  rw [mul_comm (e+1), Nat.mul_add_div hp, Nat.mul_add_mod, Nat.div_eq_of_lt hf, Nat.mod_eq_of_lt hf]
  simp

/-- A product of fewer than 2^53 units and a power of two is a magnitude. -/
theorem mag_of (a j : Nat) (ha : 0 < a) (hb : a < 2^53) (hj : 52 ≤ j) : ∃ M, 2^52 ≤ M ∧ magUnits 52 M = a * 2^j := by
  have hk : Nat.log2 a ≤ 52 := by
    have := (Nat.log2_lt (by omega)).2 hb; omega
  have h1 := Nat.log2_self_le (n := a) (by omega)
  have h2 := Nat.lt_log2_self (n := a)
  generalize Nat.log2 a = k at *
  have e1 : 2^k * 2^(52-k) = 2^52 := by rw [← pow_add]; congr 1; omega
  have e2 : 2^(k+1) * 2^(52-k) = 2^53 := by rw [← pow_add]; congr 1; omega
  have l1 : 2^52 ≤ a * 2^(52-k) := e1 ▸ Nat.mul_le_mul_right _ h1
  have l2 : a * 2^(52-k) < 2^53 := e2 ▸ Nat.mul_lt_mul_of_pos_right h2 (by positivity)
  refine ⟨(j-52+k+1) * 2^52 + (a * 2^(52-k) - 2^52), by omega, ?_⟩
  have e := magUnits_of 52 (j-52+k) (a*2^(52-k)-2^52) (by omega)
  have t : 2^52 + (a * 2^(52-k) - 2^52) = a * 2^(52-k) := by omega
  rw [t] at e
  refine e.trans ?_
  have h9 : 52 - k + (j-52+k) = j := by omega
  have e3 : 2^(52-k) * 2^(j-52+k) = 2^j := by rw [← pow_add, h9]
  rw [← e3, mul_assoc]

/-- Two different magnitudes differ by at least 2^-53 of the larger. -/
theorem magUnits_gap (m n : Nat) (h : m < n) : magUnits 52 n ≤ 2^53 * (magUnits 52 n - magUnits 52 m) := by
  have hm : magUnits 52 m ≤ magUnits 52 (n-1) := (magUnits_le_iff 52 _ _).2 (by omega)
  suffices hh : magUnits 52 n ≤ 2^53 * (magUnits 52 n - magUnits 52 (n-1)) by omega
  rcases Nat.lt_or_ge n (2^52) with h1 | h1
  · unfold magUnits; rw [if_pos (by omega), if_pos (by omega)]; omega
  · obtain ⟨E, f, hf, rfl⟩ : ∃ E f, f < 2^52 ∧ n = (E+1)*2^52+f := ⟨n/2^52-1, n%2^52, Nat.mod_lt _ (by norm_num), by omega⟩
    rw [magUnits_of _ _ _ hf]
    rcases Nat.eq_zero_or_pos f with h0 | h0
    · subst h0
      rcases E with _ | E
      · have : magUnits 52 ((0+1)*2^52+0-1) = 2^52-1 := by decide +kernel
        rw [this]; norm_num
      · rw [show (E+1+1)*2^52+0-1 = (E+1)*2^52 + (2^52-1) by omega, magUnits_of _ _ _ (by norm_num), show 2^(E+1) = 2*2^E from pow_succ' 2 E]
        clear hm h
        generalize 2^E = P
        have e1 : (2^52+0) * (2*P) = 2^53*P := by ring
        have e2 : (2^52+(2^52-1))*P = 2^53*P - P := by rw [show 2^52+(2^52-1) = 2^53-1 by norm_num, Nat.sub_mul, one_mul]
        rw [e1,e2]; omega
    · rw [show (E+1)*2^52+f-1 = (E+1)*2^52+(f-1) by omega, magUnits_of _ _ _ (by omega)]
      have : (2^52+f)*2^E - (2^52+(f-1))*2^E = 2^E := by
        rw [← Nat.sub_mul]; rw [show 2^52+f-(2^52+(f-1)) = 1 by omega, one_mul]
      rw [this]
      exact Nat.mul_le_mul_right _ (by omega)

/-- Rounding adds at most half a unit. -/
theorem roundDiv_near (n d : Nat) (hd : 0 < d) : 2 * (d * roundDiv n d) ≤ 2 * n + d := by
  have h := Nat.div_add_mod n d
  have hl := Nat.mod_lt n hd
  have e : d * (n/d+1) = d * (n/d) + d := by rw [Nat.mul_add, Nat.mul_one]
  unfold roundDiv
  split_ifs <;> (try rw [e]) <;> generalize d * (n/d) = X at * <;> omega

/-- The rounding of a quotient whose leading bit is known. -/
theorem roundMag_of_log {frac n d l : Nat} (h : Nat.log2 (n/d) = l) : roundMag frac n d = (l-frac)*2^frac + roundDiv n (d*2^(l-frac)) := by
  subst h; rfl

theorem log2_eq {n k : Nat} (h1 : 2^k ≤ n) (h2 : n < 2^(k+1)) : Nat.log2 n = k := by
  have h0 : n ≠ 0 := by have : 0 < 2^k := by positivity
                        omega
  have a := (Nat.log2_lt h0).2 h2
  have b := (Nat.le_log2 h0).2 h1
  omega

/-! ### Results in [-1, 1] -/

/-- In [-1, 1] is a bound on the magnitude. -/
theorem inPM1_iff (x : F64) : inPM1 x = true ↔ f64Mag x ≤ 0x3FF0000000000000 := by
  unfold inPM1
  rw [Bool.and_eq_true, f64Le_iff, f64Le_iff, f64Key_neg, f64Key_one, f64IsNaN_neg]
  have hn : f64IsNaN x = decide (infMag64 < f64Mag x) := rfl
  have hi : infMag64 = 0x7FF0000000000000 := rfl
  constructor
  · rintro ⟨⟨-, h, h1⟩, -, -, h2⟩
    unfold f64Key at h1 h2; split at h1 <;> rename_i hh <;> simp [hh] at h2 <;> omega
  · intro h
    have h3 : f64IsNaN x = false := by rw [hn]; apply decide_eq_false; omega
    refine ⟨⟨f64IsNaN_one, h3, ?_⟩, h3, f64IsNaN_one, ?_⟩ <;> unfold f64Key <;> split <;> omega

theorem mul_pm1 {a b : F64} (ha : inPM1 a = true) (hb : inPM1 b = true) : inPM1 (f64Mul a b) = true := by
  rw [inPM1_iff] at *
  have hi : infMag64 = 0x7FF0000000000000 := rfl
  have fa : f64IsFinite a = true := by unfold f64IsFinite; apply decide_eq_true; omega
  have fb : f64IsFinite b = true := by unfold f64IsFinite; apply decide_eq_true; omega
  unfold f64Mul
  simp only [f64IsFinite_notNaN fa, f64IsFinite_notNaN fb, f64IsFinite_notInf fa, f64IsFinite_notInf fb, Bool.or_self, Bool.false_eq_true, if_false, f64Mag_round]
  refine (min_le_right _ _).trans ?_
  apply roundMag_le unit_pos
  rw [f64Units_natAbs, f64Units_natAbs, magUnits_one]
  have h1 := (magUnits_le_iff 52 _ _).2 ha
  have h2 := (magUnits_le_iff 52 _ _).2 hb
  rw [magUnits_one] at h1 h2
  exact Nat.mul_le_mul h1 h2

theorem pm1_of_unit {a : F64} (h : inUnit a = true) : inPM1 a = true := by
  rw [inPM1_iff]; rw [inUnit_iff] at h
  have := key_eq_mag (key_nonneg_of_sign h.1); omega

/-! ### Results that are no NaN -/

theorem f64NaN_isNaN (op a b) : f64IsNaN (f64NaN op a b) = true := by
  unfold f64NaN; split_ifs with h
  · exact h
  · decide

theorem isNaN_inf (b) : f64IsNaN (f64Inf b) = false := by cases b <;> decide

theorem mul_fin_fin {a b : F64} (fa : f64IsFinite a = true) (fb : f64IsFinite b = true) : f64IsNaN (f64Mul a b) = false := by
  unfold f64Mul
  simp [f64IsFinite_notNaN fa, f64IsFinite_notNaN fb, f64IsFinite_notInf fa, f64IsFinite_notInf fb]

theorem mul_nan {a b : F64} (na : f64IsNaN a = false) (pb : f64Lt f64Zero b = true) (fb : f64IsFinite b = true) : f64IsNaN (f64Mul a b) = false := by
  rcases inf_or_finite na with h | h
  · unfold f64Mul
    have hz : f64IsZero a = false := by
      have : f64Mag a = infMag64 := by simpa [f64IsInf] using h
      simp [f64IsZero, this]; decide
    simp [na, f64IsFinite_notNaN fb, h, hz, pos_not_zero pb, isNaN_inf]
  · exact mul_fin_fin h fb

theorem add_fin_nan (op) {a b : F64} (na : f64IsNaN a = false) (fb : f64IsFinite b = true) : f64IsNaN (f64AddAs op a b) = false := by
  unfold f64AddAs
  simp only [na, f64IsFinite_notNaN fb, f64IsFinite_notInf fb, Bool.or_self, Bool.false_eq_true, if_false, Bool.false_and]
  split_ifs
  · exact na
  · cases (f64Neg? a && f64Neg? b) <;> decide
  · exact f64IsNaN_round _ _ _

theorem add_fin_nan' (op) {a b : F64} (nb : f64IsNaN b = false) (fa : f64IsFinite a = true) : f64IsNaN (f64AddAs op a b) = false := by
  unfold f64AddAs
  simp only [nb, f64IsFinite_notNaN fa, f64IsFinite_notInf fa, Bool.or_self, Bool.false_eq_true, if_false, Bool.false_and]
  split_ifs
  · exact nb
  · cases (f64Neg? a && f64Neg? b) <;> decide
  · exact f64IsNaN_round _ _ _

/-- A remainder of a finite value is finite (R12). -/
theorem fmod_fin {t p : F64} (ft : f64IsFinite t = true) (np : f64IsNaN p = false) (hz : f64IsZero p = false) : f64IsFinite (f64Fmod t p) = true := by
  unfold f64Fmod
  simp only [f64IsFinite_notNaN ft, np, f64IsFinite_notInf ft, hz, Bool.or_self, Bool.false_eq_true, if_false]
  split_ifs
  · exact ft
  · unfold f64IsFinite
    rw [f64Mag_round, decide_eq_true_eq]
    have h1 : roundMag 52 ((f64Units t).natAbs % (f64Units p).natAbs) 1 ≤ f64Mag t := by
      apply roundMag_le Nat.one_pos
      rw [← f64Units_natAbs, mul_one]; exact Nat.mod_le _ _
    have h2 : f64Mag t < infMag64 := by simpa [f64IsFinite] using ft
    omega

/-- The period 1/f of a finite positive f is no NaN and not zero (R205). -/
theorem recip {f : F64} (ff : f64IsFinite f = true) (pf : f64Lt f64Zero f = true) : f64IsNaN (f64Div f64One f) = false ∧ f64IsZero (f64Div f64One f) = false := by
  obtain ⟨h1, h2⟩ := f64Div_nonneg (a := f64One) (by decide) pf f64IsFinite_one ff
  refine ⟨h1, ?_⟩
  have hs := f64Neg?_div (a := f64One) f64IsFinite_one ff pf
  have hk : 0 < f64Key (f64Div f64One f) := by
    rw [h2, f64Units_one]
    have hd : 0 < (f64Units f).natAbs := units_pos pf
    have hu : (f64Units f).natAbs ≤ 2^2098 := by
      rw [f64Units_natAbs]
      have : f64Mag f ≤ 0x7FEFFFFFFFFFFFFF := by
        have h : f64Mag f < 0x7FF0000000000000 := by
          have := ff; unfold f64IsFinite at this; exact of_decide_eq_true this
        omega
      refine ((magUnits_le_iff 52 _ _).2 this).trans ?_
      decide +kernel
    have : 1 ≤ roundMag 52 ((2 ^ 1074 : Int).natAbs * 2 ^ unitExp64) (f64Units f).natAbs := by
      apply le_roundMag hd
      rw [show magUnits 52 1 = 1 by decide, one_mul]
      refine hu.trans ?_
      rw [show unitExp64 = 1074 from rfl, show ((2:Int)^1074).natAbs = 2^1074 by norm_num [Int.natAbs_pow], ← pow_add]; exact Nat.pow_le_pow_right (by norm_num) (by norm_num)
    have hi : 1 ≤ infMag64 := by decide
    have : 1 ≤ min infMag64 (roundMag 52 ((2 ^ 1074 : Int).natAbs * 2 ^ unitExp64) (f64Units f).natAbs) := le_min hi this
    exact Int.natCast_pos.2 this
  have := key_eq_mag hk.le
  simp [f64IsZero]; omega

theorem f64Le_of_nonneg_neg {x} (h : f64IsNaN x = false) (h0 : f64Neg? x = false) : f64Le f64Zero x = true := by
  rw [nonneg_iff]; exact ⟨h, key_nonneg_of_sign h0⟩

theorem add_sign {a b : F64} (ha : f64Neg? a = false) (hb : f64Neg? b = false) (na : f64IsNaN a = false) (nb : f64IsNaN b = false) : f64Neg? (f64Add a b) = false := by
  unfold f64Add f64AddAs
  simp only [na, nb, Bool.or_self, ha, hb, bne_self_eq_false, Bool.and_false, Bool.false_eq_true, if_false]
  have h1 : 0 ≤ f64Units a := units_nonneg (key_nonneg_of_sign ha)
  have h2 : 0 ≤ f64Units b := units_nonneg (key_nonneg_of_sign hb)
  split_ifs
  · exact ha
  · exact hb
  · rw [f64Neg?_pack _ _ (by norm_num)]
  · rw [f64Neg?_round]; simp; omega

/-! ### Rates and sample counts -/

theorem legal_pos {r : F64} (h : legalRate r = true) : f64Lt f64Zero r = true := by
  unfold legalRate at h; simp at h; exact h.1.2

theorem ofInt_nonneg (n : Nat) : f64IsNaN (f64OfInt n) = false ∧ f64Neg? (f64OfInt n) = false := by
  unfold f64OfInt
  rw [f64IsNaN_round, f64Neg?_round]; simp

theorem ofInt_finite16 : ∀ n : Nat, n < 65536 → f64IsFinite (f64OfInt n) = true := by
  intro n hn
  unfold f64IsFinite f64OfInt
  rw [f64Mag_round]
  simp only [Int.natAbs_natCast, decide_eq_true_eq]
  have h1 : roundMag 52 (n * 2^unitExp64) 1 ≤ 0x40F0000000000000 := by
    apply roundMag_le (by norm_num)
    have : magUnits 52 0x40F0000000000000 = 65536 * 2^unitExp64 := by decide +kernel
    rw [this, mul_one]
    exact Nat.mul_le_mul_right _ (by omega)
  have : (0x40F0000000000000 : Nat) < infMag64 := by decide
  omega

/-- The Clock's advance is a non-negative number under a legal rate (R131). -/
theorem div_sr_sign {a r : F64} (ha : f64Neg? a = false) (fa : f64IsFinite a = true) (h : legalRate r = true) : f64IsNaN (f64Div a r) = false ∧ f64Neg? (f64Div a r) = false := by
  have hp := legal_pos h
  have fr : f64IsFinite r = true := by unfold legalRate at h; simp at h; exact h.1.1
  have hn := f64IsFinite_notNaN fa
  refine ⟨(f64Div_nonneg (f64Le_of_nonneg_neg hn ha) hp fa fr).1, ?_⟩
  rw [f64Neg?_div fa fr hp]; exact ha

/-! ### Knob positions -/

/-- Widening a position from +0.0 to 1.0 is exact (R12). -/
theorem widen_units {y : F32} (h : y.toNat ≤ 0x3F800000) : f64Neg? (f64OfF32 y) = false ∧ f64Units (f64OfF32 y) = (magUnits 23 y.toNat : Int) * 2 ^ 925 ∧ (f64Mag (f64OfF32 y) = 0 ∨ 2^52 ≤ f64Mag (f64OfF32 y)) := by
  have hm : f32Mag y = y.toNat := Nat.mod_eq_of_lt (by omega)
  have hn : f32IsNaN y = false := by simp [f32IsNaN, hm, infMag32]; omega
  have hi : ¬ (f32Mag y = infMag32) := by rw [hm, infMag32]; omega
  have hs : f32Neg? y = false := by
    simp only [f32Neg?, BitVec.msb_eq_decide, decide_eq_false_iff_not]; omega
  have hu : magUnits 23 (f32Mag y) ≤ 2 ^ 149 := by
    rw [← magUnits32_one, magUnits_le_iff, hm]; exact h
  have hM : ∃ M, (M = 0 ∨ 2^52 ≤ M) ∧ magUnits 52 M = magUnits 23 y.toNat * 2^925 := by
    by_cases h0 : y.toNat = 0
    · exact ⟨0, .inl rfl, by rw [h0]; simp⟩
    · unfold magUnits
      split_ifs with he
      · obtain ⟨M, h1, h2⟩ := mag_of (y.toNat % 2^23) 925 (by omega) (by omega) (by norm_num)
        exact ⟨M, .inr h1, h2⟩
      · obtain ⟨M, h1, h2⟩ := mag_of (2^23 + y.toNat % 2^23) (y.toNat / 2^23 - 1 + 925) (by omega) (by omega) (by omega)
        refine ⟨M, .inr h1, ?_⟩
        rw [mul_assoc, ← pow_add]; exact h2
  obtain ⟨M, h1, h2⟩ := hM
  have hle : M ≤ 0x3FF0000000000000 := by
    rw [← magUnits_le_iff 52, h2, magUnits_one, show (1074 : Nat) = 149 + 925 by norm_num, pow_add]
    rw [hm] at hu
    exact Nat.mul_le_mul_right _ hu
  have hmag : f64Mag (f64OfF32 y) = M := by
    unfold f64OfF32
    rw [hn, if_neg (by simp), if_neg hi, f64Mag_round, hm, ← h2, roundMag_exact]
    have : infMag64 = 0x7FF0000000000000 := rfl
    omega
  have hneg : f64Neg? (f64OfF32 y) = false := by
    unfold f64OfF32
    rw [hn, if_neg (by simp), if_neg hi, f64Neg?_round, hs]
  refine ⟨hneg, ?_, by rw [hmag]; exact h1⟩
  unfold f64Units
  rw [hneg, hmag, h2]; push_cast; rfl

/-- `clamp01` over all patterns, by their number (R12). -/
theorem clamp_cases (x : F32) : ((f32IsNaN x = true ∨ 0x80000000 ≤ x.toNat) ∧ clamp01 x = f32Zero) ∨
   ((f32IsNaN x = false ∧ 0x3F800000 ≤ x.toNat ∧ x.toNat < 0x80000000) ∧ clamp01 x = f32One) ∨ (x.toNat < 0x3F800000 ∧ clamp01 x = x) := by
  have hx := x.isLt
  have hz : f32Key f32Zero = 0 := by decide
  have ho : f32Key f32One = 0x3F800000 := by decide
  have nz : f32IsNaN f32Zero = false := by decide
  have no : f32IsNaN f32One = false := by decide
  have hk : f32Key x = if 2^31 ≤ x.toNat then -((x.toNat - 2^31 : Nat) : Int) else x.toNat := by
    unfold f32Key f32Neg? f32Mag
    rw [BitVec.msb_eq_decide]
    by_cases h : 2^31 ≤ x.toNat
    · have : x.toNat % 2^31 = x.toNat - 2^31 := by omega
      simp only [h, this, decide_true, decide_false, if_true, if_false, Bool.false_eq_true]
    · have : x.toNat % 2^31 = x.toNat := by omega
      simp only [h, this, decide_true, decide_false, if_true, if_false, Bool.false_eq_true]
  unfold clamp01
  cases hn : f32IsNaN x
  · simp only [f32Le, hn, nz, no, hz, ho, hk, Bool.not_false, Bool.true_and, Bool.false_or, decide_eq_true_eq]
    by_cases h31 : 2^31 ≤ x.toNat
    · left; rw [if_pos h31, if_pos (by omega)]; exact ⟨.inr h31, rfl⟩
    · rw [if_neg h31]
      by_cases h0 : x.toNat = 0
      · right; right
        rw [if_pos (by omega)]
        exact ⟨by omega, by apply BitVec.eq_of_toNat_eq; rw [h0]; rfl⟩
      · rw [if_neg (by omega)]
        by_cases h1 : 0x3F800000 ≤ x.toNat
        · right; left; rw [if_pos (by exact_mod_cast h1)]; exact ⟨⟨trivial, h1, by omega⟩, rfl⟩
        · right; right; rw [if_neg (by intro h; apply h1; exact_mod_cast h)]; exact ⟨by omega, rfl⟩
  · left; simp

end Sys2Proof.Machine
end

