-- ==== Sys2Proof/Laws/EnvelopeTime.lean ====
section
/-! SUPPORT. How an evaluation of the envelope depends on time (R174, R176, R177, R179). -/

namespace Sys2Proof.Machine

open Sys2Proof

theorem not_nonneg_nan {x : F64} (h : f64IsNaN x = true) : f64Le f64Zero x = false := by
  unfold f64Le; simp [h]

theorem inf_cases {x : F64} (h : f64IsInf x = true) : x = f64Inf (f64Neg? x) := by
  have : f64Mag x = infMag64 := by simpa [f64IsInf] using h
  unfold f64Inf; rw [← this]; exact f64_eq_pack x

/-- Elapsed time does not decrease with time (R174). -/
theorem elapsed_mono {t t' st : F64} (h : f64Le t t' = true) : f64Le (elapsed t st) (elapsed t' st) = true := by
  have hz : f64Le f64Zero f64Zero = true := by decide
  have h' := h
  rw [f64Le_iff] at h'
  obtain ⟨nt, nt', hk⟩ := h'
  have npi : f64IsNaN (f64Inf false) = false := by decide
  have kpi : f64Key (f64Inf false) = infMag64 := by decide
  suffices hh : f64Le f64Zero (f64Sub t st) = true → f64Le (f64Sub t st) (f64Sub t' st) = true by
    unfold elapsed
    split_ifs with h1 h2 h2
    · exact hh h1
    · exact absurd (nonneg_trans h1 (hh h1)) h2
    · exact h2
    · exact hz
  intro h0
  cases nst : f64IsNaN st
  swap
  · exfalso
    have : f64IsNaN (f64Sub t st) = true := by
      unfold f64Sub f64AddAs; rw [f64IsNaN_neg, nst]; simp [f64NaN_isNaN]
    rw [not_nonneg_nan this] at h0; cases h0
  rcases inf_or_finite nst with ist | fst
  · have iN : f64IsInf (f64Neg st) = true := by rw [f64IsInf_neg]; exact ist
    have nN : f64IsNaN (f64Neg st) = false := by rw [f64IsNaN_neg]; exact nst
    have gen : ∀ u, f64IsNaN u = false → f64Sub u st = if f64IsInf u = true ∧ f64Neg? u = f64Neg? st then f64NaN .sub u (f64Neg st) else f64Neg st := by
      intro u nu
      unfold f64Sub f64AddAs
      simp only [nu, nN, iN, Bool.or_self, Bool.false_eq_true, if_false, Bool.true_and, if_true, f64Neg?_neg]
      cases hu : f64IsInf u
      · simp
      · by_cases e : f64Neg? u = f64Neg? st
        · simp [e]
        · have e' : f64Neg? u = !f64Neg? st := by cases h1 : f64Neg? u <;> cases h2 : f64Neg? st <;> simp_all
          simp [e']
          rw [inf_cases hu, inf_cases iN, f64Neg?_neg, e']
    rw [gen t nt] at h0 ⊢
    split_ifs at h0 ⊢ with c
    · rw [not_nonneg_nan (f64NaN_isNaN _ _ _)] at h0; cases h0
    · rw [gen t' nt']
      have hneg : f64Neg? (f64Neg st) = false := inf_nonneg_sign iN (by rw [nonneg_iff] at h0; exact h0.2)
      have hst : f64Neg? st = true := by rw [f64Neg?_neg] at hneg; simpa using hneg
      split_ifs with c'
      · exfalso
        -- t' = -inf, so t = -inf
        have kt' : f64Key t' = -infMag64 := by
          have := inf_cases c'.1; rw [c'.2, hst] at this; rw [this]; decide
        have kt : f64Key t = -infMag64 := by
          have hm : f64Mag t ≤ infMag64 := by simpa [f64IsNaN] using nt
          rw [kt'] at hk
          have : - (infMag64 : Int) ≤ f64Key t := by unfold f64Key; split_ifs <;> omega
          omega
        apply c
        have hi : (0:Int) < infMag64 := by decide
        unfold f64Key at kt
        split_ifs at kt with hn
        · refine ⟨?_, by rw [hn, hst]⟩
          unfold f64IsInf; rw [beq_iff_eq]; omega
        · omega
      · rw [f64Le_iff]; exact ⟨nN, nN, le_rfl⟩
  · have fN : f64IsFinite (f64Neg st) = true := by rw [f64IsFinite_neg]; exact fst
    rcases inf_or_finite nt with it | ft
    · have e : f64Sub t st = t := by
        unfold f64Sub f64AddAs
        simp [nt, f64IsFinite_notNaN fN, f64IsFinite_notInf fN, it]
      rw [e] at h0 ⊢
      rw [nonneg_iff] at h0
      have kt := key_inf it h0.2
      have it' : f64IsInf t' = true := by
        have hm : f64Mag t' ≤ infMag64 := by simpa [f64IsNaN] using nt'
        unfold f64IsInf; rw [beq_iff_eq]
        have := key_eq_mag (h0.2.trans hk); omega
      have e' : f64Sub t' st = t' := by
        unfold f64Sub f64AddAs
        simp [nt', f64IsFinite_notNaN fN, f64IsFinite_notInf fN, it']
      rw [e']; exact h
    · rcases inf_or_finite nt' with it' | ft'
      · have e' : f64Sub t' st = t' := by
          unfold f64Sub f64AddAs
          simp [nt', f64IsFinite_notNaN fN, f64IsFinite_notInf fN, it']
        rw [e']
        have hneg : f64Neg? t' = false := by
          by_contra hc
          have : f64Neg? t' = true := by simpa using hc
          have kt' : f64Key t' = -infMag64 := by rw [inf_cases it', this]; decide
          have hm : f64Mag t < infMag64 := by have := ft; unfold f64IsFinite at this; exact of_decide_eq_true this
          rw [kt'] at hk; unfold f64Key at hk; split_ifs at hk <;> omega
        rw [nonneg_iff] at h0
        rw [f64Le_iff]
        refine ⟨h0.1, nt', ?_⟩
        rw [inf_cases it', hneg, kpi]; exact key_le_inf h0.1
      · exact f64Add_mono_finite .sub ft fN ft' fN h (f64Le_refl (f64IsFinite_notNaN fN))

/-- A stage that is done stays done (R172). -/
theorem stageDone_mono {c : Config} {d e e' : F64} (h : stageDone c d e = true) (hle : f64Le e e' = true) : stageDone c d e' = true := by
  unfold stageDone at *
  rw [Bool.or_eq_true] at *
  rcases h with h | h
  · exact .inl h
  · exact .inr (f64Le_trans h hle)

/-- The elapsed fraction of a stage not done is below 1.0. -/
theorem frac_lt {c : Config} {d e : F64} (fd : f64IsFinite d = true) (he : f64Le f64Zero e = true) (h : stageDone c d e = false) : f64Key (f64Div e d) ≤ 0x3FEFFFFFFFFFFFFF := by
  obtain ⟨h1, h2⟩ := not_stageDone (f64IsFinite_notNaN fd) he h
  have fe := finite_of_le he h2 fd
  obtain ⟨hn, hk⟩ := f64Div_nonneg he h1 fe fd
  rw [hk]
  have hq1 : magUnits 52 0x3FEFFFFFFFFFFFFF = (2^53-1) * 2^1021 := by
    rw [show 0x3FEFFFFFFFFFFFFF = (1021+1)*2^52 + (2^52-1) by norm_num, magUnits_of _ _ _ (by norm_num)]
    rw [show (2^52 + (2^52-1) : Nat) = 2^53-1 by norm_num]
  have hlt : f64Mag e < f64Mag d := by
    rw [stageDone, Bool.or_eq_false_iff] at h
    have h3 : ¬ (f64Le d e = true) := by rw [h.2]; simp
    rw [f64Le_iff] at h3
    rw [nonneg_iff] at he
    have ke := key_eq_mag he.2
    have kd := key_eq_mag (show 0 ≤ f64Key d by rw [f64Lt_iff, f64Key_zero] at h1; omega)
    by_contra hc
    exact h3 ⟨f64IsFinite_notNaN fd, he.1, by omega⟩
  have hg := magUnits_gap _ _ hlt
  have hu := magUnits_strictMono 52 _ _ hlt
  have : roundMag 52 ((f64Units e).natAbs * 2^unitExp64) (f64Units d).natAbs ≤ 0x3FEFFFFFFFFFFFFF := by
    apply roundMag_le (units_pos h1)
    rw [hq1, f64Units_natAbs, f64Units_natAbs]
    generalize magUnits 52 (f64Mag e) = E at *
    generalize magUnits 52 (f64Mag d) = D at *
    have e1 : E * 2^unitExp64 = (2^53 * E) * 2^1021 := by
      rw [show unitExp64 = 53 + 1021 from rfl, pow_add]; ring
    have e2 : (2^53-1) * 2^1021 * D = ((2^53-1) * D) * 2^1021 := by
      generalize (2^53-1 : Nat) = a; ring
    rw [e1, e2]
    apply Nat.mul_le_mul_right
    omega
  have h9 := (min_le_right infMag64 _).trans this
  exact Int.ofNat_le.2 h9

theorem roundMag_half_one (z : Nat) (h1 : 2^1073 ≤ z) (h2 : z < 2^1074) :
    roundMag 52 z 1 = 1021 * 2^52 + roundDiv z (2^1021) := by
  rw [roundMag_of_log (l := 1073) (by rw [Nat.div_one, log2_eq h1 h2]), one_mul]

theorem prod_bound (κ : Nat) (h1 : 2^52 ≤ κ) (h2 : κ ≤ 2^53) :
    roundMag 52 (((2^53-1) * 2^1021) * (κ * 2^1021)) (2^1074) ≤ 1021 * 2^52 + (κ - 1) ∨
    (κ = 2^52 ∧ roundMag 52 (((2^53-1) * 2^1021) * (κ * 2^1021)) (2^1074) ≤ 1020 * 2^52 + (2^53 - 1)) := by
  rcases Nat.lt_or_ge (2^52) κ with h | h
  · left
    have hq : ((2^53-1) * 2^1021) * (κ * 2^1021) / 2^1074 = (2^53-1) * κ * 2^968 := by
      have : ((2^53-1) * 2^1021) * (κ * 2^1021) = (2^53-1) * κ * 2^968 * 2^1074 := by
        generalize (2^53-1 : Nat) = a
        have : (2:Nat)^1021 * 2^1021 = 2^968 * 2^1074 := by rw [← pow_add, ← pow_add]
        calc _ = a * κ * (2^1021*2^1021) := by ring
          _ = _ := by rw [this]; ring
      rw [this, Nat.mul_div_cancel _ (by positivity)]
    have hlog : Nat.log2 ((2^53-1) * κ * 2^968) = 1073 := by
      apply log2_eq
      · rw [show (1073:Nat) = 105 + 968 by norm_num, pow_add]
        exact Nat.mul_le_mul_right _ (by omega)
      · rw [show (1073:Nat)+1 = 106 + 968 by norm_num, pow_add]
        exact Nat.mul_lt_mul_of_pos_right (by omega) (by positivity)
    rw [roundMag_of_log (l := 1073) (by rw [hq, hlog])]
    have e1 : ((2^53-1) * 2^1021) * (κ * 2^1021) = 2^2042 * ((2^53-1) * κ) := by
      generalize (2^53-1 : Nat) = a
      have : (2:Nat)^1021 * 2^1021 = 2^2042 := by rw [← pow_add]
      calc _ = a * κ * (2^1021*2^1021) := by ring
        _ = _ := by rw [this]; ring
    have e2 : 2^1074 * 2^(1073-52) = 2^2042 * 2^53 := by rw [← pow_add, ← pow_add]
    rw [e1, e2, roundDiv_mul_left _ _ _ (by positivity)]
    have e3 : (2^53-1) * κ = 2^53 * (κ-1) + (2^53 - κ) := by omega
    have hdiv : ((2^53-1) * κ) / 2^53 = κ - 1 := by omega
    have hmod : ((2^53-1) * κ) % 2^53 = 2^53 - κ := by omega
    have : roundDiv ((2^53-1) * κ) (2^53) = κ - 1 := by
      unfold roundDiv; rw [hdiv, hmod, if_pos (by omega)]
    rw [this]
  · right
    have hκ : κ = 2^52 := by omega
    subst hκ
    refine ⟨rfl, ?_⟩
    apply roundMag_le (by positivity)
    rw [show 1020 * 2^52 + (2^53-1) = (1020+1)*2^52 + (2^52-1) by norm_num, magUnits_of _ _ _ (by norm_num)]
    rw [show (2^52 + (2^52-1) : Nat) = 2^53-1 by norm_num]
    generalize (2^53-1 : Nat) = a
    have : (2:Nat)^1021 * (2^52 * 2^1021) = 2^1020 * 2^1074 := by rw [← pow_add, ← pow_add, ← pow_add]
    rw [mul_assoc, mul_assoc, this]

/-- The Decay's formula does not fall below the sustain level under rounding (R177). -/
theorem decay_ge {q s : F64} (hs : inUnit s = true) (hq0 : unit0 q) (hq : f64Key q ≤ 0x3FEFFFFFFFFFFFFF) :
    f64Le s (f64Sub f64One (f64Mul q (f64Sub f64One s))) = true := by
  have hc := inUnit_oneSub (unit0_of_inUnit hs)
  set c := f64Sub f64One s with hcdef
  have hp := unit0_mul hq0 (unit0_of_inUnit hc)
  set p := f64Mul q c with hpdef
  have fs := inUnit_finite hs
  have fc := inUnit_finite hc
  have fp := unit0_finite hp
  have fq := unit0_finite hq0
  -- reduce to an exact inequality
  suffices h : f64Units p ≤ 2^1074 - f64Units s by
    obtain ⟨hn, hk⟩ := f64Add_finite .sub f64IsFinite_one (b := f64Neg p) (by rw [f64IsFinite_neg]; exact fp)
    unfold f64Sub
    rw [f64Le_iff]
    refine ⟨f64IsFinite_notNaN fs, hn, ?_⟩
    rw [hk, f64Units_neg, f64Units_one, ← roundKey_units s (f64IsFinite_notNaN fs)]
    apply roundKey_mono
    generalize (2:Int)^1074 = U at *
    omega
  have us0 := units_nonneg (inUnit_key hs)
  have us1 := unit0_units (unit0_of_inUnit hs)
  have uc0 := units_nonneg (inUnit_key hc)
  have up0 := units_nonneg ((unit0_iff p).1 hp).2.1
  obtain ⟨hcn, hck⟩ := f64Add_finite .sub f64IsFinite_one (b := f64Neg s) (by rw [f64IsFinite_neg]; exact fs)
  have hck : f64Key c = roundKey (2^1074 - f64Units s) := by
    show f64Key (f64AddAs .sub f64One (f64Neg s)) = _
    rw [hck, f64Units_neg, f64Units_one, sub_eq_add_neg]
  -- z = 1 - s as a Nat
  obtain ⟨z, hz⟩ : ∃ z : Nat, (z : Int) = 2^1074 - f64Units s := ⟨(2^1074 - f64Units s).toNat, by
    have : (f64Units s).natAbs = f64Units s := by omega
    have h3 : ((f64Units s).natAbs : Int) ≤ 2 ^ 1074 := by exact_mod_cast us1
    generalize (2:Int)^1074 = U at *
    omega⟩
  rw [← hz] at hck ⊢
  have hzle : z ≤ 2^1074 := by
    have : (z : Int) ≤ 2^1074 := by rw [hz]; generalize (2:Int)^1074 = U at *; omega
    exact_mod_cast this
  have hinf : infMag64 = 0x7FF0000000000000 := rfl
  have hcm : f64Mag c = min infMag64 (roundMag 52 z 1) := by
    have := key_eq_mag (inUnit_key hc)
    rw [hck] at this
    unfold roundKey at this
    rw [if_neg (by omega), Int.natAbs_natCast] at this
    exact_mod_cast this.symm
  have hcm' : f64Mag c = roundMag 52 z 1 := by
    have h1 : f64Mag c ≤ 0x3FF0000000000000 := by
      have h4 := key_eq_mag (inUnit_key hc); have h5 := (inUnit_iff c).1 hc; clear hcm hck hz hzle us1; omega
    clear hck hz hzle us1; omega
  -- p against pred(1) * c
  have hpk : f64Mag p = min infMag64 (roundMag 52 (magUnits 52 (f64Mag q) * magUnits 52 (f64Mag c)) (2^unitExp64)) := by
    rw [hpdef]; unfold f64Mul
    simp only [f64IsFinite_notNaN fq, f64IsFinite_notNaN fc, f64IsFinite_notInf fq, f64IsFinite_notInf fc, Bool.or_self, Bool.false_eq_true, if_false, f64Mag_round, f64Units_natAbs]
  have hqm : f64Mag q ≤ 0x3FEFFFFFFFFFFFFF := by
    have := key_eq_mag ((unit0_iff q).1 hq0).2.1; omega
  have hpu : f64Units p = magUnits 52 (f64Mag p) := by
    have := f64Units_natAbs p; omega
  rw [hpu]
  suffices h : magUnits 52 (f64Mag p) ≤ z by exact_mod_cast h
  have hpc : f64Mag p ≤ f64Mag c := by
    rw [hpk]
    refine (min_le_right _ _).trans ?_
    apply roundMag_le unit_pos
    have h1 := (magUnits_le_iff 52 _ _).2 (show f64Mag q ≤ 0x3FF0000000000000 by omega)
    rw [magUnits_one] at h1
    rw [mul_comm (magUnits 52 (f64Mag c))]
    exact Nat.mul_le_mul_right _ h1
  rcases Nat.lt_or_ge z (2^1073) with hlt | hge
  · -- s > 1/2: c is exact
    have hsm : 0x3FE0000000000000 ≤ f64Mag s := by
      rw [← magUnits_le_iff 52, ← f64Units_natAbs]
      have e : magUnits 52 0x3FE0000000000000 = 2^1073 := by
        rw [show 0x3FE0000000000000 = (1021+1)*2^52 + 0 by norm_num, magUnits_of _ _ _ (by norm_num), add_zero, ← pow_add]
      rw [e]
      have h1 : (z : Int) < 2^1073 := by exact_mod_cast hlt
      have h2 : (2:Int)^1074 = 2 * 2^1073 := by rw [← pow_succ']
      rw [hz, h2] at h1
      have : (2^1073 : Int) ≤ ((f64Units s).natAbs : Int) := by
        clear hz hzle hlt us1 e hpk; generalize (2:Int)^1073 = U at *; omega
      exact_mod_cast this
    have hs1 : f64Mag s ≤ 0x3FF0000000000000 := by
      have := key_eq_mag (inUnit_key hs); have := (inUnit_iff s).1 hs; omega
    have hex : ∃ M, magUnits 52 M = z := by
      rcases Nat.eq_zero_or_pos z with h0 | h0
      · exact ⟨0, by rw [h0]; simp⟩
      · have hs2 : f64Mag s ≠ 0x3FF0000000000000 := by
          intro h
          have : (f64Units s).natAbs = 2^1074 := by rw [f64Units_natAbs, h, magUnits_one]
          have h3 : ((f64Units s).natAbs : Int) = 2^1074 := by exact_mod_cast this
          clear this hzle hlt us1 hpk; generalize (2:Int)^1074 = U at *; omega
        have hsu : magUnits 52 (f64Mag s) = (2^52 + f64Mag s % 2^52) * 2^1021 := by
          have : f64Mag s = (1021+1)*2^52 + f64Mag s % 2^52 := by omega
          conv_lhs => rw [this]
          rw [magUnits_of _ _ _ (Nat.mod_lt _ (by norm_num))]
        have hr : f64Mag s % 2^52 < 2^52 := Nat.mod_lt _ (by norm_num)
        generalize f64Mag s % 2^52 = r at *
        have hzz : z = (2^52 - r) * 2^1021 := by
          have h3 : ((f64Units s).natAbs : Int) = (2^52 + r) * 2^1021 := by rw [f64Units_natAbs, hsu]; push_cast; ring
          have h4 : (z : Int) = (2^52 - r) * 2^1021 := by
            rw [hz, show f64Units s = ((f64Units s).natAbs : Int) from (Int.natAbs_of_nonneg us0).symm, h3]
            have : (2:Int)^1074 = 2^53 * 2^1021 := by rw [← pow_add]
            rw [this]; ring
          have : ((2^52 - r : Nat) : Int) = 2^52 - r := by omega
          rw [← this] at h4
          exact_mod_cast h4
        obtain ⟨M, -, hM⟩ := mag_of (2^52 - r) 1021 (by omega) (by omega) (by norm_num)
        exact ⟨M, by rw [hM, hzz]⟩
    obtain ⟨M, hM⟩ := hex
    have : f64Mag c = M := by rw [hcm', ← hM, roundMag_exact]
    rw [← hM, ← this]
    exact (magUnits_le_iff 52 _ _).2 hpc
  · -- c in [1/2, 1]
    have hκ : ∃ κ, 2^52 ≤ κ ∧ κ ≤ 2^53 ∧ f64Mag c = 1021 * 2^52 + κ ∧ 2 * (2^1021 * κ) ≤ 2 * z + 2^1021 := by
      rcases Nat.lt_or_ge z (2^1074) with h1 | h1
      · have e := roundMag_half_one z hge h1
        refine ⟨roundDiv z (2^1021), ?_, ?_, by rw [hcm', e], roundDiv_near z _ (by positivity)⟩
        · rw [← roundDiv_exact (2^52) (2^1021) (by positivity)]
          apply roundDiv_mono_same
          rw [← pow_add]; exact hge
        · rw [← roundDiv_exact (2^53) (2^1021) (by positivity)]
          apply roundDiv_mono_same
          rw [← pow_add]; exact h1.le
      · have : z = 2^1074 := le_antisymm hzle h1
        refine ⟨2^53, by norm_num, le_rfl, ?_, ?_⟩
        · rw [hcm', this, ← magUnits_one, roundMag_exact]; norm_num
        · rw [this, ← pow_add]; norm_num
    obtain ⟨κ, k1, k2, k3, k4⟩ := hκ
    have hcu : magUnits 52 (f64Mag c) = κ * 2^1021 := by
      rcases Nat.lt_or_ge κ (2^53) with h | h
      · rw [k3, show 1021 * 2^52 + κ = (1021+1)*2^52 + (κ - 2^52) by omega, magUnits_of _ _ _ (by omega), show 2^52 + (κ-2^52) = κ by omega]
      · have : κ = 2^53 := by omega
        rw [k3, this, show 1021 * 2^52 + 2^53 = (1022+1)*2^52 + 0 by norm_num, magUnits_of _ _ _ (by norm_num), add_zero, ← pow_add, ← pow_add]
    have hq1 : magUnits 52 0x3FEFFFFFFFFFFFFF = (2^53-1) * 2^1021 := by
      rw [show 0x3FEFFFFFFFFFFFFF = (1021+1)*2^52 + (2^52-1) by norm_num, magUnits_of _ _ _ (by norm_num)]
      rw [show (2^52 + (2^52-1) : Nat) = 2^53-1 by norm_num]
    have hp1 : f64Mag p ≤ roundMag 52 (((2^53-1) * 2^1021) * (κ * 2^1021)) (2^1074) := by
      rw [hpk, hcu]
      refine (min_le_right _ _).trans ?_
      apply roundMag_mono _ _ _ _ _ unit_pos (by positivity)
      have := (magUnits_le_iff 52 _ _).2 hqm
      rw [hq1] at this
      exact Nat.mul_le_mul_right _ (Nat.mul_le_mul_right _ this)
    have hg : ∀ a : Nat, 2 * a + 1 ≤ 2 * κ → a * 2^1021 ≤ z := by
      intro a ha
      have h1 := Nat.mul_le_mul_left (2^1021) ha
      have e1 : 2^1021*(2*a+1) = 2*(a*2^1021)+2^1021 := by ring
      have e2 : 2^1021*(2*κ) = 2*(2^1021*κ) := by ring
      rw [e1, e2] at h1
      have h2 := h1.trans k4
      clear h1 e1 e2 k4 hq1 hp1 hcu hpk hz hzle hge us1
      generalize a*2^1021 = A at *
      generalize (2:Nat)^1021 = g at *
      omega
    rcases prod_bound κ k1 k2 with h | ⟨h, h'⟩
    · have := (magUnits_le_iff 52 _ _).2 (hp1.trans h)
      rcases Nat.lt_or_ge (2^52) κ with hk | hk
      · refine this.trans ?_
        rw [show 1021 * 2^52 + (κ-1) = (1021+1)*2^52 + (κ - 1 - 2^52) by omega, magUnits_of _ _ _ (by omega), show 2^52 + (κ-1-2^52) = κ-1 by omega]
        exact hg _ (by omega)
      · have hk' : κ = 2^52 := by omega
        have hh : 1021 * 2^52 + (κ - 1) = (1020+1)*2^52 + (2^52 - 1) := by omega
        refine this.trans ?_
        rw [hh, magUnits_of _ _ _ (by norm_num)]
        have : 2 * ((2^52 + (2^52-1)) * 2^1020) ≤ 2 * z := by
          rw [hk'] at k4
          have e1 : 2 * ((2^52 + (2^52-1)) * 2^1020) = (2^53-1) * 2^1021 := by
            rw [pow_succ' 2 1020]; generalize (2:Nat)^1020 = g; omega
          rw [e1]
          generalize (2:Nat)^1021 = g at *
          omega
        omega
    · refine ((magUnits_le_iff 52 _ _).2 (hp1.trans h')).trans ?_
      rw [show 1020 * 2^52 + (2^53-1) = (1020+1)*2^52 + (2^52-1) by norm_num, magUnits_of _ _ _ (by norm_num)]
      have : 2 * ((2^52 + (2^52-1)) * 2^1020) ≤ 2 * z := by
        rw [h] at k4
        have e1 : 2 * ((2^52 + (2^52-1)) * 2^1020) = (2^53-1) * 2^1021 := by
          rw [pow_succ' 2 1020]; generalize (2:Nat)^1020 = g; omega
        rw [e1]
        generalize (2:Nat)^1021 = g at *
        omega
      omega

end Sys2Proof.Machine
end

