-- ==== Sys2Proof/Laws/PerInstr.lean ====
section
/-! SUPPORT. Statements made of every command as syntax, one lemma per constructor. -/

namespace Sys2Proof.Laws.RoundTrip

open Sys2Proof

/-- The command is read back from its own words, whatever follows them (`30_encoding.md` R100 to R105). -/
def Statement (i : Instr) : Prop :=
  ∀ rest : List Word, decode (encode i ++ rest) = .command i rest

theorem nop (rsv : BitVec 24) : Statement (.nop rsv) := fun rest => by
  simp [encode, decode, decodeAs]

theorem noteOn (pitch vel rsv : BitVec 8) : Statement (.noteOn pitch vel rsv) := fun rest => by
  simp [encode, decode, decodeAs]

theorem noteOff (pitch : BitVec 8) (rsv : BitVec 16) : Statement (.noteOff pitch rsv) := fun rest => by
  simp [encode, decode, decodeAs]

theorem setParam (idx : BitVec 8) (data : Word) (rsv : BitVec 16) : Statement (.setParam idx data rsv) :=
  fun rest => by simp [encode, decode, decodeAs]

theorem getParam (idx : BitVec 8) (rsv : BitVec 16) : Statement (.getParam idx rsv) := fun rest => by
  simp [encode, decode, decodeAs]

theorem setSampleRate (lo hi : Word) (rsv : BitVec 24) : Statement (.setSampleRate lo hi rsv) :=
  fun rest => by simp [encode, decode, decodeAs]

theorem render (nch : BitVec 8) (n : BitVec 16) : Statement (.render nch n) := fun rest => by
  simp [encode, decode, decodeAs]

theorem reset (rsv : BitVec 24) : Statement (.reset rsv) := fun rest => by
  simp [encode, decode, decodeAs]

theorem readStatus (rsv : BitVec 24) : Statement (.readStatus rsv) := fun rest => by
  simp [encode, decode, decodeAs]

theorem readClock (rsv : BitVec 24) : Statement (.readClock rsv) := fun rest => by
  simp [encode, decode, decodeAs]

theorem readEnv (rsv : BitVec 24) : Statement (.readEnv rsv) := fun rest => by
  simp [encode, decode, decodeAs]

end Sys2Proof.Laws.RoundTrip
end

