-- ==== Sys2Proof/Laws/Ports.lean ====
section
/-! SUPPORT. What receiving from a port does to it. -/

namespace Sys2Proof.Machine

open Sys2Proof

/-- Fewer than four bytes are left of a byte stream (R73). -/
theorem packBytes_rest_lt : ∀ bs : List Byte, (packBytes bs).2.length < 4
  | [] => by simp [packBytes]
  | [_] => by simp [packBytes]
  | [_, _] => by simp [packBytes]
  | [_, _, _] => by simp [packBytes]
  | _ :: _ :: _ :: _ :: rest => by
    simp only [packBytes]; exact packBytes_rest_lt rest

/-- Bytes already fewer than a word make no word and stay held. -/
theorem packBytes_short {bs : List Byte} (h : bs.length < 4) : packBytes bs = ([], bs) := by
  match bs, h with
  | [], _ => rfl
  | [_], _ => rfl
  | [_, _], _ => rfl
  | [_, _, _], _ => rfl
  | _ :: _ :: _ :: _ :: rest, h => simp at h; omega

/-- Dropping whole words of bytes drops the words they make. -/
theorem packBytes_drop : ∀ (k : Nat) (bs : List Byte), (packBytes (bs.drop (4 * k))).1 = (packBytes bs).1.drop k
  | 0, _ => rfl
  | _ + 1, [] | _ + 1, [_] | _ + 1, [_, _] | _ + 1, [_, _, _] => by simp [Nat.mul_succ, packBytes]
  | k + 1, _ :: _ :: _ :: _ :: rest => by
    simpa only [Nat.mul_succ, List.drop_succ_cons, packBytes] using packBytes_drop k rest

/-- The words before a port that has received all it was sent. -/
theorem received_words (q : Port) (fr : List Word) : (q.received fr).words = fr := by
  unfold Port.words Port.received
  simp only [List.append_nil]
  rw [packBytes_short (packBytes_rest_lt _), List.append_nil]

@[simp] theorem received_responses (q : Port) (fr : List Word) : (q.received fr).responses = q.responses := rfl

theorem received_framing (q : Port) {fr : List Word} (h : framePending fr = true) :
    (q.received fr).FramingInv := ⟨h, packBytes_rest_lt _⟩

/-- Dropping a port's first words leaves the words after them. -/
theorem dropWords_words (q : Port) (k : Nat) : (q.dropWords k).words = q.words.drop k := by
  unfold Port.dropWords Port.words
  split_ifs with h
  · simp only [List.nil_append, List.drop_append_of_le_length h]
  · simp only [List.nil_append, packBytes_drop]
    rw [List.drop_append, List.drop_eq_nil_of_le (Nat.le_of_not_le h), List.nil_append]

@[simp] theorem dropWords_responses (q : Port) (k : Nat) : (q.dropWords k).responses = q.responses := by
  unfold Port.dropWords; split <;> rfl

theorem dropWords_framing {q : Port} (k : Nat) (h : q.held.length < 4) : (q.dropWords k).FramingInv := by
  unfold Port.dropWords
  split
  · exact ⟨rfl, h⟩
  · exact ⟨rfl, Nat.zero_lt_succ 3⟩

/-- What taking a command out of a port answers (R103): the first `cmdLength` words when they are there,
otherwise nothing, and the words stay. -/
theorem takeCommand_cases (q : Port) :
    (q.words = [] ∧ q.takeCommand = (none, q.received [])) ∨
    (∃ w ws, q.words = w :: ws ∧ cmdLength w ≤ (w :: ws).length ∧
      q.takeCommand = (some ((w :: ws).take (cmdLength w)), q.dropWords (cmdLength w))) ∨
    (∃ w ws, q.words = w :: ws ∧ (w :: ws).length < cmdLength w ∧
      q.takeCommand = (none, q.received (w :: ws))) := by
  unfold Port.takeCommand
  rcases h : q.words with _ | ⟨w, ws⟩
  · exact .inl ⟨rfl, rfl⟩
  · by_cases hc : cmdLength w ≤ (w :: ws).length
    · exact .inr (.inl ⟨w, ws, rfl, hc, by simp only [hc, if_true]⟩)
    · exact .inr (.inr ⟨w, ws, rfl, by omega, by simp only [hc, if_false]⟩)

/-- A port keeps the framing invariant when a command is taken from it (R43, R73). -/
theorem takeCommand_framing {q : Port} (hq : q.FramingInv) : q.takeCommand.2.FramingInv := by
  rcases takeCommand_cases q with ⟨-, h⟩ | ⟨w, ws, -, -, h⟩ | ⟨w, ws, -, hl, h⟩ <;> rw [h]
  · exact received_framing q rfl
  · exact dropWords_framing _ hq.2
  · exact received_framing q (by simpa [framePending] using hl)

@[simp] theorem takeCommand_responses (q : Port) : q.takeCommand.2.responses = q.responses := by
  rcases takeCommand_cases q with ⟨-, h⟩ | ⟨w, ws, -, -, h⟩ | ⟨w, ws, -, -, h⟩ <;> rw [h]
  · rfl
  · exact dropWords_responses q _
  · rfl

/-! ### The port a hardware reset leaves (R331) -/

@[simp] theorem cleared_responses (q : Port) : q.cleared.responses = q.responses := rfl

theorem cleared_framing (q : Port) : q.cleared.FramingInv := ⟨rfl, by simp [Port.cleared]⟩

theorem cmdLength_pos (w : Word) : 0 < cmdLength w := by
  unfold cmdLength; split_ifs <;> omega

end Sys2Proof.Machine
end

