-- ==== Sys2Proof/Laws/Render.lean ====
section
/-! SUPPORT. What the sample loop of RENDER keeps and what it appends. -/

namespace Sys2Proof.Machine

open Sys2Proof

/-- What one sample does to the state: the envelope, `DC.y` and the output stream, nothing else (R234). -/
theorem sampleStep_eq (nch : BitVec 8) (t : F64) (s : State) : sampleStep nch t s =
    { s with
      env := envEvaluate s.cfg s.snap t s.env
      dcY := declick s.cfg s.alpha s.dcY (mix (evalEnvelope t s) t)
      out := if nch = 0 then s.out else s.out ++
        [List.replicate nch.toNat (f32OfF64 (declick s.cfg s.alpha s.dcY (mix (evalEnvelope t s) t)))] } := by
  unfold sampleStep emitSample emitFrame declickSample evalEnvelope
  split <;> simp_all

/-- A property that every sample keeps is kept by the loop. -/
theorem sampleLoop_keeps {P : State → Prop} (nch : BitVec 8) (t0 : F64)
    (h : ∀ t s, P s → P (sampleStep nch t s)) :
    ∀ (n : Nat) (off : F64) (s : State), P s → P (sampleLoop nch t0 n off s)
  | 0, _, _, hs => hs
  | n + 1, _, s, hs => sampleLoop_keeps nch t0 h n _ _ (h _ s hs)

/-- What the loop leaves alone: everything but the envelope, `DC.y` and the output stream. -/
theorem sampleLoop_frame (nch : BitVec 8) (t0 : F64) (n : Nat) (off : F64) (s : State) :
    ∃ env dcY out, sampleLoop nch t0 n off s = { s with env := env, dcY := dcY, out := out } := by
  induction n generalizing off s with
  | zero => exact ⟨s.env, s.dcY, s.out, rfl⟩
  | succ n ih =>
    obtain ⟨e, y, o, h⟩ := ih (f64Add off s.dt) (sampleStep nch (f64Add t0 off) s)
    refine ⟨e, y, o, ?_⟩
    show sampleLoop nch t0 n (f64Add off s.dt) _ = _
    rw [h, sampleStep_eq]

/-- RENDER's compute step in one equation: envelope, `DC.y`, output stream and Clock. -/
theorem renderBlock_frame (nch : BitVec 8) (n : Nat) (s : State) :
    ∃ env dcY out, renderBlock nch n s =
      { s with env := env, dcY := dcY, out := out, clk := f64Add s.clk (f64Div (f64OfInt n) s.sr) } := by
  obtain ⟨e, y, o, h⟩ := sampleLoop_frame nch s.clk n f64Zero s
  refine ⟨e, y, o, ?_⟩
  unfold renderBlock
  rw [h]; rfl

/-- The loop keeps a note sounding exactly in the stages that hold one (R45). -/
theorem sampleLoop_voice (nch : BitVec 8) (t0 : F64) (n : Nat) (off : F64) (s : State)
    (h : VoiceInv s) : VoiceInv (sampleLoop nch t0 n off s) := by
  refine sampleLoop_keeps nch t0 ?_ n off s h
  intro t s hs
  rw [sampleStep_eq]
  show s.nt.sounding = Stage.holdsNote (envEvaluate s.cfg s.snap t s.env).stage
  rw [envEvaluate_holdsNote]; exact hs

/-- The loop keeps the envelope's levels in range, under an in-range snapshot (R46). -/
theorem sampleLoop_levels (nch : BitVec 8) (t0 : F64) (n : Nat) (off : F64) (s : State)
    (hsn : SnapshotInRange s.snap) (h : LevelInv s) : LevelInv (sampleLoop nch t0 n off s) := by
  refine (sampleLoop_keeps (P := fun s => SnapshotInRange s.snap ∧ LevelInv s) nch t0 ?_ n off s ⟨hsn, h⟩).2
  rintro t s ⟨h1, -, h3, h4⟩
  rw [sampleStep_eq]
  refine ⟨h1, envEvaluate_inUnit h1 h3 h4, ?_, ?_⟩
  · show inUnit (envEvaluate s.cfg s.snap t s.env).atk = true
    rw [(envEvaluate_levels _ _ _ _).1]; exact h3
  · show inUnit (envEvaluate s.cfg s.snap t s.env).rel = true
    rw [(envEvaluate_levels _ _ _ _).2]; exact h4

/-- The loop keeps Idle at +0.0 (R175). -/
theorem sampleLoop_idle (nch : BitVec 8) (t0 : F64) (n : Nat) (off : F64) (s : State)
    (h : IdleInv s) : IdleInv (sampleLoop nch t0 n off s) := by
  refine sampleLoop_keeps nch t0 ?_ n off s h
  intro t s _
  rw [sampleStep_eq]
  exact envEvaluate_idle

end Sys2Proof.Machine
end

