-- ==== Sys2Proof/Laws/Step.lean ====
section
/-! SUPPORT. What executing a command leaves of the ports' input, and the one induction over a step: what every
command, every error and every reset keeps, a step keeps. -/

namespace Sys2Proof.Machine

open Sys2Proof

@[simp] theorem port_setPort (s : State) (p : PortId) (q : Port) : (s.setPort p q).port p = q := by
  cases p <;> rfl

theorem port_setPort_ne (s : State) {p p' : PortId} (q : Port) (h : p' ≠ p) :
    (s.setPort p q).port p' = s.port p' := by
  cases p <;> cases p' <;> first | exact absurd rfl h | rfl

/-! ### A command leaves the words before the ports alone (R103) -/

@[simp] theorem respond_words (p q : PortId) (ws : List Word) (s : State) :
    ((respond p ws s).port q).words = (s.port q).words := by
  cases p <;> cases q <;> rfl

@[simp] theorem raiseError_words (e : ErrCode) (n : Nat) (s : State) (q : PortId) :
    ((raiseError e n s).port q).words = (s.port q).words := by
  unfold raiseError
  rw [← respond_words s.cur q (List.replicate n 0) s]; cases q <;> rfl

theorem renderBlock_port (nch : BitVec 8) (n : Nat) (s : State) (q : PortId) :
    (renderBlock nch n s).port q = s.port q := by
  obtain ⟨e, y, o, h⟩ := renderBlock_frame nch n s
  rw [h]; cases q <;> rfl

/-- Whatever becomes of a command, it leaves the words before both ports alone. -/
theorem exec_words {i : Instr} {s t : State} (q : PortId) (h : exec i s = .next t) :
    (t.port q).words = (s.port q).words := by
  cases i <;>
    simp only [exec, execNop, execNoteOn, execNoteOff, execSetParam, execGetParam, execSetSampleRate,
      execRender, execReset, execReadStatus, execReadClock, execReadEnv, Host.Outcome.next.injEq] at h <;>
    subst h <;>
    refine guarded_keeps (P := fun t => (t.port q).words = (s.port q).words)
      (fun e => raiseError_words e _ s q) (fun _ => ?_)
  case nop => rfl
  case noteOn =>
    unfold noteOn; split
    · exact raiseError_words _ _ _ _
    · cases q <;> rfl
  case noteOff =>
    unfold noteOff; split
    · exact raiseError_words _ _ _ _
    · split <;> cases q <;> rfl
  case setParam =>
    unfold setParam; split
    · cases q <;> rfl
    · exact raiseError_words _ _ _ _
  case getParam =>
    unfold getParam; split
    · exact respond_words _ _ _ _
    · exact raiseError_words _ _ _ _
  case setSampleRate =>
    unfold changeRate; split
    · cases q <;> rfl
    · rw [raiseError_words]; cases q <;> rfl
  case render => rw [renderBlock_port]; cases q <;> rfl
  case reset => cases q <;> rfl
  case readStatus => cases q <;> rfl
  case readClock => exact respond_words _ _ _ _
  case readEnv => exact respond_words _ _ _ _

/-! ### What a step keeps -/

/-- A property of the block's registers: it does not look at the ports, at `cur` or at `sched`. -/
def OffPorts (P : State → Prop) : Prop :=
  ∀ (s : State) (portR portC : Port) (cur : PortId) (sched : List Event), P s →
    P { s with portR := portR, portC := portC, cur := cur, sched := sched }

theorem OffPorts.setPort {P : State → Prop} (hp : OffPorts P) {s : State} (h : P s) (p : PortId) (q : Port) :
    P (s.setPort p q) := by
  cases p
  · exact hp s q s.portC s.cur s.sched h
  · exact hp s s.portR q s.cur s.sched h

theorem OffPorts.raiseError {P : State → Prop} (hp : OffPorts P)
    (he : ∀ s e, P s → P (setErr e s)) {s : State} (h : P s) (e : ErrCode) (n : Nat) :
    P (raiseError e n s) := he _ e (hp.setPort h s.cur _)

/-- A property off the ports that every command, a change of ERR, a snapshot read and a reset keep is kept by
every step. -/
theorem step_keeps {P : State → Prop} (hp : OffPorts P) (he : ∀ s e, P s → P (setErr e s))
    (hs : ∀ (s : State) (x : Five (Option F32)), P s → P { s with snapRaw := x })
    (hx : ∀ (i : Instr) (s t : State), P s → exec i s = .next t → P t)
    (hr : ∀ s, P s → P (resetState s)) {s t : State} (h : P s) (hst : step s = .next t) : P t := by
  have h0 : P (popEvent s) := hp s s.portR s.portC s.cur s.sched.tail h
  have hcur : ∀ p q, P { (popEvent s).setPort p q with cur := p } := fun p q => by
    cases p <;> exact hp s _ _ _ _ h
  unfold step runEvent at hst
  split at hst
  · unfold runPort at hst
    split at hst
    · unfold execute at hst
      split at hst
      · exact hx _ _ _ (hcur _ _) hst
      · simp only [Host.Outcome.next.injEq] at hst
        subst hst; exact hp.raiseError he (hcur _ _) _ _
    · simp only [Host.Outcome.next.injEq] at hst
      subst hst; exact hp.setPort h0 _ _
  · simp only [Host.Outcome.next.injEq] at hst
    subst hst
    unfold earlySnapRead; split
    · exact hs _ _ h0
    · exact h0
  · simp only [Host.Outcome.next.injEq] at hst
    subst hst
    exact hp _ _ _ (popEvent s).cur (popEvent s).sched (hs _ noSnapReads (hr _ h0))

end Sys2Proof.Machine
end

