-- ==== Sys2Proof/Tests/Slice0.lean ====
section
/-! SUPPORT. Small tests of the model, and a witness for the hypotheses of each statement. Expected values come from
`spec/95_test_vectors.md` and from the examples of the rules, named at each test; words are written out from the
formats of `30_encoding.md` R101. -/

namespace Sys2Proof.Tests

open Sys2Proof Sys2Proof.Machine Sys2Proof.Claims

/-! ### WellFormed refuses a set reserved bit, command by command -/

theorem test_wf_nop : (Instr.nop 0x000001).wf = false := by decide
theorem test_wf_noteOn : (Instr.noteOn 60 100 0x01).wf = false := by decide
theorem test_wf_noteOff : (Instr.noteOff 69 0x7F00).wf = false := by decide
theorem test_wf_setParam : (Instr.setParam 3 0 0x8000).wf = false := by decide
theorem test_wf_getParam : (Instr.getParam 0 0x0001).wf = false := by decide
theorem test_wf_setSampleRate : (Instr.setSampleRate 0 0x40E58880#32 0x000001).wf = false := by decide
theorem test_wf_render : (Instr.render 255 0xFFFF).wf = true := by decide
theorem test_wf_reset : (Instr.reset 0x800000).wf = false := by decide
theorem test_wf_readStatus : (Instr.readStatus 0x000100).wf = false := by decide
theorem test_wf_readClock : (Instr.readClock 0x000100).wf = false := by decide
theorem test_wf_readEnv : (Instr.readEnv 0x000001).wf = false := by decide

/-! ### Words written out bit by bit from R101 and R102: OPC, then the fields of the format -/

theorem test_decode_nop : decode [0b00000000000000000000000000000000#32] = .command (.nop 0) [] := by decide
theorem test_decode_noteOn : decode [0b00000001010001010111111100000000#32] = .command (.noteOn 69 127 0) [] := by
  decide
theorem test_decode_noteOff : decode [0b00000010010001010000000000000000#32] = .command (.noteOff 69 0) [] := by
  decide
theorem test_decode_setParam : decode [0b00000011000000110000000000000000#32, 0x3F000000#32, 0x08000000#32] =
    .command (.setParam 3 0x3F000000#32 0) [0x08000000#32] := by decide
theorem test_decode_getParam : decode [0b00000100000000010000000000000000#32] = .command (.getParam 1 0) [] := by
  decide
theorem test_decode_setSampleRate :
    decode [0b00000101000000000000000000000000#32, 0x00000000#32, 0x40E58880#32] =
      .command (.setSampleRate 0x00000000#32 0x40E58880#32 0) [] := by decide
theorem test_decode_render : decode [0b00000110000000100000001000000000#32] = .command (.render 2 512) [] := by
  decide
theorem test_decode_reset : decode [0b00000111000000000000000000000000#32] = .command (.reset 0) [] := by decide
theorem test_decode_readStatus : decode [0b00001000000000000000000000000000#32] = .command (.readStatus 0) [] := by
  decide
theorem test_decode_readClock : decode [0b00001001000000000000000100000000#32] = .command (.readClock 0x100) [] := by
  decide
theorem test_decode_readEnv : decode [0b00001010000000000000000000000000#32] = .command (.readEnv 0) [] := by decide
theorem test_decode_undefined_first : decode [0x0B000000#32] = .rejected (.undefinedOpcode 0x0B) := by decide
theorem test_decode_undefined_last : decode [0xFFFFFFFF#32] = .rejected (.undefinedOpcode 0xFF) := by decide
theorem test_decode_no_word : decode [] = .rejected .noWord := by decide
theorem test_decode_missing_data : decode [0x05000000#32, 0x00000000#32] = .rejected .missingDataWord := by decide

/-- Bit 0 of a table word is the least significant bit of the first word (log 19). -/
theorem test_table_word : decodeTableWord 96 0x40E580000000000105000000 =
    some (.setSampleRate 0x00000001#32 0x40E58000#32 0) := by decide

/-! ### The base state B16 of `95_test_vectors.md` section 2, with the bypass -/

/-- The reset state of the bypass configuration. -/
def bypassReset : State := { State.reset with cfg := Config.bypass, alpha := 0x3FF0000000000000#64 }

/-- "B16": 16 Hz, Saw, A = D = 0.25 s, S = 0.5, R = 0.5 s. -/
def b16 : State := { bypassReset with
  sr := 0x4030000000000000#64
  dt := 0x3FB0000000000000#64
  params := ⟨0x00000000#32, 0x3D800000#32, 0x3D800000#32, 0x3F000000#32, 0x3E000000#32⟩ }

/-- The state of `b16` after NOTE_ON 9, 127. -/
def b16Note : State := { b16 with
  nt := ⟨true, 9, 127, 0⟩
  vl := ⟨9, 127⟩
  env := ⟨.attack, 0, 0, 0, 0⟩ }

/-- A state on port C. -/
def onC (s : State) : State := { s with cur := .C }

/-- The state after BAD_RATE from reset. -/
def faulted : State := { bypassReset with status := ⟨true, .badRate⟩ }

/-- The next state of an outcome. -/
def after (o : Host.Outcome State Fault Refusal) (s : State) : State :=
  match o with
  | .next t => t
  | .fault _ => s
  | .refused _ => s

/-- The state after one command. -/
def does (i : Instr) (s : State) : State := after (exec i s) s

/-- Words sent on a port, next to be executed. -/
def sent (p : PortId) (ws : List Word) (s : State) : State :=
  { s.setPort p { s.port p with input := ws } with sched := [.command p] }

/-! ### One step, from the words on a port -/

/-- V-ENC-2: NOP with a reserved bit. -/
theorem test_nop_reserved : (after (step (sent .R [0x00000001#32] bypassReset)) bypassReset).status =
    ⟨false, .reserved⟩ := by decide
/-- V-ENC-1 and `20_memory.md` R72: the same word as four bytes, little-endian, with the next word's first byte. -/
theorem test_nop_bytes : (after (step { bypassReset with
    portR := { Port.empty with bytesIn := [0x00, 0x00, 0x00, 0x00, 0x08] } }) bypassReset).portR =
    { Port.empty with bytesIn := [0x08] } := by decide
/-- V-ENC-4: an undefined opcode consumes one word and answers none. -/
theorem test_undefined : (after (step (sent .R [0xFFFFFFFF#32, 0x08000000#32] bypassReset)) bypassReset).portR =
    { Port.empty with input := [0x08000000#32] } := by decide
/-- V-ENC-7: a rate change on port C consumes its three words and is ILLEGAL. -/
theorem test_rate_on_C : (after (step (sent .C [0x05000000#32, 0x00000000#32, 0x40E77000#32, 0x00000000#32]
    bypassReset)) bypassReset).portC.words = [0x00000000#32] := by decide
/-- R103: a rate change with two of its three words only pends. -/
theorem test_rate_pending : (after (step (sent .R [0x05000000#32, 0x00000000#32] bypassReset)) bypassReset).portR =
    { Port.empty with frame := [0x05000000#32, 0x00000000#32] } := by decide
/-- The word the host places is the one the next step runs (V-NT-11: `017F7F00`). -/
theorem test_withFetchWord : statusWord (after (step (State.reset.withFetchWord 32 0x017F7F00)) State.reset) =
    0x00907F7F#32 := by decide
/-- R331: hardware reset empties the framing state. -/
theorem test_hardwareReset : (after (step { b16 with
    portC := { Port.empty with frame := [0x03000000#32] }, sched := [.hardwareReset] }) b16).portC = Port.empty := by
  decide

/-- R43, R331: bytes of NOP, a SET_PARAM word and two bytes of its data word; after the NOP all of these are still as
sent, and after one more event, which finds no complete command, they are framing state, which hardware reset empties. -/
theorem test_bytes_partial_command :
    let q : Port := { Port.empty with bytesIn := [0, 0, 0, 0, 0x00, 0x00, 0x02, 0x03, 0x11, 0x22] }
    let s1 := after (step { bypassReset with portR := q }) b16
    let s2 := after (step s1) b16
    s1.portR = { Port.empty with bytesIn := [0x00, 0x00, 0x02, 0x03, 0x11, 0x22] } ∧
    (hardwareReset s1).portR = s1.portR ∧
    s2.portR = { Port.empty with frame := [0x03020000#32], held := [0x11, 0x22] } ∧
    (hardwareReset s2).portR = Port.empty := by decide

/-- A RENDER sent as bytes, its snapshot begun, is lost with its four bytes; the bytes after it stay (log 14). -/
theorem test_hardwareReset_render : (after (step { b16 with
    portR := { Port.empty with held := [0x10], bytesIn := [0x00, 0x01, 0x06, 0x08] }
    snapRaw := ⟨some 0#32, none, none, none, none⟩, sched := [.hardwareReset] }) b16).portR =
    { Port.empty with bytesIn := [0x08] } := by decide

/-! ### Each command -/

/-- V-NT-1. -/
theorem test_noteOn_status : statusWord (does (.noteOn 9 127 0) b16) = 0x0090097F#32 := by decide
/-- V-ERR-1: `01C8FF01` is RESERVED, not RANGE. -/
theorem test_noteOn_order : (does (.noteOn 0xC8 0xFF 1) bypassReset).status.err = .reserved := by decide
/-- The example of R153: Sustain at 0.5, CLK = 1.0. -/
theorem test_noteOff_release : (does (.noteOff 69 0) { b16 with
      clk := 0x3FF0000000000000#64
      nt := ⟨true, 69, 127, 0⟩
      env := ⟨.sustain, 0x3FE0000000000000#64, 0x3FE0000000000000#64, 0, 0⟩ }).env =
    ⟨.release, 0x3FE0000000000000#64, 0x3FF0000000000000#64, 0, 0x3FE0000000000000#64⟩ := by decide
/-- V-NT-3: a stale NOTE_OFF changes nothing. -/
theorem test_noteOff_stale : does (.noteOff 21 0) b16Note = b16Note := by decide
/-- V-PAR-2: a NaN pattern is stored unchanged. -/
theorem test_setParam_raw : (does (.setParam 2 0x7FC00001#32 0) b16).params.decay = 0x7FC00001#32 := by decide
/-- V-ENC-13. -/
theorem test_setParam_index : statusWord (does (.setParam 5 0x3F800000#32 0) bypassReset) = 0x04000000#32 := by
  decide
/-- Program P3: the answer goes to port C, which asked. -/
theorem test_getParam_C : (does (.getParam 3 0) (onC b16)).portC.responses = [0x3F000000#32] := by decide
/-- V-PAR-3. -/
theorem test_getParam_index : (does (.getParam 5 0) b16).portR.responses = [0x00000000#32] := by decide
/-- The example of R136: CLK = 2.0, ENV.start = 1.5, rate 48000.0 gives ENV.start = -0.5. -/
theorem test_rate_rebase : (does (.setSampleRate 0x00000000#32 0x40E77000#32 0) { b16 with
      clk := 0x4000000000000000#64
      env := ⟨.decay, 0x3FF0000000000000#64, 0x3FF8000000000000#64, 0, 0⟩ }).env.start =
    0xBFE0000000000000#64 := by decide +kernel
/-- Section 2.2: 2^-1074 is illegal, because its reciprocal is infinite; READ_STATUS gives `85000000`. -/
theorem test_rate_illegal : statusWord (does (.setSampleRate 0x00000001#32 0x00000000#32 0) bypassReset) =
    0x85000000#32 := by decide +kernel
/-- Program P1, block 1. -/
theorem test_render_frames : (does (.render 1 16) b16Note).out = [[0x00000000#32], [0x3E380000#32], [0x3E600000#32],
    [0x3DF00000#32], [0xBE000000#32], [0xBEB60000#32], [0xBF040000#32], [0xBF1B0000#32]] ++ [[0x3EC00000#32],
    [0x3E700000#32], [0x3DC00000#32], [0xBD400000#32], [0xBE400000#32], [0xBEA80000#32], [0xBEF00000#32],
    [0x3EC80000#32]] := by decide +kernel
/-- V-ENV-1, V-CLK-1: the envelope after ten samples (Sustain, ENV.start = 0.5), with no channel. -/
theorem test_render_env : (does (.render 0 10) b16Note).env =
    ⟨.sustain, 0x3FE0000000000000#64, 0x3FE0000000000000#64, 0, 0⟩ ∧ (does (.render 0 10) b16Note).out = [] := by
  decide +kernel
/-- V-SYS-4, under FAULT. -/
theorem test_reset : statusWord (does (.reset 0) faulted) = 0x00000000#32 := by decide
/-- V-SYS-3: the first READ_STATUS after BAD_RATE. -/
theorem test_readStatus : (does (.readStatus 0) faulted).portR.responses = [0x85000000#32] ∧
    (does (.readStatus 0) faulted).status = ⟨true, .noError⟩ := by decide
/-- P1: READ_CLOCK at 2.0. -/
theorem test_readClock : (does (.readClock 0) { b16 with clk := 0x4000000000000000#64 }).portR.responses =
    [0x00000000#32, 0x40000000#32] := by decide
/-- V-ENV-8: READ_ENV at 0.25. -/
theorem test_readEnv : (does (.readEnv 0) { b16 with env := ⟨.attack, 0x3FD0000000000000#64, 0, 0, 0⟩ }).portR.responses =
    [0x00000000#32, 0x3FD00000#32] := by decide

/-! ### The arithmetic and the tables -/

/-- V-VE-1. -/
theorem test_velocity_gain : velocityGain 1 = 0x3F80204081020408#64 ∧ velocityGain 64 = 0x3FE0204081020408#64 ∧
    velocityGain 100 = 0x3FE93264C993264D#64 := by decide +kernel
/-- V-CLK-3: 100 / 44100. -/
theorem test_clock_advance : f64Div (f64OfInt 100) 0x40E5888000000000#64 = 0x3F6293725BB804A5#64 := by decide +kernel
/-- V-OSC-2 at p = 9: the saw and the triangle at 0.1875, off the exact values by a few units. -/
theorem test_oscillator : oscSaw 0x402B800000000000#64 0x3FB0000000000000#64 = 0x3FE7000000000000#64 ∧
    oscTriangle 0x402B800000000000#64 0x3FB0000000000000#64 = 0xBFE2000000000000#64 := by decide +kernel
/-- V-OSC-1, at the quartile boundaries. -/
theorem test_shapes : shapeSelect 0x80000000#32 = .saw ∧ shapeSelect 0x3E7FFFFF#32 = .saw ∧
    shapeSelect 0x3E800000#32 = .square ∧ shapeSelect 0x3F3FFFFF#32 = .triangle ∧
    shapeSelect 0x3F400000#32 = .sine ∧ shapeSelect 0x7FC00000#32 = .sine := by decide
/-- V-PAR-1. -/
theorem test_knobs : knobSeconds Config.savoy 0x3CCCCCCD#32 = 0x3FB99999A0000000#64 ∧
    knobSeconds Config.savoy 0x3F8CCCCD#32 = 0x4010000000000000#64 ∧
    knobSeconds Config.savoy 0x00000001#32 = 0x36C0000000000000#64 := by decide +kernel

/-! ### Witnesses: a concrete state and operands meeting the hypotheses of each statement that has any

A statement whose hypotheses are all in an if of its conclusion has a state for each branch. -/

/-- A rate change with one data word, as port R's framing state. -/
def pendingRate : State := { bypassReset with portR := { Port.empty with frame := [0x05000000#32, 0x00000000#32] } }

/-- A RENDER waiting on port R, no event listed. -/
def renderWaiting : State := { b16Note with portR := { Port.empty with input := [0x06010010#32] } }

/-- A RENDER all of whose snapshot reads are made. -/
def snapshotDone : State := { renderWaiting with
  snapRaw := ⟨some 0x3E800000#32, some 0x00000000#32, some 0x3F800000#32, some 0x3F000000#32, some 0x7FC00001#32⟩ }

theorem test_witness_EncodeOfDecode :
    decode [0x03030000#32, 0x3F000000#32, 0x08000000#32] = .command (.setParam 3 0x3F000000#32 0) [0x08000000#32] := by
  decide
theorem test_witness_EveryWord : cmdLength 0x0A000000#32 ≤ ([] : List Word).length + 1 ∧
    ((0x0A000000#32 : Word).extractLsb' 24 8).toNat ≤ 0x0A ∧
    cmdLength 0x0B000000#32 ≤ ([] : List Word).length + 1 ∧
    ¬ ((0x0B000000#32 : Word).extractLsb' 24 8).toNat ≤ 0x0A := by decide
theorem test_witness_WellFormed : decode [0x01457F01#32] = .command (.noteOn 69 127 1) [] ∧
    0x01457F01#32 &&& reservedMask (.noteOn 69 127 1) ≠ 0 ∧ decode [0x01457F00#32] = .command (.noteOn 69 127 0) [] := by
  decide
theorem test_witness_Framing :
    ((sent .R [0x03000000#32, 0x3F800000#32] bypassReset).port .R).words = [0x03000000#32, 0x3F800000#32] ∧
    cmdLength 0x03000000#32 ≤ 2 ∧ (pendingRate.port .R).words = [0x05000000#32, 0x00000000#32] ∧
    2 < cmdLength 0x05000000#32 := by decide
theorem test_witness_Illegal :
    ((sent .C [0x0B000000#32] bypassReset).port .C).words = [0x0B000000#32] ∧
    ((sent .R [0xFF000000#32] bypassReset).port .R).words = [0xFF000000#32] ∧
    0x0A < ((0x0B000000#32 : Word).extractLsb' 24 8).toNat ∧
    (sent .C [0x09000000#32] bypassReset).portC.words = [0x09000000#32] ∧
    decode [0x09000000#32] = .command (.readClock 0) [] ∧ portCMayCarry (.readClock 0) = false := by decide
theorem test_witness_StepRuns : nextEvent (sent .R [0x06010010#32] b16) = .command .R ∧
    decode ((sent .R [0x06010010#32] b16).port .R).words = .command (.render 1 16) [] ∧
    nextEvent renderWaiting = .command .R ∧
    decode (renderWaiting.port .R).words = .command (.render 1 16) [] := by decide
/-- A RENDER is next and `P[4]` unread; the RENDER is gone; nothing is listed. -/
theorem test_witness_StepPerforms : renderIsNext { renderWaiting with sched := [.snapRead .release] } ∧
    renderWaiting.snapRaw.get .release = none ∧ ¬ renderIsNext b16Note ∧
    snapshotDone.snapRaw.get .oscillator ≠ none ∧ renderWaiting.sched = [] ∧
    (sent .C [] b16).sched = [.command .C] := by
  unfold renderIsNext; decide
theorem test_witness_Bytes : ([0x01, 0x02, 0x03] : List Byte).length < 4 := by decide
theorem test_witness_FirstError :
    firstError (.noteOn 200 0 1) (onC faulted) = some .illegal ∧
    firstError (.noteOn 200 0 1) faulted = some .faulted ∧
    firstError (.noteOn 200 0 1) bypassReset = some .reserved ∧
    firstError (.noteOn 128 0 0) bypassReset = some .range ∧
    firstError (.noteOff 128 0) bypassReset = some .range ∧
    firstError (.setParam 5 0 0) bypassReset = some .index ∧
    firstError (.getParam 255 0) faulted = some .index := by decide
theorem test_witness_FirstError_rate :
    firstError (.setSampleRate 0 0 0) bypassReset = some .badRate ∧
    firstError (.setSampleRate 0 0x40E58880#32 0) bypassReset = none ∧
    firstError (.noteOn 127 127 0) bypassReset = none := by decide +kernel
theorem test_witness_FaultState_set : bypassReset.status.fault = false ∧
    ∃ t, exec (.setSampleRate 0 0 0) bypassReset = .next t ∧ t.status.fault = true :=
  ⟨rfl, _, rfl, by decide +kernel⟩
theorem test_witness_FaultState_clear : faulted.status.fault = true ∧
    (∃ t, exec (.reset 0) faulted = .next t ∧ t.status.fault = false) ∧
    (∃ t, exec (.render 1 16) faulted = .next t) ∧ refusedUnderFault (.render 1 16) = true :=
  ⟨rfl, ⟨_, rfl, by decide⟩, ⟨_, rfl⟩, rfl⟩
/-- A command that is not refused under FAULT keeps an older FAULTED. -/
theorem test_witness_FaultState_kept : ∃ t, exec (.nop 0) { faulted with status := ⟨true, .faulted⟩ } = .next t ∧
    t.status.err = .faulted := ⟨_, rfl, by decide⟩
theorem test_witness_Render : (onC b16).cur = .C ∧ (faulted.cur = .R ∧ faulted.status.fault = true) ∧
    renderAdmitted b16Note ∧ 0 < (1 : BitVec 16).toNat := by
  unfold renderAdmitted; decide
theorem test_witness_ResetCommand : (onC b16).cur = .C ∧ b16.cur = .R ∧ (0x800000 : BitVec 24) ≠ 0 := by decide
theorem test_witness_SecondRead : faulted.cur = .R := by decide
theorem test_witness_Writers_params : ∃ t, exec (.setParam 4 0x3F800000#32 0) bypassReset = .next t ∧
    t.params ≠ bypassReset.params := ⟨_, rfl, by decide⟩
theorem test_witness_Writers_note : ∃ t, exec (.noteOn 9 127 0) bypassReset = .next t ∧ t.nt ≠ bypassReset.nt ∧
    t.vl ≠ bypassReset.vl ∧ t.env ≠ bypassReset.env := ⟨_, rfl, by decide⟩
theorem test_witness_Writers_rate : ∃ t, exec (.setSampleRate 0 0x40E77000#32 0) { bypassReset with clk := f64One } =
    .next t ∧ t.sr ≠ bypassReset.sr ∧ t.dt ≠ bypassReset.dt ∧ t.clk ≠ f64One := ⟨_, rfl, by decide +kernel⟩
theorem test_witness_Writers_render : ∃ t, exec (.render 1 3) b16Note = .next t ∧ t.clk ≠ b16Note.clk ∧
    t.env ≠ b16Note.env ∧ t.dcY ≠ b16Note.dcY ∧ t.out ≠ b16Note.out := ⟨_, rfl, by decide +kernel⟩
theorem test_witness_PortC : ∃ t, runPort .C (sent .C [0x03040000#32, 0x3F800000#32] bypassReset) = .next t ∧
    t.params ≠ bypassReset.params := ⟨_, rfl, by decide⟩
theorem test_witness_Resets : b16Note.cur = .R ∧ State.reset.cfg = Config.savoy ∧ State.reset.cur = .R := by
  refine ⟨rfl, rfl, rfl⟩
/-- The state from which a step runs a NOTE_ON, with a note already in its Decay. -/
theorem test_witness_StepKeepsVoice : VoiceInv (sent .R [0x01457F00#32] b16Note) ∧
    LatchInv (sent .R [0x01457F00#32] b16Note) ∧ ∃ t, step (sent .R [0x01457F00#32] b16Note) = .next t ∧
    t.nt.pitch = 69 := ⟨by decide, by decide, _, rfl, by decide⟩
theorem test_witness_StepKeepsLevels : Config.legal (sent .R [0x06000004#32] b16Note).cfg ∧
    LevelInv (sent .R [0x06000004#32] b16Note) ∧ IdleInv (sent .R [0x06000004#32] b16Note) ∧
    ∃ t, step (sent .R [0x06000004#32] b16Note) = .next t ∧ t.env.value = 0x3FE8000000000000#64 :=
  ⟨by decide +kernel, by decide, by decide, _, rfl, by decide +kernel⟩
theorem test_witness_StepKeepsRate : Config.legal (sent .R [0x06000004#32] b16Note).cfg ∧
    RateInv (sent .R [0x06000004#32] b16Note) ∧ ClockInv (sent .R [0x06000004#32] b16Note) ∧
    ∃ t, step (sent .R [0x06000004#32] b16Note) = .next t ∧ t.clk = 0x3FD0000000000000#64 :=
  ⟨by decide +kernel, ⟨by decide +kernel, by decide +kernel, by decide +kernel⟩, by decide, _, rfl, by decide +kernel⟩
/-- One snapshot read is made, two words of a rate change are held on port C, and the next event is a second read. -/
theorem test_witness_StepKeepsFraming :
    let s : State := { renderWaiting with
      snapRaw := ⟨some 0#32, none, none, none, none⟩, sched := [.snapRead .attack]
      portC := { Port.empty with frame := [0x05000000#32, 0#32], held := [0x00, 0x01, 0x02] } }
    SnapshotInv s ∧ s.portR.FramingInv ∧ s.portC.FramingInv ∧ ∃ t, step s = .next t ∧
      t.snapRaw.attack = some 0x3D800000#32 :=
  ⟨by decide, by decide, by decide, _, rfl, by decide⟩
theorem test_witness_Clock : RateInv b16Note ∧ ClockInv b16Note ∧ (∃ t, exec (.render 0 4) b16Note = .next t) ∧
    legalRate ((0x40E58880#32 : Word) ++ (0#32 : Word)) = true :=
  ⟨⟨by decide +kernel, by decide +kernel, by decide +kernel⟩, by decide, ⟨_, rfl⟩, by decide +kernel⟩

/-- A snapshot with durations 0.25, 2^-20 and 0.5 and sustain level 0.5. -/
def stages : Snapshot := ⟨.saw, 0x3FD0000000000000#64, 0x3EB0000000000000#64, 0x3FE0000000000000#64, 0x3FE0000000000000#64⟩

/-- The Attack of 0.25 s at exactly its end, the Decay at `DUR_EPS` at once, the Release of 0.5 s at its end. -/
theorem test_witness_StagesComplete :
    f64Le stages.a (elapsed 0x3FD0000000000000#64 f64Zero) = true ∧ f64Le stages.d Config.savoy.durEps = true ∧
    f64Le stages.r (elapsed 0x3FE0000000000000#64 f64Zero) = true := by decide +kernel
/-- The cases of each stage: V-ENV's Attack, Decay and Release at 0.0625 s of their 0.25 s and 0.5 s (R176, R177,
R179: 0.25, 0.875 and 0.4375). -/
theorem test_envelope_formulas :
    (envEvaluate Config.savoy stages 0x3FB0000000000000#64 ⟨.attack, 0, 0, 0, 0⟩).value = 0x3FD0000000000000#64 ∧
    (envEvaluate Config.savoy { stages with d := stages.a } 0x3FB0000000000000#64 ⟨.decay, f64One, 0, 0, 0⟩).value =
      0x3FEC000000000000#64 ∧
    (envEvaluate Config.savoy stages 0x3FB0000000000000#64 ⟨.release, 0x3FE0000000000000#64, 0, 0,
      0x3FE0000000000000#64⟩).value = 0x3FDC000000000000#64 := by decide +kernel
theorem test_witness_AttackStarts : inUnit (0x3FE0000000000000#64 : F64) = true ∧ f64IsFinite stages.a = true ∧
    f64Lt f64Zero stages.a = true ∧ f64Le stages.a Config.savoy.durEps = false := by decide
theorem test_witness_Monotone : f64IsFinite stages.a = true ∧ f64IsFinite stages.d = true ∧
    f64IsFinite stages.r = true ∧ inUnit stages.s = true ∧ inUnit f64Zero = true ∧ inUnit f64One = true ∧
    f64Le 0x3FB0000000000000#64 0x3FC0000000000000#64 = true := by decide
theorem test_witness_Oscillator : f64IsFinite 0x402B800000000000#64 = true ∧
    f64Lt f64Zero 0x402B800000000000#64 = true ∧ f64IsFinite 0x3FB0000000000000#64 = true ∧
    f64IsFinite (f64Mul (f64Mul Config.twoPi 0x402B800000000000#64) 0x3FB0000000000000#64) = true := by
  decide +kernel
/-- -0.0, the last NaN pattern, the first NaN pattern; 1.0 and infinity; the last pattern below 1.0. -/
theorem test_witness_Knobs : 0x80000000 ≤ (0x80000000#32 : F32).toNat ∧ 0x80000000 ≤ (0xFFFFFFFF#32 : F32).toNat ∧
    f32IsNaN 0x7F800001#32 = true ∧ f32IsNaN 0x7F800000#32 = false ∧ 0x3F800000 ≤ (0x7F800000#32 : F32).toNat ∧
    f32IsNaN 0x3F800000#32 = false ∧ (0x3F7FFFFF#32 : F32).toNat < 0x3F800000 := by decide
/-- The domains of R10 at pitch 0 and at pitch 127, and a finite negative exponent of `exp64`. -/
theorem test_witness_ConfigFunctions : f64IsFinite f64Zero = true ∧
    f64Le (f64Div (f64OfInt (-69)) (f64OfInt 12)) (f64Div (f64OfInt (-69)) (f64OfInt 12)) = true ∧
    f64Le (f64Div (f64OfInt (-69)) (f64OfInt 12)) (f64Div (f64OfInt 58) (f64OfInt 12)) = true ∧
    f64IsFinite (f64Neg f64One) = true ∧ f64Lt (f64Neg f64One) f64Zero = true := by decide +kernel
/-- The square's three values lie in [-1, 1] at every frequency. -/
theorem test_witness_Mix : selectVoice bypassReset = none ∧ inUnit b16Note.env.value = true ∧
    ∀ p : BitVec 7, inPM1 (oscRender { b16Note.snap with shape := .square }.shape p f64Zero) = true := by
  refine ⟨by decide, by decide, fun p => ?_⟩
  show inPM1 (oscSquare (freq p) f64Zero) = true
  unfold oscSquare
  split_ifs <;> decide
/-- The bypass; and 0.003 s at 44100 Hz. -/
theorem test_witness_Declick : f64Eq Config.bypass.declickTauS f64Zero = true ∧
    f64Eq Config.savoy.declickTauS f64Zero = false ∧
    f64IsFinite (f64Div (f64Neg f64One) (f64Mul Config.savoy.declickTauS 0x40E5888000000000#64)) = true ∧
    f64Lt (f64Div (f64Neg f64One) (f64Mul Config.savoy.declickTauS 0x40E5888000000000#64)) f64Zero = true := by
  decide +kernel
theorem test_witness_Bypass : f64Eq Config.bypass.declickTauS f64Zero = true ∧
    f64Lt f64Zero Config.bypass.declickSnap = true := by decide
/-- The hypotheses of the statements about a RENDER of any n, of 0 and in any port order. -/
theorem test_witness_RenderForms : renderAdmitted b16Note ∧ RateInv b16Note ∧ ClockInv b16Note ∧ b16Note.cur = .R ∧
    (0 : BitVec 8) ≠ 255 := by
  refine ⟨⟨rfl, rfl⟩, ⟨by decide +kernel, by decide +kernel, by decide +kernel⟩, by decide, rfl, by decide⟩
theorem test_witness_Quiescent : renderAdmitted bypassReset ∧ Quiescent bypassReset ∧ IdleInv bypassReset ∧
    f64IsFinite bypassReset.alpha = true ∧ f64Lt f64Zero bypassReset.cfg.declickSnap = true := by
  unfold renderAdmitted; decide
theorem test_witness_RenderIgnores : renderAdmitted snapshotDone ∧
    ∀ i, (snapshotDone.snapRaw.get i).isSome = true :=
  ⟨⟨rfl, rfl⟩, fun i => by cases i <;> rfl⟩
/-- The last index a register has, and a register other than the one written. -/
theorem test_witness_SnapshotSees : renderPending renderWaiting = true ∧
    renderWaiting.snapRaw.get .release = none ∧ paramIdx? 4 = some .release ∧ paramIdx? 0 = some .oscillator := by
  decide

end Sys2Proof.Tests
end

section
/-! PROOFS of the statements of `spec/00_scope.md`. A command is one guarded effect (R110); port C's commands stay
within P, ERR and port C; knob positions map exactly; the configuration functions are as R10 asks. -/

namespace Sys2Proof.Machine

open Sys2Proof

/-! ### A command is its own effect behind the checks of R110 -/

/-- What a command does when no check refuses it. -/
def ownEffect : Instr → State → State
  | .nop _ => id
  | .noteOn pitch vel _ => noteOn pitch vel
  | .noteOff pitch _ => noteOff pitch
  | .setParam idx data _ => setParam idx data
  | .getParam idx _ => getParam idx
  | .setSampleRate lo hi _ => changeRate (f64OfWords lo hi)
  | .render nch n => fun s => renderBlock nch n.toNat (takeSnapshot s)
  | .reset _ => resetState
  | .readStatus _ => readStatus
  | .readClock _ => fun s => respond .R (f64Words s.clk) s
  | .readEnv _ => fun s => respond .R (f64Words s.env.value) s

/-- `exec` of every command is its own effect behind the checks of its opcode and reserved bits. -/
theorem exec_eq_guarded (i : Instr) (s : State) :
    exec i s = .next (guarded i.opcode i.reservedSet s (ownEffect i)) := by
  cases i <;> rfl

/-! ### Every event has a next state (R15, R300) -/

theorem exec_hasNext (i : Instr) (s : State) : ∃ t, exec i s = .next t :=
  ⟨_, exec_eq_guarded i s⟩

theorem execute_hasNext (p : PortId) (ws : List Word) (s : State) : ∃ t, execute p ws s = .next t := by
  unfold execute
  split
  · exact exec_hasNext _ _
  · exact ⟨_, rfl⟩

theorem runPort_hasNext (p : PortId) (s : State) : ∃ t, runPort p s = .next t := by
  unfold runPort
  split
  · exact execute_hasNext _ _ _
  · exact ⟨_, rfl⟩

theorem runEvent_hasNext (e : Event) (s : State) : ∃ t, runEvent e s = .next t := by
  cases e with
  | command p => exact runPort_hasNext p s
  | snapRead i => exact ⟨_, rfl⟩
  | hardwareReset => exact ⟨_, rfl⟩

/-- Settles O9: no arm of `exec` and no event answers anything but a next state. -/
theorem nothingStopsTheBlock : Obligations.NothingStopsTheBlock :=
  ⟨exec_hasNext, fun s => runEvent_hasNext (nextEvent s) (popEvent s)⟩

/-! ### What port C can reach (R8, R78, R313) -/

/-- `t` is `s` but for P, ERR, port C and the note of which port executes. -/
def WithinPortC (s t : State) : Prop :=
  ∃ params err portC cur,
    t = { s with params := params, status := ⟨s.status.fault, err⟩, portC := portC, cur := cur }

theorem WithinPortC.trans {s t u : State} (hst : WithinPortC s t) (htu : WithinPortC t u) :
    WithinPortC s u := by
  obtain ⟨_, _, _, _, rfl⟩ := hst
  obtain ⟨params, err, portC, cur, rfl⟩ := htu
  exact ⟨params, err, portC, cur, rfl⟩

theorem withinPortC_refl (s : State) : WithinPortC s s := ⟨s.params, s.status.err, s.portC, s.cur, rfl⟩

theorem withinPortC_setPort (q : Port) (s : State) : WithinPortC s (s.setPort .C q) :=
  ⟨s.params, s.status.err, q, s.cur, rfl⟩

theorem withinPortC_setCur (p : PortId) (s : State) : WithinPortC s { s with cur := p } :=
  ⟨s.params, s.status.err, s.portC, p, rfl⟩

theorem withinPortC_setErr (e : ErrCode) (s : State) : WithinPortC s (setErr e s) :=
  ⟨s.params, e, s.portC, s.cur, rfl⟩

theorem withinPortC_paramWrite (i : ParamIdx) (v : F32) (s : State) : WithinPortC s (paramWrite i v s) :=
  ⟨s.params.set i v, s.status.err, s.portC, s.cur, rfl⟩

theorem withinPortC_respond {s : State} (hc : s.cur = .C) (ws : List Word) :
    WithinPortC s (respond s.cur ws s) := by
  rw [hc]; exact withinPortC_setPort _ s

theorem withinPortC_raiseError {s : State} (hc : s.cur = .C) (e : ErrCode) (n : Nat) :
    WithinPortC s (raiseError e n s) :=
  (withinPortC_respond hc _).trans (withinPortC_setErr e _)

theorem withinPortC_setParam {s : State} (hc : s.cur = .C) (idx : BitVec 8) (data : Word) :
    WithinPortC s (setParam idx data s) := by
  unfold setParam
  split
  · exact withinPortC_paramWrite _ _ s
  · exact withinPortC_raiseError hc _ _

theorem withinPortC_getParam {s : State} (hc : s.cur = .C) (idx : BitVec 8) :
    WithinPortC s (getParam idx s) := by
  unfold getParam
  split
  · exact withinPortC_respond hc _
  · exact withinPortC_raiseError hc _ _

/-- The own effect of the commands port C may carry: NOP, SET_PARAM and GET_PARAM (R107). -/
theorem withinPortC_ownEffect {i : Instr} {s : State} (hc : s.cur = .C)
    (hl : Opcode.legalOn i.opcode .C = true) : WithinPortC s (ownEffect i s) := by
  cases i with
  | nop => exact withinPortC_refl s
  | setParam idx data => exact withinPortC_setParam hc idx data
  | getParam idx => exact withinPortC_getParam hc idx
  | _ => cases hl

/-- A command executing on port C: the checks refuse what port C may not carry. -/
theorem withinPortC_exec {i : Instr} {s t : State} (hc : s.cur = .C) (h : exec i s = .next t) :
    WithinPortC s t := by
  rw [exec_eq_guarded] at h
  cases h
  refine guarded_keeps (fun e => withinPortC_raiseError hc e _) fun hn => ?_
  have hl := ((firstRefusal_eq_none_iff _ _ _).1 hn).1
  rw [hc] at hl
  exact withinPortC_ownEffect hc hl

theorem withinPortC_execute {ws : List Word} {s t : State} (h : execute .C ws s = .next t) :
    WithinPortC s t := by
  refine (withinPortC_setCur .C s).trans ?_
  unfold execute at h
  split at h
  · exact withinPortC_exec rfl h
  · cases h; exact withinPortC_raiseError rfl _ _

theorem withinPortC_runPort {s t : State} (h : runPort .C s = .next t) : WithinPortC s t := by
  unfold runPort at h
  split at h
  · exact (withinPortC_setPort _ s).trans (withinPortC_execute h)
  · cases h; exact withinPortC_setPort _ s

/-- Settles O27: port C's next command, whatever words stand before it, stays within P, ERR and port C. -/
theorem portCWritesOnlyParamsAndErr : Obligations.PortCWritesOnlyParamsAndErr := by
  intro s t h
  obtain ⟨_, _, _, _, rfl⟩ := withinPortC_runPort h
  rfl

/-! ### The configuration functions (R10) -/

/-- `f64Pow2 n` is the value 2^n wherever binary64 has it as a normal number. -/
theorem f64Units_pow2 {n : Int} (hlo : -1022 ≤ n) (hhi : n ≤ 1023) :
    f64Units (f64Pow2 n) = (2 ^ (1074 + n).toNat : Nat) := by
  obtain ⟨e, he⟩ : ∃ e : Nat, (1023 + n).toNat = e + 1 := ⟨(1022 + n).toNat, by omega⟩
  have hm : (e + 1) * 2 ^ 52 < 2 ^ 63 := by omega
  have hu : magUnits 52 ((e + 1) * 2 ^ 52) = 2 ^ (52 + e) := by
    simpa [pow_add] using magUnits_of 52 e 0 (by norm_num)
  unfold f64Units f64Pow2
  rw [he, f64Neg?_pack _ _ hm, f64Mag_pack _ _ hm, hu, show (1074 + n).toNat = 52 + e by omega]
  simp

/-- The integers of `exp2Exact` are found at their own binary64 patterns, which differ. -/
theorem exp2_64_exact : ∀ n ∈ exp2Exact, exp2_64 (f64OfInt n) = f64Pow2 n := by decide +kernel

theorem f64Pow2_finite_pos : ∀ n ∈ exp2Exact,
    f64IsFinite (f64Pow2 n) = true ∧ f64Lt f64Zero (f64Pow2 n) = true := by decide +kernel

/-- `exp2_64` is positive and finite on [-69/12, 58/12]. -/
theorem exp2_64_range {x : F64} (hlo : f64Le (f64Div (f64OfInt (-69)) (f64OfInt 12)) x = true)
    (hhi : f64Le x (f64Div (f64OfInt 58) (f64OfInt 12)) = true) :
    f64IsFinite (exp2_64 x) = true ∧ f64Lt f64Zero (exp2_64 x) = true := by
  unfold exp2_64
  split
  next n hn => exact f64Pow2_finite_pos n (List.mem_of_find?_eq_some hn)
  next =>
    simp only [hlo, hhi, Bool.and_self, if_true]
    split_ifs with h
    · exact Bool.and_eq_true_iff.1 h
    · decide

/-- Settles O44: each property is imposed by the function's definition, branch by branch. -/
theorem configurationFunctionsMeetTheirProperties :
    Obligations.ConfigurationFunctionsMeetTheirProperties := by
  refine ⟨fun x => sin64_range, by simp [sin64], fun n hlo hhi => ⟨?_, ?_⟩,
    fun x => exp2_64_range, fun x => exp64_range⟩
  · exact exp2_64_exact n (by simp only [exp2Exact, List.mem_cons]; omega)
  · rw [f64Units_pow2 (by omega) (by omega)]; exact Nat.cast_pow 2 _

/-! ### Knob positions (R12, R264) -/

/-- Rounding an exact quotient is exact. -/
theorem roundMag_mul_self (frac m : Nat) {d : Nat} (hd : 0 < d) : roundMag frac (magUnits frac m * d) d = m :=
  le_antisymm (roundMag_le hd le_rfl) (le_roundMag hd le_rfl)

/-- Two more in the exponent of a normal magnitude is four times its value. -/
theorem magUnits_add_exp_two {m : Nat} (hm : 2 ^ 52 ≤ m) :
    magUnits 52 (m + 2 * 2 ^ 52) = 4 * magUnits 52 m := by
  obtain ⟨e, f, hf, rfl⟩ : ∃ e f, f < 2 ^ 52 ∧ m = (e + 1) * 2 ^ 52 + f :=
    ⟨m / 2 ^ 52 - 1, m % 2 ^ 52, Nat.mod_lt _ (by norm_num), by omega⟩
  rw [show (e + 1) * 2 ^ 52 + f + 2 * 2 ^ 52 = (e + 2 + 1) * 2 ^ 52 + f by ring,
    magUnits_of _ _ _ hf, magUnits_of _ _ _ hf]
  ring

theorem f64Units_four : f64Units f64Four = (4 * 2 ^ 1074 : Nat) := by
  rw [show f64Four = f64Pow2 2 by decide, f64Units_pow2 (by norm_num) (by norm_num),
    show (1074 + 2 : Int).toNat = 2 + 1074 from rfl, pow_add, show 2 ^ 2 = 4 from rfl]

/-- A value that is not below zero is its magnitude. -/
theorem f64Units_eq_magUnits {x : F64} (h : 0 ≤ f64Key x) : f64Units x = magUnits 52 (f64Mag x) := by
  rw [← f64Units_natAbs, Int.natAbs_of_nonneg (units_nonneg h)]

/-- Four times a level that is zero or normal is exact. -/
theorem f64Mul_four {y : F64} (hy : inUnit y = true) (hn : f64Mag y = 0 ∨ 2 ^ 52 ≤ f64Mag y) :
    f64IsNaN (f64Mul f64Four y) = false ∧ f64Units (f64Mul f64Four y) = 4 * f64Units y := by
  have hky := inUnit_key hy
  obtain ⟨m, hm, hlt⟩ : ∃ m, magUnits 52 m = 4 * magUnits 52 (f64Mag y) ∧ m ≤ infMag64 := by
    rcases hn with h0 | h0
    · exact ⟨0, by simp [h0], Nat.zero_le _⟩
    · have hle := ((inUnit_iff y).1 hy).2.2
      rw [key_eq_mag hky] at hle
      exact ⟨_, magUnits_add_exp_two h0, by unfold infMag64; omega⟩
  obtain ⟨hnan, hkey⟩ := f64Mul_nonneg (a := f64Four) (by decide) (inUnit_nonneg hy) (by decide)
    (inUnit_finite hy)
  have hprod : (f64Units f64Four).natAbs * (f64Units y).natAbs = magUnits 52 m * 2 ^ unitExp64 := by
    rw [f64Units_four, Int.natAbs_natCast, f64Units_natAbs, hm, unitExp64, Nat.mul_right_comm]
  rw [hprod, roundMag_mul_self _ _ unit_pos, min_eq_right hlt] at hkey
  have hpos : 0 ≤ f64Key (f64Mul f64Four y) := hkey ▸ Int.natCast_nonneg m
  refine ⟨hnan, ?_⟩
  rw [key_eq_mag hpos, Int.natCast_inj] at hkey
  rw [f64Units_eq_magUnits hpos, f64Units_eq_magUnits hky, hkey, hm]
  push_cast; rfl

/-- This hardware's durations: four times the level, from 0.0 to 4.0 s. -/
theorem knobSeconds_savoy (x : F32) :
    f64Units (knobSeconds Config.savoy x) = 4 * f64Units (knobLevel x) ∧
    f64Le f64Zero (knobSeconds Config.savoy x) = true ∧ f64Le (knobSeconds Config.savoy x) f64Four = true := by
  have hy := knobLevel_inUnit x
  have h0 := units_nonneg (inUnit_key hy)
  have h1 := unit0_units (unit0_of_inUnit hy)
  obtain ⟨hnan, hu⟩ : f64IsNaN (knobSeconds Config.savoy x) = false ∧
      f64Units (knobSeconds Config.savoy x) = 4 * f64Units (knobLevel x) :=
    f64Mul_four hy (widen_units (clamp01_toNat x)).2.2
  refine ⟨hu, ?_, ?_⟩ <;> rw [f64Le_iff, ← f64Units_le_iff, hu]
  · exact ⟨f64IsNaN_zero, hnan, by rw [f64Units_zero]; omega⟩
  · refine ⟨hnan, by decide, ?_⟩
    rw [f64Units_four]
    generalize (2 : Nat) ^ 1074 = one at *
    omega

/-- The patterns that clamp to +0.0 (NaN, sign bit 1) are all numbered from 1.0's on. -/
theorem one_le_toNat_of_clampsToZero {x : F32} (h : f32IsNaN x = true ∨ 0x80000000 ≤ x.toNat) :
    0x3F800000 ≤ x.toNat := by
  rcases h with hnan | hneg
  · have : 0x7F800000 < x.toNat % 2 ^ 31 := of_decide_eq_true hnan
    omega
  · omega

/-- `clamp01` by the pattern's number (R12). -/
theorem clamp01_eq (x : F32) : clamp01 x =
    if x.toNat < 0x3F800000 then x
    else if f32IsNaN x = true ∨ 0x80000000 ≤ x.toNat then f32Zero else f32One := by
  rcases clamp_cases x with ⟨hx, hc⟩ | ⟨⟨hnan, hlo, hhi⟩, hc⟩ | ⟨hx, hc⟩
  · rw [hc, if_neg (one_le_toNat_of_clampsToZero hx).not_gt, if_pos hx]
  · rw [hc, if_neg hlo.not_gt, if_neg (by simp [hnan, hhi])]
  · rw [hc, if_pos hx]

/-- Settles O42: `clamp01` splits the patterns in three, and widening and the product by 4.0 are exact. -/
theorem knobMappingIsExact : Obligations.KnobMappingIsExact := by
  intro x
  refine ⟨fun h => ?_, fun ⟨hnan, hlo, hhi⟩ => ?_, fun h => ?_, knobLevel_inUnit x, knobSeconds_savoy x⟩
  · rw [knobLevel, clamp01_eq, if_neg (one_le_toNat_of_clampsToZero h).not_gt, if_pos h]
    decide +kernel
  · rw [knobLevel, clamp01_eq, if_neg hlo.not_gt, if_neg (by simp [hnan, hhi])]
    decide +kernel
  · rw [knobLevel, clamp01_eq, if_pos h, (widen_units h.le).2.1]

end Sys2Proof.Machine
end

section
/-! PROOFS of the statements of `spec/10_state.md`. `CommandEffect` says once what a command can do to the state:
answer and set STATUS, or one of six writes. Every invariant of a step, and who writes which register, follows by
its cases. -/

namespace Sys2Proof.Machine

open Sys2Proof

/-! ### Commands that only answer and set STATUS -/

/-- `t` is `s` but for STATUS and the two ports' response streams: no register, input or framing differs. -/
def AnswersOnly (s t : State) : Prop :=
  ∃ status answersR answersC,
    t = { s with
      status := status
      portR := { s.portR with responses := answersR }
      portC := { s.portC with responses := answersC } }

theorem AnswersOnly.trans {s t u : State} (hst : AnswersOnly s t) (htu : AnswersOnly t u) :
    AnswersOnly s u := by
  obtain ⟨_, _, _, rfl⟩ := hst
  obtain ⟨status, answersR, answersC, rfl⟩ := htu
  exact ⟨status, answersR, answersC, rfl⟩

theorem answersOnly_refl (s : State) : AnswersOnly s s :=
  ⟨s.status, s.portR.responses, s.portC.responses, rfl⟩

theorem answersOnly_setErr (e : ErrCode) (s : State) : AnswersOnly s (setErr e s) :=
  ⟨_, s.portR.responses, s.portC.responses, rfl⟩

theorem answersOnly_setFault (s : State) : AnswersOnly s (setFault s) :=
  ⟨_, s.portR.responses, s.portC.responses, rfl⟩

theorem answersOnly_respond (p : PortId) (ws : List Word) (s : State) : AnswersOnly s (respond p ws s) := by
  cases p with
  | R => exact ⟨s.status, _, s.portC.responses, rfl⟩
  | C => exact ⟨s.status, s.portR.responses, _, rfl⟩

theorem answersOnly_raiseError (e : ErrCode) (n : Nat) (s : State) : AnswersOnly s (raiseError e n s) :=
  (answersOnly_respond _ _ s).trans (answersOnly_setErr e _)

/-! ### What a command can do -/

/-- What command `i` can make of `s`: nothing but an answer and STATUS, or, with its reserved bits clear, the one
write that is its own. -/
inductive CommandEffect (s : State) : Instr → State → Prop where
  | answers {i : Instr} {t : State} (h : AnswersOnly s t) : CommandEffect s i t
  | setParam (idx : BitVec 8) (j : ParamIdx) (v : Word) : CommandEffect s (.setParam idx v 0) (paramWrite j v s)
  | noteOn (pitch vel : BitVec 8) :
    CommandEffect s (.noteOn pitch vel 0) (startNote (midi7 pitch) (midi7 vel) s)
  | noteOff (pitch : BitVec 8) : CommandEffect s (.noteOff pitch 0) (endNote s)
  | setSampleRate (lo hi : Word) (h : legalRate (f64OfWords lo hi) = true) :
    CommandEffect s (.setSampleRate lo hi 0) (rebase s.clk (clockReset (setRate (f64OfWords lo hi) s)))
  | render (nch : BitVec 8) (n : BitVec 16) :
    CommandEffect s (.render nch n) (renderBlock nch n.toNat (takeSnapshot s))
  | reset : CommandEffect s (.reset 0) (resetState s)

theorem commandEffect_noteOn (pitch vel : BitVec 8) (s : State) :
    CommandEffect s (.noteOn pitch vel 0) (noteOn pitch vel s) := by
  unfold noteOn
  split
  · exact .answers (answersOnly_raiseError _ _ s)
  · exact .noteOn pitch vel

theorem commandEffect_noteOff (pitch : BitVec 8) (s : State) :
    CommandEffect s (.noteOff pitch 0) (noteOff pitch s) := by
  unfold noteOff
  split
  · exact .answers (answersOnly_raiseError _ _ s)
  · split
    · exact .noteOff pitch
    · exact .answers (answersOnly_refl s)

theorem commandEffect_setParam (idx : BitVec 8) (data : Word) (s : State) :
    CommandEffect s (.setParam idx data 0) (setParam idx data s) := by
  unfold setParam
  split
  · exact .setParam idx _ data
  · exact .answers (answersOnly_raiseError _ _ s)

theorem answersOnly_getParam (idx : BitVec 8) (s : State) : AnswersOnly s (getParam idx s) := by
  unfold getParam
  split
  · exact answersOnly_respond _ _ s
  · exact answersOnly_raiseError _ _ s

theorem commandEffect_changeRate (lo hi : Word) (s : State) :
    CommandEffect s (.setSampleRate lo hi 0) (changeRate (f64OfWords lo hi) s) := by
  unfold changeRate
  split
  next h => exact .setSampleRate lo hi h
  next => exact .answers ((answersOnly_setFault s).trans (answersOnly_raiseError _ _ _))

theorem answersOnly_readStatus (s : State) : AnswersOnly s (readStatus s) :=
  (answersOnly_respond _ _ s).trans (answersOnly_setErr _ _)

/-- A command past the checks, which refuse set reserved bits. -/
theorem commandEffect_ownEffect {i : Instr} (h : i.reservedSet = false) (s : State) :
    CommandEffect s i (ownEffect i s) := by
  cases i with
  | nop => exact .answers (answersOnly_refl s)
  | noteOn pitch vel rsv =>
    obtain rfl : rsv = 0 := bne_eq_false_iff_eq.1 h
    exact commandEffect_noteOn pitch vel s
  | noteOff pitch rsv =>
    obtain rfl : rsv = 0 := bne_eq_false_iff_eq.1 h
    exact commandEffect_noteOff pitch s
  | setParam idx data rsv =>
    obtain rfl : rsv = 0 := bne_eq_false_iff_eq.1 h
    exact commandEffect_setParam idx data s
  | getParam idx => exact .answers (answersOnly_getParam idx s)
  | setSampleRate lo hi rsv =>
    obtain rfl : rsv = 0 := bne_eq_false_iff_eq.1 h
    exact commandEffect_changeRate lo hi s
  | render nch n => exact .render nch n
  | reset rsv =>
    obtain rfl : rsv = 0 := bne_eq_false_iff_eq.1 h
    exact .reset
  | readStatus => exact .answers (answersOnly_readStatus s)
  | readClock => exact .answers (answersOnly_respond _ _ s)
  | readEnv => exact .answers (answersOnly_respond _ _ s)

/-- Everything a command can do, refused or not. -/
theorem commandEffect_of_exec {i : Instr} {s t : State} (h : exec i s = .next t) : CommandEffect s i t := by
  rw [exec_eq_guarded] at h
  cases h
  refine guarded_keeps (P := CommandEffect s i) (fun e => .answers (answersOnly_raiseError e _ s)) fun hn => ?_
  obtain ⟨-, -, hwf⟩ := (firstRefusal_eq_none_iff _ _ _).1 hn
  exact commandEffect_ownEffect hwf s

/-! ### A note sounds in its stages, and the latch holds it (R45, R233) -/

theorem VoiceInv.renderBlock {s : State} (h : VoiceInv s) (nch : BitVec 8) (n : Nat) :
    VoiceInv (renderBlock nch n (takeSnapshot s)) :=
  sampleLoop_voice nch s.clk n f64Zero (takeSnapshot s) h

theorem LatchInv.renderBlock {s : State} (h : LatchInv s) (nch : BitVec 8) (n : Nat) :
    LatchInv (renderBlock nch n (takeSnapshot s)) := by
  obtain ⟨_, _, _, heq⟩ := renderBlock_frame nch n (takeSnapshot s)
  rw [heq]
  exact h

/-- NOTE_ON writes tracker, latch and stage together; NOTE_OFF and RESET leave no note sounding. -/
theorem CommandEffect.voice_latch {i : Instr} {s t : State} (hx : CommandEffect s i t)
    (h : VoiceInv s ∧ LatchInv s) : VoiceInv t ∧ LatchInv t := by
  cases hx with
  | answers ha => obtain ⟨_, _, _, rfl⟩ := ha; exact h
  | setParam => exact h
  | noteOn => exact ⟨rfl, fun _ => ⟨rfl, rfl⟩⟩
  | noteOff => exact ⟨rfl, nofun⟩
  | setSampleRate => exact h
  | render nch n => exact ⟨h.1.renderBlock nch n.toNat, h.2.renderBlock nch n.toNat⟩
  | reset => exact ⟨rfl, nofun⟩

/-- Settles O31: neither property looks at the ports, and every command keeps the two together. -/
theorem stepKeepsVoiceAndLatch : Obligations.StepKeepsVoiceAndLatch := by
  intro s t hv hl hst
  exact step_keeps (P := fun s => VoiceInv s ∧ LatchInv s) (fun _ _ _ _ _ h => h) (fun _ _ h => h)
    (fun _ _ h => h) (fun _ _ _ h hx => (commandEffect_of_exec hx).voice_latch h)
    (fun _ h => CommandEffect.reset.voice_latch h) ⟨hv, hl⟩ hst

/-! ### The envelope's levels (R46, R175) -/

/-- The configuration is legal, the levels lie in [+0.0, 1.0], and Idle is at +0.0. -/
def EnvelopeInv (s : State) : Prop := Config.legal s.cfg ∧ LevelInv s ∧ IdleInv s

/-- RENDER evaluates the envelope under a snapshot mapped from the parameters, which is in range. -/
theorem EnvelopeInv.renderBlock {s : State} (h : EnvelopeInv s) (nch : BitVec 8) (n : Nat) :
    EnvelopeInv (renderBlock nch n (takeSnapshot s)) := by
  obtain ⟨hc, hl, hi⟩ := h
  refine ⟨?_, sampleLoop_levels nch s.clk n f64Zero (takeSnapshot s) (mapParams_inRange hc _) hl,
    sampleLoop_idle nch s.clk n f64Zero (takeSnapshot s) hi⟩
  obtain ⟨_, _, _, heq⟩ := renderBlock_frame nch n (takeSnapshot s)
  rw [heq]
  exact hc

/-- NOTE_ON and NOTE_OFF copy the current value into a start level; the other commands but RENDER and RESET leave
all three levels and the stage. -/
theorem CommandEffect.envelope {i : Instr} {s t : State} (hx : CommandEffect s i t)
    (h : EnvelopeInv s) : EnvelopeInv t := by
  have ⟨hc, ⟨hvalue, hatk, hrel⟩, _⟩ := h
  cases hx with
  | answers ha => obtain ⟨_, _, _, rfl⟩ := ha; exact h
  | setParam => exact h
  | noteOn => exact ⟨hc, ⟨hvalue, hvalue, hrel⟩, nofun⟩
  | noteOff => exact ⟨hc, ⟨hvalue, hatk, hvalue⟩, nofun⟩
  | setSampleRate => exact h
  | render nch n => exact h.renderBlock nch n.toNat
  | reset => exact ⟨hc, ⟨inUnit_zero, inUnit_zero, inUnit_zero⟩, fun _ => rfl⟩

/-- Settles O32: with the legal configuration kept beside them, the levels are kept by every command. -/
theorem stepKeepsEnvelopeLevels : Obligations.StepKeepsEnvelopeLevels := by
  intro s t hc hl hi hst
  exact (step_keeps (P := EnvelopeInv) (fun _ _ _ _ _ h => h) (fun _ _ h => h) (fun _ _ h => h)
    (fun _ _ _ h hx => (commandEffect_of_exec hx).envelope h) (fun _ h => CommandEffect.reset.envelope h)
    ⟨hc, hl, hi⟩ hst).2

/-! ### Rate and Clock (R33 to R35, R131) -/

/-- The sum of two values with sign bit 0 that are no NaN is such a value. -/
theorem f64Add_sign_notNaN {a b : F64} (ha : f64Neg? a = false ∧ f64IsNaN a = false)
    (hb : f64Neg? b = false ∧ f64IsNaN b = false) :
    f64Neg? (f64Add a b) = false ∧ f64IsNaN (f64Add a b) = false := by
  obtain ⟨sa, na⟩ := ha
  obtain ⟨sb, nb⟩ := hb
  have hle := (f64Add_nonneg (f64Le_of_nonneg_neg na sa) (f64Le_of_nonneg_neg nb sb)).1
  exact ⟨add_sign sa sb na nb, ((f64Le_iff _ _).1 hle).2.1⟩

/-- The Clock's advance under a legal rate has sign bit 0 and is no NaN (R131). -/
theorem blockSeconds_sign_notNaN {r : F64} (hr : legalRate r = true) (n : BitVec 16) :
    f64Neg? (f64Div (f64OfInt n.toNat) r) = false ∧ f64IsNaN (f64Div (f64OfInt n.toNat) r) = false :=
  (div_sr_sign (ofInt_nonneg _).2 (ofInt_finite16 _ n.isLt) hr).symm

/-- The configuration is `c`, which is legal, and the rate registers and the Clock are as R33 to R35 say. -/
def RateClockInv (c : Config) (s : State) : Prop := s.cfg = c ∧ Config.legal c ∧ RateInv s ∧ ClockInv s

/-- SET_SAMPLE_RATE takes a legal rate only, RESET takes the configuration's; RENDER alone advances the Clock. -/
theorem CommandEffect.rate_clock {c : Config} {i : Instr} {s t : State} (hx : CommandEffect s i t)
    (h : RateClockInv c s) : RateClockInv c t := by
  have ⟨hcfg, hc, hr, hclk⟩ := h
  have hzero : f64Neg? f64Zero = false ∧ f64IsNaN f64Zero = false := by decide
  cases hx with
  | answers ha => obtain ⟨_, _, _, rfl⟩ := ha; exact h
  | setParam => exact h
  | noteOn => exact h
  | noteOff => exact h
  | setSampleRate lo hi hlegal => exact ⟨hcfg, hc, ⟨hlegal, rfl, rfl⟩, hzero⟩
  | render nch n =>
    obtain ⟨_, _, _, heq⟩ := renderBlock_frame nch n.toNat (takeSnapshot s)
    rw [heq]
    exact ⟨hcfg, hc, hr, f64Add_sign_notNaN hclk (blockSeconds_sign_notNaN hr.1 n)⟩
  | reset =>
    have ⟨_, _, hreset⟩ := hc
    rw [← hcfg] at hreset
    exact ⟨hcfg, hc, ⟨hreset, rfl, rfl⟩, hzero⟩

/-- Settles O33: with the configuration fixed beside them, rate and Clock are kept by every command. -/
theorem stepKeepsRateAndClock : Obligations.StepKeepsRateAndClock := by
  intro s t hc hr hclk hst
  obtain ⟨hcfg, -, hr', hclk'⟩ :=
    step_keeps (P := RateClockInv s.cfg) (fun _ _ _ _ _ h => h) (fun _ _ h => h) (fun _ _ h => h)
      (fun _ _ _ h hx => (commandEffect_of_exec hx).rate_clock h) (fun _ h => CommandEffect.reset.rate_clock h)
      ⟨rfl, hc, hr, hclk⟩ hst
  exact ⟨hcfg, hr', hclk'⟩

/-! ### Framing (R43, R73) -/

/-- Both ports hold at most an incomplete command and an incomplete word. -/
def PortsFramed (s : State) : Prop := ∀ p, (s.port p).FramingInv

theorem portsFramed_iff {s : State} : PortsFramed s ↔ s.portR.FramingInv ∧ s.portC.FramingInv :=
  ⟨fun h => ⟨h .R, h .C⟩, fun ⟨hR, hC⟩ p => by cases p with
    | R => exact hR
    | C => exact hC⟩

theorem PortsFramed.setPort {s : State} (h : PortsFramed s) (p : PortId) {q : Port} (hq : q.FramingInv) :
    PortsFramed (s.setPort p q) := by
  intro p'
  by_cases hp : p' = p
  · rw [hp, setPort_port_same]; exact hq
  · rw [setPort_port_ne s q hp]; exact h p'

/-- A command's answers are all it does to a port: its words are already off the port it came from. -/
theorem CommandEffect.port {i : Instr} {s t : State} (hx : CommandEffect s i t) (p : PortId) :
    ∃ answers, t.port p = { s.port p with responses := answers } := by
  cases hx with
  | answers ha =>
    obtain ⟨_, answersR, answersC, rfl⟩ := ha
    cases p with
    | R => exact ⟨answersR, rfl⟩
    | C => exact ⟨answersC, rfl⟩
  | render nch n => rw [renderBlock_port]; exact ⟨(s.port p).responses, by cases p <;> rfl⟩
  | _ => exact ⟨(s.port p).responses, by cases p <;> rfl⟩

theorem PortsFramed.commandEffect {i : Instr} {s t : State} (h : PortsFramed s) (hx : CommandEffect s i t) :
    PortsFramed t := by
  intro p
  obtain ⟨_, hp⟩ := hx.port p
  rw [hp]
  exact h p

/-- Executing a port's words: a command's effect, or ILLEGAL, which only answers (R107) and so is within the effect
of any command. -/
theorem commandEffect_of_execute {p : PortId} {ws : List Word} {s t : State} (h : execute p ws s = .next t) :
    ∃ i, CommandEffect { s with cur := p } i t := by
  unfold execute at h
  split at h
  next i _ _ => exact ⟨i, commandEffect_of_exec h⟩
  next => cases h; exact ⟨.nop 0, .answers (answersOnly_raiseError _ _ _)⟩

theorem PortsFramed.runPort {s t : State} (h : PortsFramed s) {p : PortId} (hr : runPort p s = .next t) :
    PortsFramed t := by
  have hset : PortsFramed (s.setPort p (s.port p).takeCommand.2) := h.setPort p (takeCommand_framing (h p))
  unfold Machine.runPort at hr
  split at hr
  next ws q hq =>
    rw [hq] at hset
    obtain ⟨i, hx⟩ := commandEffect_of_execute hr
    have hcur : PortsFramed { s.setPort p q with cur := p } := portsFramed_iff.2 ⟨hset .R, hset .C⟩
    exact hcur.commandEffect hx
  next q hq =>
    rw [hq] at hset
    cases hr
    exact hset

/-- Every event keeps the framing of both ports; hardware reset empties it. -/
theorem PortsFramed.runEvent {s t : State} (h : PortsFramed s) {e : Event} (hr : runEvent e s = .next t) :
    PortsFramed t := by
  cases e with
  | command p => exact h.runPort hr
  | snapRead i =>
    cases hr
    unfold earlySnapRead
    split
    · exact portsFramed_iff.2 ⟨h .R, h .C⟩
    · exact h
  | hardwareReset =>
    cases hr
    exact portsFramed_iff.2 ⟨cleared_framing _, cleared_framing _⟩

/-! ### Snapshot reads belong to the next RENDER (R76) -/

theorem snapshotInv_of_noReads {s : State} (h : s.snapRaw = noSnapReads) : SnapshotInv s := by
  intro hb
  simp [snapshotBegun, h] at hb

@[simp] theorem renderBlock_snapRaw (nch : BitVec 8) (n : Nat) (s : State) :
    (renderBlock nch n s).snapRaw = s.snapRaw := by
  obtain ⟨_, _, _, heq⟩ := renderBlock_frame nch n s
  rw [heq]

/-- No command begins a snapshot and leaves it open: only `snapRead` events do. -/
theorem CommandEffect.noReads {i : Instr} {s t : State} (hx : CommandEffect s i t)
    (h : s.snapRaw = noSnapReads) : t.snapRaw = noSnapReads := by
  cases hx with
  | answers ha => obtain ⟨_, _, _, rfl⟩ := ha; exact h
  | render nch n => rw [renderBlock_snapRaw, takeSnapshot_snapRaw]
  | _ => exact h

theorem noReads_runPort {s t : State} (h : s.snapRaw = noSnapReads) {p : PortId}
    (hr : runPort p s = .next t) : t.snapRaw = noSnapReads := by
  unfold runPort at hr
  split at hr
  next =>
    obtain ⟨i, hx⟩ := commandEffect_of_execute hr
    exact hx.noReads (by rw [← h]; exact setPort_snapRaw _ _ _)
  next => cases hr; rw [setPort_snapRaw, h]

/-- A word with RENDER's opcode is a whole RENDER (R103, R231). -/
theorem decode_render {w : Word} (h : opcField w = Opcode.code .render) (ws : List Word) :
    decode (w :: ws) = .command (.render (fieldB w) (low16 w)) ws := by
  simp only [decode, h, ofCode?_code, decodeAs]

/-- A RENDER on port R that meets no FAULT is admitted, and its snapshot ends with it. -/
theorem noReads_execRender {nch : BitVec 8} {n : BitVec 16} {s t : State} (hcur : s.cur = .R)
    (hf : s.status.fault = false) (h : exec (.render nch n) s = .next t) : t.snapRaw = noSnapReads := by
  have hadm : firstRefusal .render false s = none :=
    firstRefusal_none (by rw [hcur]; rfl) (by rw [hf]; rfl)
  rw [exec_eq_guarded] at h
  cases h
  simp only [Instr.opcode, Instr.reservedSet, guarded, hadm, ownEffect, renderBlock_snapRaw,
    takeSnapshot_snapRaw]

/-- What a pending RENDER is: the next command of port R, with no FAULT. -/
theorem renderPending_iff (s : State) : renderPending s = true ↔
    ∃ w ws, s.portR.takeCommand.1 = some (w :: ws) ∧ opcField w = Opcode.code .render ∧
      s.status.fault = false := by
  unfold renderPending
  split
  next w ws h => simp [h]
  next h => simpa using fun w ws hw => absurd hw (h w ws)

theorem runPort_of_takeCommand {p : PortId} {s : State} {ws : List Word}
    (h : (s.port p).takeCommand.1 = some ws) :
    runPort p s = execute p ws (s.setPort p (s.port p).takeCommand.2) := by
  rw [runPort, ← Prod.mk.eta (p := (s.port p).takeCommand), h]

/-- The pending RENDER is the command port R runs next. -/
theorem noReads_runPort_of_renderPending {s t : State} (h : renderPending s = true)
    (hr : runPort .R s = .next t) : t.snapRaw = noSnapReads := by
  obtain ⟨w, ws, hq, hop, hf⟩ := (renderPending_iff s).1 h
  rw [runPort_of_takeCommand (p := .R) hq] at hr
  simp only [execute, decode_render hop] at hr
  exact noReads_execRender rfl (by rwa [setPort_status]) hr

/-- Port R's command ends the snapshot it belongs to; port C's leaves RENDER and FAULT as they are; a read is made
only for a pending RENDER; hardware reset discards the reads. -/
theorem SnapshotInv.runEvent {s t : State} (h : SnapshotInv s) {e : Event} (hr : runEvent e s = .next t) :
    SnapshotInv t := by
  cases e with
  | command p =>
    cases p with
    | R =>
      apply snapshotInv_of_noReads
      by_cases hs : s.snapRaw = noSnapReads
      · exact noReads_runPort hs hr
      · exact noReads_runPort_of_renderPending (h (bne_iff_ne.2 hs)) hr
    | C =>
      obtain ⟨_, _, _, _, rfl⟩ := withinPortC_runPort hr
      exact h
  | snapRead i =>
    cases hr
    unfold earlySnapRead
    split
    next hp => exact fun _ => (Bool.and_eq_true_iff.1 hp).1
    next => exact h
  | hardwareReset => cases hr; exact snapshotInv_of_noReads rfl

/-- Settles O34: taking an event off `sched` touches no port and no snapshot read, and every event keeps both. -/
theorem stepKeepsFramingAndSnapshot : Obligations.StepKeepsFramingAndSnapshot := by
  intro s t hs hR hC hst
  have hframed : PortsFramed (popEvent s) := portsFramed_iff.2 ⟨hR, hC⟩
  exact ⟨SnapshotInv.runEvent (s := popEvent s) hs hst, portsFramed_iff.1 (hframed.runEvent hst)⟩

/-! ### Who writes what (R31, R33 to R39, R80) -/

/-- Settles O26: each write of `CommandEffect` names its registers, and its command. -/
theorem registersHaveOnlyTheirWriters : Obligations.RegistersHaveOnlyTheirWriters := by
  intro i s t hx
  cases commandEffect_of_exec hx with
  | answers ha => obtain ⟨_, _, _, rfl⟩ := ha; simp
  | setParam => simp
  | noteOn => simp
  | noteOff => simp
  | setSampleRate => simp
  | render nch n =>
    obtain ⟨_, _, _, heq⟩ := renderBlock_frame nch n.toNat (takeSnapshot s)
    simp [heq]
  | reset => simp

end Sys2Proof.Machine
end

section
/-! PROOFS of the statements of `spec/20_memory.md`. Bytes make words; a step takes an event and performs it, and a
command event is `exec` of the decoded command; RENDERs of two states in step stay in step, which gives what a RENDER
does not depend on; a write between snapshot reads reaches the later ones. -/

namespace Sys2Proof.Machine

open Sys2Proof Sys2Proof.Claims

/-! ### Bytes (R72, R73) -/

/-- Little-endian bytes carry their word. -/
theorem wordOfBytes_fields (w : Word) :
    wordOfBytes (w.extractLsb' 0 8) (w.extractLsb' 8 8) (w.extractLsb' 16 8) (w.extractLsb' 24 8) = w := by
  have hlow : w.extractLsb' 8 8 ++ w.extractLsb' 0 8 = w.extractLsb' 0 16 :=
    BitVec.extractLsb'_append_extractLsb'_eq_extractLsb' rfl
  have hhigh : w.extractLsb' 24 8 ++ w.extractLsb' 16 8 = w.extractLsb' 16 16 :=
    BitVec.extractLsb'_append_extractLsb'_eq_extractLsb' rfl
  rw [wordOfBytes, hlow, hhigh]
  exact (extract_split w 16 (by norm_num)).symm

/-- A word's bytes before any others make that word, and then what the others make. -/
theorem packBytes_bytesLE_append (w : Word) (bs : List Byte) :
    packBytes (bytesLE w ++ bs) = (w :: (packBytes bs).1, (packBytes bs).2) := by
  simp only [bytesLE, List.cons_append, List.nil_append, packBytes, wordOfBytes_fields]

/-- Settles O10, by induction on the words; the bytes after them make no word. -/
theorem byteTransportIsLittleEndian : Obligations.ByteTransportIsLittleEndian := by
  intro ws bs hbs
  induction ws with
  | nil => exact packBytes_short hbs
  | cons w ws ih => rw [List.flatMap_cons, List.append_assoc, packBytes_bytesLE_append, ih]

/-! ### A command that no check refuses (R110) -/

/-- A command its port may carry, not frozen by FAULT and with its reserved bits clear, is its own effect. -/
theorem exec_admitted {i : Instr} {s : State} (hport : Opcode.legalOn i.opcode s.cur = true)
    (hfault : (s.status.fault && Opcode.frozenByFault i.opcode) = false) (hrsv : i.reservedSet = false) :
    exec i s = .next (ownEffect i s) := by
  rw [exec_eq_guarded, guarded, (firstRefusal_eq_none_iff _ _ _).2 ⟨hport, hfault, hrsv⟩]

/-! ### The frames of a RENDER (R80, R231) -/

/-- A RENDER admitted on port R is its snapshot and its compute step (R231). -/
theorem exec_render_admitted {s : State} (h : renderAdmitted s) (nch : BitVec 8) (n : BitVec 16) :
    exec (.render nch n) s = .next (renderBlock nch n.toNat (takeSnapshot s)) := by
  obtain ⟨hcur, hf⟩ := h
  exact exec_admitted (by rw [hcur]; rfl) (by rw [hf]; rfl) rfl

/-- The loop appends one frame of equal samples for each sample, or nothing when there is no channel (R80). -/
theorem sampleLoop_out (nch : BitVec 8) (t0 : F64) (n : Nat) (off : F64) (s : State) :
    ∃ ys : List F32, ys.length = n ∧ (sampleLoop nch t0 n off s).out =
      if nch = 0 then s.out else s.out ++ ys.map (fun y => List.replicate nch.toNat y) := by
  induction n generalizing off s with
  | zero => exact ⟨[], rfl, by simp [sampleLoop]⟩
  | succ n ih =>
    obtain ⟨ys, hlen, hout⟩ := ih (f64Add off s.dt) (sampleStep nch (f64Add t0 off) s)
    refine ⟨f32OfF64 (sampleStep nch (f64Add t0 off) s).dcY :: ys, by rw [List.length_cons, hlen], ?_⟩
    rw [sampleLoop, hout, sampleStep_eq]
    split
    · rfl
    · simp

/-- Settles O49: the snapshot and the Clock leave the output stream to the loop. -/
theorem renderAppendsExactlyItsFrames : Obligations.RenderAppendsExactlyItsFrames := by
  intro nch n s hs
  obtain ⟨ys, hlen, hout⟩ := sampleLoop_out nch s.clk n.toNat f64Zero (takeSnapshot s)
  refine ⟨_, exec_render_admitted hs nch n, fun h0 => ?_, fun h0 => ⟨ys, hlen, ?_⟩⟩
  · rw [if_pos h0] at hout; exact hout
  · rw [if_neg h0] at hout; exact hout

/-! ### What a RENDER does not depend on -/

/-- Two loops whose states are related stay related when the relation fixes DT and one sample keeps it. -/
theorem sampleLoop_related {R : State → State → Prop} {nch nch' : BitVec 8}
    (hdt : ∀ s s', R s s' → s'.dt = s.dt)
    (hstep : ∀ t s s', R s s' → R (sampleStep nch t s) (sampleStep nch' t s'))
    (t0 : F64) (n : Nat) (off : F64) {s s' : State} (h : R s s') :
    R (sampleLoop nch t0 n off s) (sampleLoop nch' t0 n off s') := by
  induction n generalizing off s s' with
  | zero => exact h
  | succ n ih =>
    rw [sampleLoop, sampleLoop, hdt s s' h]
    exact ih _ (hstep _ s s' h)

/-- `s'` is `s` but for the output stream. -/
def SameButOut (s s' : State) : Prop := ∃ out, s' = { s with out := out }

/-- No sample reads the output stream, and the channel count shapes nothing but the frame (R234). -/
theorem SameButOut.sampleStep {s s' : State} (h : SameButOut s s') (nch nch' : BitVec 8) (t : F64) :
    SameButOut (sampleStep nch t s) (sampleStep nch' t s') := by
  obtain ⟨out, rfl⟩ := h
  rw [sampleStep_eq, sampleStep_eq]
  exact ⟨_, rfl⟩

theorem renderBlock_sameButOut (nch nch' : BitVec 8) (n : Nat) (s : State) :
    SameButOut (renderBlock nch n s) (renderBlock nch' n s) := by
  have hloop : SameButOut (sampleLoop nch s.clk n f64Zero s) (sampleLoop nch' s.clk n f64Zero s) :=
    sampleLoop_related (fun _ _ ⟨_, h⟩ => by rw [h]) (fun t _ _ h => h.sampleStep nch nch' t)
      s.clk n f64Zero ⟨s.out, rfl⟩
  obtain ⟨out, heq⟩ := hloop
  exact ⟨out, by rw [renderBlock, renderBlock, heq]; rfl⟩

/-- Settles O50: the checks do not look at the channel count, so both RENDERs are refused alike or both run. -/
theorem channelCountChangesOnlyFrames : Obligations.ChannelCountChangesOnlyFrames := by
  intro nch nch' n s _
  refine ⟨_, _, exec_eq_guarded _ s, exec_eq_guarded _ s, ?_⟩
  simp only [Instr.opcode, Instr.reservedSet, ownEffect, guarded]
  cases firstRefusal .render false s with
  | some e => rfl
  | none =>
    obtain ⟨out, heq⟩ := renderBlock_sameButOut nch nch' n.toNat (takeSnapshot s)
    simp only [heq]

/-- `s` with what port C can write: P, ERR and port C itself (R78, R313). -/
def underPortC (params : Five F32) (err : ErrCode) (portC : Port) (s : State) : State :=
  { s with params := params, status := ⟨s.status.fault, err⟩, portC := portC }

/-- No sample reads P, ERR or port C, and none writes them (R234). -/
theorem sampleStep_underPortC (params : Five F32) (err : ErrCode) (portC : Port) (nch : BitVec 8) (t : F64)
    (s : State) : sampleStep nch t (underPortC params err portC s) =
      underPortC params err portC (sampleStep nch t s) := by
  rw [sampleStep_eq, sampleStep_eq]
  rfl

theorem renderBlock_underPortC (params : Five F32) (err : ErrCode) (portC : Port) (nch : BitVec 8) (n : Nat)
    (s : State) : renderBlock nch n (underPortC params err portC s) =
      underPortC params err portC (renderBlock nch n s) := by
  have hloop := sampleLoop_related (R := fun s s' => s' = underPortC params err portC s)
    (nch := nch) (nch' := nch) (fun _ _ h => by rw [h]; rfl)
    (fun t s _ h => by rw [h, sampleStep_underPortC]) s.clk n f64Zero (s := s) rfl
  exact congrArg (clockAdvance n) hloop

/-- With every read made, the snapshot no longer looks at P (R76). -/
theorem takeSnapshot_underPortC {s : State} (hread : ∀ i, (s.snapRaw.get i).isSome = true)
    (params : Five F32) (err : ErrCode) (portC : Port) :
    takeSnapshot (underPortC params err portC s) = underPortC params err portC (takeSnapshot s) := by
  have hget : ∀ i, snapRawOrRead (underPortC params err portC s) i = snapRawOrRead s i := by
    intro i
    obtain ⟨v, hv⟩ := Option.isSome_iff_exists.1 (hread i)
    have hv' : (underPortC params err portC s).snapRaw.get i = some v := hv
    rw [snapRawOrRead, snapRawOrRead, hv, hv', Option.getD_some, Option.getD_some]
  have hraw : snapshotRaw (underPortC params err portC s) = snapshotRaw s := by
    simp only [snapshotRaw, hget]
  rw [takeSnapshot, hraw]
  rfl

/-- Settles O53: neither the snapshot, all read, nor the compute step looks at what port C writes. -/
theorem renderIgnoresPortCAfterSnapshot : Obligations.RenderIgnoresPortCAfterSnapshot := by
  intro nch n s params err portC hs hread
  have hs' : renderAdmitted (underPortC params err portC s) := hs
  refine ⟨_, exec_render_admitted hs nch n, (exec_render_admitted hs' nch n).trans ?_⟩
  obtain ⟨_, _, _, heq⟩ := renderBlock_frame nch n.toNat (takeSnapshot s)
  rw [takeSnapshot_underPortC hread, renderBlock_underPortC, heq]
  rfl

/-! ### Snapshot reads and writes of P (R76, R78) -/

/-- A SET_PARAM with no reserved bit and a register's index writes it, on either port, outside the fault state. -/
theorem exec_setParam_admitted {s : State} (hf : s.status.fault = false) {x : BitVec 8} {j : ParamIdx}
    (hx : paramIdx? x = some j) (d : Word) : exec (.setParam x d 0) s = .next (paramWrite j d s) := by
  rw [exec_admitted (by cases s.cur <;> rfl) (by rw [hf]; rfl) rfl, ownEffect, setParam, hx]

/-- An early read happens for a pending RENDER that has not read the register. -/
theorem earlySnapRead_pending {s : State} {i : ParamIdx} (hp : renderPending s = true)
    (hi : s.snapRaw.get i = none) : earlySnapRead i s = snapReadNow i s := by
  simp [earlySnapRead, hp, hi]

/-- Otherwise it does nothing. -/
theorem earlySnapRead_idle {s : State} {i : ParamIdx} (h : renderPending s = false ∨ s.snapRaw.get i ≠ none) :
    earlySnapRead i s = s := by
  rcases h with hp | hi
  · simp [earlySnapRead, hp]
  · simp [earlySnapRead, hi]

/-- The read made is what the snapshot holds for the register, whatever is written after it. -/
theorem snapRawOrRead_paramWrite_snapReadNow_same (i j : ParamIdx) (d : F32) (s : State) :
    snapRawOrRead (paramWrite j d (snapReadNow i s)) i = s.params.get i := by
  simp [snapRawOrRead, paramRead]

/-- A read of one register leaves the other registers' part of the snapshot alone. -/
theorem snapRawOrRead_paramWrite_snapReadNow_ne {i k : ParamIdx} (hk : k ≠ i) (j : ParamIdx) (d : F32)
    (s : State) : snapRawOrRead (paramWrite j d (snapReadNow i s)) k = snapRawOrRead (paramWrite j d s) k := by
  simp [snapRawOrRead, paramRead, Five.get_set_ne _ _ hk]

/-- A register not read yet is held as it is written. -/
theorem snapRawOrRead_paramWrite_unread {s : State} {i : ParamIdx} (hi : s.snapRaw.get i = none) (d : F32) :
    snapRawOrRead (paramWrite i d s) i = d := by
  simp [snapRawOrRead, paramRead, hi]

/-- Settles O54: the pending RENDER meets no FAULT, so port C's write is made after the read and without it. -/
theorem snapshotSeesOldOrNewPerRegister : Obligations.SnapshotSeesOldOrNewPerRegister := by
  intro s i j x d hp hi hx
  obtain ⟨_, _, _, _, hf⟩ := (renderPending_iff s).1 hp
  have hread : runEvent (.snapRead i) s = .next (snapReadNow i s) :=
    congrArg Host.Outcome.next (earlySnapRead_pending hp hi)
  exact ⟨_, _, _, hread,
    exec_setParam_admitted (s := { snapReadNow i s with cur := .C }) hf hx d,
    exec_setParam_admitted (s := { s with cur := .C }) hf hx d,
    snapRawOrRead_paramWrite_snapReadNow_same i j d { s with cur := .C },
    fun hj => hj ▸ snapRawOrRead_paramWrite_unread (s := { s with cur := .C }) hi d,
    fun _ hk => snapRawOrRead_paramWrite_snapReadNow_ne hk j d { s with cur := .C }⟩

/-! ### A step runs the decoded command (R110) -/

/-- A command is read back from its own words, whatever follows them. -/
theorem decode_encode_append (i : Instr) (rest : List Word) : decode (encode i ++ rest) = .command i rest := by
  cases i with
  | nop rsv => exact Laws.RoundTrip.nop rsv rest
  | noteOn p v rsv => exact Laws.RoundTrip.noteOn p v rsv rest
  | noteOff p rsv => exact Laws.RoundTrip.noteOff p rsv rest
  | setParam x d rsv => exact Laws.RoundTrip.setParam x d rsv rest
  | getParam x rsv => exact Laws.RoundTrip.getParam x rsv rest
  | setSampleRate lo hi rsv => exact Laws.RoundTrip.setSampleRate lo hi rsv rest
  | render nch n => exact Laws.RoundTrip.render nch n rest
  | reset rsv => exact Laws.RoundTrip.reset rsv rest
  | readStatus rsv => exact Laws.RoundTrip.readStatus rsv rest
  | readClock rsv => exact Laws.RoundTrip.readClock rsv rest
  | readEnv rsv => exact Laws.RoundTrip.readEnv rsv rest

/-- A command is encoded in exactly the words it was decoded from (R101, R104), format by format. -/
theorem encode_append_of_decodeAs {op : Opcode} {w : Word} (hop : op.code = opcField w) {ws rest : List Word}
    {i : Instr} (h : decodeAs op w ws = .command i rest) : encode i ++ rest = w :: ws := by
  have hZ := wordZ_fields hop
  have hB := wordB_fields hop
  cases op with
  | noteOn => cases h; rw [encode, wordN1_fields hop]; rfl
  | noteOff | getParam | render => cases h; rw [encode, hB]; rfl
  | setParam =>
    match ws, h with
    | _ :: _, rfl => rw [encode, hB]; rfl
  | setSampleRate =>
    match ws, h with
    | _ :: _ :: _, rfl => rw [encode, hZ]; rfl
  | nop | reset | readStatus | readClock | readEnv => cases h; rw [encode, hZ]; rfl

theorem encode_append_of_decode {ws rest : List Word} {i : Instr} (h : decode ws = .command i rest) :
    encode i ++ rest = ws := by
  unfold decode at h
  split at h
  next => cases h
  next w ws =>
    split at h
    next op hop => exact encode_append_of_decodeAs (code_of_ofCode? hop) h
    next => cases h

/-- A command is as long as its command word says (R103). -/
theorem encode_eq_cons (i : Instr) : ∃ w ws, encode i = w :: ws ∧ cmdLength w = (encode i).length := by
  cases i <;> exact ⟨_, _, rfl, by simp [cmdLength, Opcode.code, encode]⟩

/-- A port whose words decode to a command gives exactly that command's words, and is left without them. -/
theorem takeCommand_of_decode {q : Port} {i : Instr} {rest : List Word} (h : decode q.words = .command i rest) :
    q.takeCommand = (some (encode i), q.dropWords (encode i).length) := by
  obtain ⟨w, ws, hi, hlen⟩ := encode_eq_cons i
  have hwords : q.words = w :: (ws ++ rest) := by rw [← encode_append_of_decode h, hi, List.cons_append]
  have hle : cmdLength w ≤ (w :: (ws ++ rest)).length := by
    rw [hlen, hi, ← List.cons_append, List.length_append]; exact Nat.le_add_right _ _
  have htake : (w :: (ws ++ rest)).take (encode i).length = encode i := by
    rw [← List.cons_append, ← hi, List.take_left]
  rw [Port.takeCommand, hwords]
  simp only [if_pos hle]
  rw [hlen, htake]

/-- Running a port whose words decode to a command is `exec` of the command on that port, without its words. -/
theorem runPort_of_decode {p : PortId} {s : State} {i : Instr} {rest : List Word}
    (h : decode (s.port p).words = .command i rest) :
    runPort p s = exec i { s.setPort p ((s.port p).dropWords (encode i).length) with cur := p } := by
  have hdec : decode (encode i) = .command i [] := by simpa using decode_encode_append i []
  rw [runPort, takeCommand_of_decode h]
  simp only [execute, hdec]

@[simp] theorem popEvent_port (s : State) (p : PortId) : (popEvent s).port p = s.port p := by
  cases p <;> rfl

theorem popEvent_setPort (s : State) (p : PortId) (q : Port) :
    (popEvent s).setPort p q = popEvent (s.setPort p q) := by
  cases p <;> rfl

/-- Settles O8: the port gives the words the decoder read, and what is left is what the decoder left. -/
theorem stepRunsDecodedCommand : Obligations.StepRunsDecodedCommand := by
  intro s p i rest hev hdec
  have hwords : (s.port p).words = encode i ++ rest := (encode_append_of_decode hdec).symm
  refine ⟨?_, dropWords_responses _ _, ?_⟩
  · rw [dropWords_words, hwords, List.drop_left]
  · have hdec' : decode ((popEvent s).port p).words = .command i rest := by rwa [popEvent_port]
    rw [step, hev, runEvent, runPort_of_decode hdec', popEvent_port, popEvent_setPort]
    cases p <;> rfl

/-! ### READ_STATUS twice (R81, R284) -/

/-- READ_STATUS on port R with no reserved bit is always admitted. -/
theorem exec_readStatus_admitted {s : State} (h : s.cur = .R) :
    exec (.readStatus 0) s = .next (readStatus s) :=
  exec_admitted (by rw [h]; rfl) (Bool.and_false _) rfl

/-- ERR is bits 27:24 of the status word: clearing it is clearing them. -/
theorem statusWord_setErr_noError (s : State) : statusWord (setErr .noError s) = withoutErr (statusWord s) := by
  have hmask : (0xF0FFFFFF#32 : Word) =
      ((BitVec.allOnes 4 ++ 0#4) ++ BitVec.allOnes 8) ++ BitVec.allOnes 16 := by decide
  rw [withoutErr, hmask, statusWord, statusWord, BitVec.and_append, BitVec.and_append, BitVec.and_append,
    BitVec.and_allOnes, BitVec.and_allOnes, BitVec.and_allOnes, BitVec.and_zero]
  rfl

/-- Settles O25: the first read leaves ERR clear and every other field of the status word as it was. -/
theorem secondReadStatusShowsErrCleared : Obligations.SecondReadStatusShowsErrCleared := by
  intro s hs
  refine ⟨readStatus s, readStatus (readStatus s), exec_readStatus_admitted hs, exec_readStatus_admitted hs,
    ?_, rfl⟩
  have hsecond : statusWord (readStatus s) = withoutErr (statusWord s) := statusWord_setErr_noError s
  rw [← hsecond]
  exact List.append_assoc _ _ _

/-! ### A step performs the next event (R76, R77, R78) -/

/-- A command taken from a port begins with the first word before the port. -/
theorem head?_words_of_takeCommand {q : Port} {w : Word} {ws : List Word}
    (h : q.takeCommand.1 = some (w :: ws)) : q.words.head? = some w := by
  rcases takeCommand_cases q with ⟨-, hq⟩ | ⟨v, vs, hwords, -, hq⟩ | ⟨v, vs, -, -, hq⟩
  · rw [hq] at h; cases h
  · rw [hq, Option.some.injEq] at h
    have hhead := List.head?_take (l := v :: vs) (i := cmdLength v)
    rw [h, if_neg (cmdLength_pos v).ne'] at hhead
    rw [hwords, ← hhead]
    rfl
  · rw [hq] at h; cases h

/-- A RENDER that will execute is next on port R when its word is: RENDER has no data words (R103). -/
theorem renderPending_iff_renderIsNext (s : State) : renderPending s = true ↔ renderIsNext s := by
  rw [renderPending_iff]
  constructor
  · rintro ⟨w, ws, hq, hop, hf⟩
    refine ⟨?_, hf⟩
    rw [head?_words_of_takeCommand hq]
    exact congrArg some hop
  · rintro ⟨hhead, hf⟩
    obtain ⟨w, hw, hop⟩ := Option.map_eq_some_iff.1 hhead
    obtain ⟨ws, hwords⟩ := List.head?_eq_some_iff.1 hw
    have hdec : decode s.portR.words = .command (.render (fieldB w) (low16 w)) ws := by
      rw [hwords]; exact decode_render hop ws
    exact ⟨_, [], by rw [takeCommand_of_decode hdec]; rfl, opcField_wordB _ _ _, hf⟩

/-- A step with an event listed performs that event (R78). -/
theorem step_of_sched {s : State} {e : Event} {rest : List Event} (h : s.sched = e :: rest) :
    step s = runEvent e (eventTaken s) := by
  rw [step, nextEvent, h]; rfl

/-- Taking an event off an empty interleaving takes nothing. -/
theorem popEvent_of_sched_nil {s : State} (h : s.sched = []) : popEvent s = s := by
  cases s
  cases h
  rfl

/-- Settles O55: an early read is made exactly for the RENDER that is next, and `sched` matters to no port. -/
theorem stepPerformsTheNextEvent : Obligations.StepPerformsTheNextEvent := by
  intro s
  refine ⟨fun p rest h => step_of_sched h, fun rest h => step_of_sched h,
    fun i rest h => ⟨fun hr hi => ?_, fun hn => ?_⟩, fun h => ?_⟩
  · have hp : renderPending (eventTaken s) = true := (renderPending_iff_renderIsNext _).2 hr
    refine ⟨snapReadNow i (eventTaken s), ?_, Five.get_set_same _ _ _,
      fun _ hk => Five.get_set_ne _ _ hk, rfl⟩
    rw [step_of_sched h, runEvent, earlySnapRead_pending hp hi]
  · have hp : renderPending (eventTaken s) = false ∨ (eventTaken s).snapRaw.get i ≠ none :=
      hn.imp_left fun hr => Bool.eq_false_iff.2 fun hp => hr ((renderPending_iff_renderIsNext _).1 hp)
    rw [step_of_sched h, runEvent, earlySnapRead_idle hp]
  · rw [step, nextEvent, h, popEvent_of_sched_nil h]; rfl

end Sys2Proof.Machine
end

section
/-! PROOFS of the statements of `spec/30_encoding.md`. Decoder and encoder are inverse; a command's words begin with
its command word, which gives the length and the reserved bits; a port gives up exactly a command's words, and an
ILLEGAL one does nothing else but answer. -/

namespace Sys2Proof.Machine

open Sys2Proof Sys2Proof.Claims

/-! ### Decoder and encoder are inverse (R100 to R105) -/

/-- Settles O1, format by format in `decode_encode_append`. -/
theorem decodeOfEncodeIsIdentity : Obligations.DecodeOfEncodeIsIdentity :=
  decode_encode_append

/-- Settles O2: the decoder reads an opcode's own fields, which make up its whole word. -/
theorem encodeOfDecodeIsIdentity : Obligations.EncodeOfDecodeIsIdentity :=
  fun _ _ _ => encode_append_of_decode

/-- Settles O5, by running the decoder on each example. -/
theorem specEncodingExamplesDecode : Obligations.SpecEncodingExamplesDecode := by
  unfold Obligations.SpecEncodingExamplesDecode
  decide

/-! ### Every word decodes or is undefined (R103, R107, R108) -/

/-- The first word a command was decoded from is its own command word, which gives its length (R103). -/
theorem encode_eq_cons_of_decode {w : Word} {ws after : List Word} {i : Instr}
    (h : decode (w :: ws) = .command i after) : ∃ data, encode i = w :: data ∧ cmdLength w = (encode i).length := by
  obtain ⟨v, data, hi, hlen⟩ := encode_eq_cons i
  have heq : v :: (data ++ after) = w :: ws := by
    rw [← List.cons_append, ← hi, encode_append_of_decode h]
  obtain ⟨rfl, -⟩ := List.cons.inj heq
  exact ⟨data, hi, hlen⟩

/-- The decoder leaves the words after the ones it encodes back to. -/
theorem drop_encode_length_of_decode {ws after : List Word} {i : Instr} (h : decode ws = .command i after) :
    ws.drop (encode i).length = after := by
  rw [← encode_append_of_decode h, List.drop_left]

/-- With all the words of its length present a defined opcode decodes: no data word is missing (R103, R104). -/
theorem decodeAs_of_complete {op : Opcode} {w : Word} (hop : op.code = opcField w) {ws : List Word}
    (hlen : cmdLength w ≤ (w :: ws).length) : ∃ i after, decodeAs op w ws = .command i after := by
  rw [cmdLength, ← hop] at hlen
  cases op with
  | setParam =>
    match ws, hlen with
    | _ :: _, _ => exact ⟨_, _, rfl⟩
  | setSampleRate =>
    match ws, hlen with
    | _ :: _ :: _, _ => exact ⟨_, _, rfl⟩
  | _ => exact ⟨_, _, rfl⟩

/-- OPC above 0x0A is undefined, whatever follows (R107). -/
theorem decode_undefined {w : Word} (h : 0x0A < (opcField w).toNat) (ws : List Word) :
    decode (w :: ws) = .rejected (.undefinedOpcode (opcField w)) := by
  have hnone : Opcode.ofCode? (opcField w) = none := by
    rw [← Option.not_isSome_iff_eq_none, ofCode?_isSome]
    simpa using h
  rw [decode, hnone]

/-- Settles O3: OPC names an opcode exactly up to 0x0A, and a named opcode lacks no data word. -/
theorem everyWordIsCommandOrUndefined : Obligations.EveryWordIsCommandOrUndefined := by
  intro w ws hlen
  split_ifs with hopc
  · have hdef : (Opcode.ofCode? (opcField w)).isSome := by rw [ofCode?_isSome]; exact decide_eq_true hopc
    obtain ⟨op, hop⟩ := Option.isSome_iff_exists.1 hdef
    obtain ⟨i, after, hi⟩ := decodeAs_of_complete (code_of_ofCode? hop) hlen
    have hdec : decode (w :: ws) = .command i after := by rw [decode, hop]; exact hi
    obtain ⟨_, -, hw⟩ := encode_eq_cons_of_decode hdec
    exact ⟨i, by rw [hw, drop_encode_length_of_decode hdec, hdec], hw.symm⟩
  · exact decode_undefined (Nat.lt_of_not_le hopc) ws

/-! ### Reserved bits (R102, R106) -/

/-- A mask below the high part of a word sees only the low part. -/
theorem append_and_low_eq_zero_iff {m n : Nat} (a : BitVec m) (b mask : BitVec n) :
    (a ++ b) &&& (0#m ++ mask) = 0 ↔ b &&& mask = 0 := by
  have hzero : (0 : BitVec (m + n)) = 0#m ++ 0#n := BitVec.zero_append_zero.symm
  rw [BitVec.and_append, BitVec.and_zero, hzero]
  exact BitVec.append_right_inj 0#m

theorem wordZ_reserved_clear_iff (op : Opcode) (r : BitVec 24) :
    r = 0 ↔ wordZ op r &&& 0x00FFFFFF#32 = 0 := by
  have hmask : (0x00FFFFFF#32 : Word) = 0#8 ++ BitVec.allOnes 24 := by decide
  rw [hmask, wordZ, append_and_low_eq_zero_iff, BitVec.and_allOnes]

theorem wordB_reserved_clear_iff (op : Opcode) (b : BitVec 8) (r : BitVec 16) :
    r = 0 ↔ wordB op b r &&& 0x0000FFFF#32 = 0 := by
  have hmask : (0x0000FFFF#32 : Word) = 0#16 ++ BitVec.allOnes 16 := by decide
  rw [hmask, wordB, append_and_low_eq_zero_iff, BitVec.and_allOnes]

theorem wordN1_reserved_clear_iff (op : Opcode) (b c r : BitVec 8) :
    r = 0 ↔ wordN1 op b c r &&& 0x000000FF#32 = 0 := by
  have hmask : (0x000000FF#32 : Word) = 0#16 ++ (0#8 ++ BitVec.allOnes 8) := by decide
  rw [hmask, wordN1, append_and_low_eq_zero_iff, append_and_low_eq_zero_iff, BitVec.and_allOnes]

/-- A command is well-formed when its command word has no bit in its reserved mask, format by format. -/
theorem wf_iff_reservedMask_clear {i : Instr} {w : Word} {data : List Word} (h : encode i = w :: data) :
    i.wf = true ↔ w &&& reservedMask i = 0 := by
  rw [Instr.wf, Bool.not_eq_true']
  cases i with
  | noteOn p v r => cases h; exact bne_eq_false_iff_eq.trans (wordN1_reserved_clear_iff _ p v r)
  | noteOff x r | setParam x _ r | getParam x r =>
    cases h; exact bne_eq_false_iff_eq.trans (wordB_reserved_clear_iff _ x r)
  | render => exact iff_of_true rfl BitVec.and_zero
  | nop r | setSampleRate _ _ r | reset r | readStatus r | readClock r | readEnv r =>
    cases h; exact bne_eq_false_iff_eq.trans (wordZ_reserved_clear_iff _ r)

/-- Settles O4: the command word is the first word of the decoded command's encoding. -/
theorem wellFormedMeansReservedMaskClear : Obligations.WellFormedMeansReservedMaskClear := by
  intro w _ _ i h
  obtain ⟨_, hi, -⟩ := encode_eq_cons_of_decode h
  exact wf_iff_reservedMask_clear hi

/-! ### A port gives up exactly a command's words (R73, R103) -/

theorem opcField_toNat (w : Word) : (opcField w).toNat = w.toNat / 2 ^ 24 := by
  rw [opcField, BitVec.extractLsb'_toNat, Nat.shiftRight_eq_div_pow]
  exact Nat.mod_eq_of_lt (by omega)

theorem opcField_eq_iff (w : Word) (c : BitVec 8) : opcField w = c ↔ w.toNat / 2 ^ 24 = c.toNat := by
  rw [← opcField_toNat, BitVec.toNat_inj]

/-- R103's length by the number in bits 31:24. -/
theorem cmdLength_eq (w : Word) :
    cmdLength w = if w.toNat / 2 ^ 24 = 3 then 2 else if w.toNat / 2 ^ 24 = 5 then 3 else 1 := by
  simp only [cmdLength, opcField_eq_iff]
  rfl

theorem takeCommand_of_complete {q : Port} {w : Word} {ws : List Word} (hq : q.words = w :: ws)
    (hlen : cmdLength w ≤ (w :: ws).length) :
    q.takeCommand = (some ((w :: ws).take (cmdLength w)), q.dropWords (cmdLength w)) := by
  rw [Port.takeCommand, hq]
  exact if_pos hlen

theorem takeCommand_of_incomplete {q : Port} {w : Word} {ws : List Word} (hq : q.words = w :: ws)
    (hlen : (w :: ws).length < cmdLength w) : q.takeCommand = (none, q.received (w :: ws)) := by
  rw [Port.takeCommand, hq]
  exact if_neg hlen.not_ge

/-- A port with all the words of a command before it executes exactly those, and is left without them. -/
theorem runPort_of_complete {p : PortId} {s : State} {w : Word} {ws : List Word}
    (hw : (s.port p).words = w :: ws) (hlen : cmdLength w ≤ (w :: ws).length) :
    runPort p s = execute p ((w :: ws).take (cmdLength w)) (s.setPort p ((s.port p).dropWords (cmdLength w))) := by
  rw [runPort, takeCommand_of_complete hw hlen]

@[simp] theorem port_setCur (s : State) (p q : PortId) : ({ s with cur := p } : State).port q = s.port q := by
  cases q <;> rfl

/-- Executing a port's words leaves the words before both ports alone, ILLEGAL or not. -/
theorem execute_words {p : PortId} {ws : List Word} {s t : State} (q : PortId) (h : execute p ws s = .next t) :
    (t.port q).words = (s.port q).words := by
  unfold execute at h
  split at h
  next => rw [exec_words q h, port_setCur]
  next => cases h; rw [raiseError_words, port_setCur]

/-- Settles O6: taking a command drops its words, and what becomes of it leaves the ports' words alone. -/
theorem framingIndependentOfOutcome : Obligations.FramingIndependentOfOutcome := by
  refine ⟨cmdLength_eq, fun p s w ws hw => ⟨fun hlen => ?_, fun hlen => ?_⟩⟩
  · obtain ⟨t, ht⟩ := runPort_hasNext p s
    have hexec := (runPort_of_complete hw hlen).symm.trans ht
    exact ⟨t, ht, by rw [execute_words p hexec, setPort_port_same, dropWords_words, hw]⟩
  · refine ⟨(s.port p).received (w :: ws), ?_, received_words _ _, rfl⟩
    rw [runPort, takeCommand_of_incomplete hw hlen]

/-! ### ILLEGAL (R107) -/

/-- The state after an ILLEGAL command with `n` response words on port `p`, which taking the command left as `q`. -/
def illegalOn (p : PortId) (q : Port) (n : Nat) (s : State) : State :=
  raiseError .illegal n { s.setPort p q with cur := p }

theorem illegalOn_status (p : PortId) (q : Port) (n : Nat) (s : State) :
    (illegalOn p q n s).status = ⟨s.status.fault, .illegal⟩ := by
  rw [illegalOn, raiseError_status, setPort_status]

theorem illegalOn_port_same (p : PortId) (q : Port) (n : Nat) (s : State) :
    (illegalOn p q n s).port p = { q with responses := q.responses ++ List.replicate n 0 } := by
  cases p <;> rfl

theorem illegalOn_port_ne {p p' : PortId} (h : p' ≠ p) (q : Port) (n : Nat) (s : State) :
    (illegalOn p q n s).port p' = s.port p' := by
  rw [← setPort_port_ne s q h, ← port_setCur _ p]
  exact respond_port_ne _ _ h

theorem sameBlock_illegalOn (p : PortId) (q : Port) (n : Nat) (s : State) : sameBlock s (illegalOn p q n s) := by
  simp [illegalOn, sameBlock]

/-- An undefined opcode is one word (R103, R107). -/
theorem cmdLength_undefined {w : Word} (h : 0x0A < (opcField w).toNat) : cmdLength w = 1 := by
  rw [opcField_toNat] at h
  rw [cmdLength_eq, if_neg (by omega), if_neg (by omega)]

/-- An undefined opcode before a port is ILLEGAL there and answers no word. -/
theorem runPort_undefined {p : PortId} {s : State} {w : Word} {ws : List Word} (hw : (s.port p).words = w :: ws)
    (h : 0x0A < (opcField w).toNat) : runPort p s = .next (illegalOn p ((s.port p).dropWords 1) 0 s) := by
  have hlen := cmdLength_undefined h
  rw [runPort_of_complete hw (hlen ▸ Nat.succ_pos _), hlen, execute, List.take_succ_cons, decode_undefined h]
  rfl

theorem portCMayCarry_eq (i : Instr) : portCMayCarry i = Opcode.legalOnC i.opcode := by
  cases i <;> rfl

theorem responseCount_eq (i : Instr) : responseCount i = Opcode.responseWords i.opcode := by
  cases i <;> rfl

/-- A command its port may not carry raises ILLEGAL with its zero words, before any other check (R110). -/
theorem exec_illegal {i : Instr} {s : State} (h : Opcode.legalOn i.opcode s.cur = false) :
    exec i s = .next (raiseError .illegal (Opcode.responseWords i.opcode) s) := by
  rw [exec_eq_guarded, guarded, firstRefusal_illegal h]

/-- A command before port C that it may not carry is ILLEGAL there and answers its zero words. -/
theorem runPort_illegalOnC {s : State} {i : Instr} {rest : List Word} (hdec : decode s.portC.words = .command i rest)
    (h : portCMayCarry i = false) :
    runPort .C s = .next (illegalOn .C (s.portC.dropWords (encode i).length) (responseCount i) s) := by
  rw [portCMayCarry_eq] at h
  rw [responseCount_eq]
  exact (runPort_of_decode (p := .C) hdec).trans (exec_illegal h)

/-- Settles O7: either command is ILLEGAL on the port without its words. -/
theorem illegalCommandsAreRefused : Obligations.IllegalCommandsAreRefused := by
  refine ⟨fun p s w ws hw hopc => ?_, fun s ws rest i hw hdec hport => ?_⟩
  · refine ⟨_, runPort_undefined hw hopc, illegalOn_status _ _ _ _, ?_, ?_,
      fun _ hq => illegalOn_port_ne hq _ _ _, sameBlock_illegalOn _ _ _ _⟩
    · rw [illegalOn_port_same]
      exact (dropWords_words _ 1).trans (congrArg (List.drop 1) hw)
    · rw [illegalOn_port_same, dropWords_responses]
      exact List.append_nil _
  · rw [← hw] at hdec
    refine ⟨_, runPort_illegalOnC hdec hport, illegalOn_status _ _ _ _, ?_, ?_, rfl, sameBlock_illegalOn _ _ _ _⟩
    · exact (dropWords_words _ _).trans (drop_encode_length_of_decode hdec)
    · exact congrArg (· ++ List.replicate (responseCount i) 0) (dropWords_responses s.portC _)

end Sys2Proof.Machine
end

section
/-! PROOFS of the statements of `spec/41_clock.md`. A command is the first error of its checks, or its own effect, in
the statements' own words; RENDER alone advances the Clock, by a non-negative time. -/

namespace Sys2Proof.Machine

open Sys2Proof Sys2Proof.Claims

/-! ### CLK never decreases (R131, R134) -/

/-- The Clock after a RENDER is the sum of two non-negative times, so it is not below the old one (R131). -/
theorem renderBlock_clk_le {s : State} (hr : RateInv s) (hclk : ClockInv s) (nch : BitVec 8) (n : BitVec 16) :
    f64Le s.clk (renderBlock nch n.toNat s).clk = true ∧ f64Neg? (renderBlock nch n.toNat s).clk = false := by
  obtain ⟨_, _, _, heq⟩ := renderBlock_frame nch n.toNat s
  rw [heq]
  obtain ⟨hlegal, -⟩ := hr
  have hd := blockSeconds_sign_notNaN hlegal n
  exact ⟨(f64Add_nonneg (f64Le_of_nonneg_neg hclk.2 hclk.1) (f64Le_of_nonneg_neg hd.2 hd.1)).1,
    (f64Add_sign_notNaN hclk hd).1⟩

/-- Settles O35: RENDER adds to CLK, a rate change and RESET zero it, and every other effect leaves it alone. -/
theorem clockNeverDecreasesBetweenResets : Obligations.ClockNeverDecreasesBetweenResets := by
  intro i s t hr hclk hx
  have hsame : f64Le s.clk s.clk = true ∧ f64Neg? s.clk = false := ⟨f64Le_refl hclk.2, hclk.1⟩
  cases commandEffect_of_exec hx with
  | answers ha => obtain ⟨_, _, _, rfl⟩ := ha; exact .inl hsame
  | setParam => exact .inl hsame
  | noteOn => exact .inl hsame
  | noteOff => exact .inl hsame
  | setSampleRate lo hi hlegal => exact .inr ⟨rfl, .inl ⟨lo, hi, rfl, hlegal⟩⟩
  | render nch n => exact .inl (renderBlock_clk_le (s := takeSnapshot s) hr hclk nch n)
  | reset => exact .inr ⟨rfl, .inr rfl⟩

/-! ### The checks and the answers, in the statements' words (R15, R79, R110) -/

theorem respond_cur_eq_answered (ws : List Word) (s : State) : respond s.cur ws s = answered s ws := by
  cases h : s.cur with
  | R => simp [answered, respond, State.setPort, State.port, h]
  | C => simp [answered, respond, State.setPort, State.port, h]

/-- A port that is not C is R, the port a read answers on. -/
theorem respond_R_eq_answered {s : State} (h : s.cur ≠ .C) (ws : List Word) : respond .R ws s = answered s ws := by
  have hR : s.cur = .R := by
    cases hcur : s.cur with
    | R => rfl
    | C => exact absurd hcur h
  rw [← hR, respond_cur_eq_answered]

theorem raiseError_eq_refused (e : ErrCode) (n : Nat) (s : State) : raiseError e n s = refused s e n := by
  rw [raiseError, respond_cur_eq_answered]
  cases h : s.cur with
  | R => simp [answered, refused, setErr, h]
  | C => simp [answered, refused, setErr, h]

/-- The checks of R110 in order, then the command's own effect. -/
theorem exec_eq_checks (i : Instr) (s : State) : exec i s = .next (
    if Opcode.legalOn i.opcode s.cur = false then refused s .illegal (Opcode.responseWords i.opcode)
    else if (s.status.fault && Opcode.frozenByFault i.opcode) = true then
      refused s .faulted (Opcode.responseWords i.opcode)
    else if i.reservedSet = true then refused s .reserved (Opcode.responseWords i.opcode)
    else ownEffect i s) := by
  rw [exec_eq_guarded, guarded, firstRefusal]
  split_ifs <;> simp only [raiseError_eq_refused]

/-- A command that port C may not carry is illegal exactly there (R107). -/
theorem legalOn_eq_false_iff {op : Opcode} (h : Opcode.legalOnC op = false) (p : PortId) :
    Opcode.legalOn op p = false ↔ p = .C := by
  cases p <;> simp [Opcode.legalOn, h]

/-! ### SET_SAMPLE_RATE (R135, R136) -/

theorem legalRate_iff (r : F64) : legalRate r = true ↔
    f64IsFinite r = true ∧ f64Lt f64Zero r = true ∧ f64IsFinite (f64Div f64One r) = true := by
  simp [legalRate, and_assoc]

/-- Settles O18: what is left after the checks is `changeRate`, whose two cases are the statement's. -/
theorem setSampleRateRebasesOrFaults : Obligations.SetSampleRateRebasesOrFaults := by
  intro lo hi rsv s
  refine ⟨rfl, ?_⟩
  simp only [exec_eq_checks, Instr.opcode, Instr.reservedSet, ownEffect, Opcode.frozenByFault, Bool.and_true,
    legalOn_eq_false_iff (op := .setSampleRate) rfl, bne_iff_ne, changeRate, legalRate_iff, raiseError_eq_refused]
  rfl

/-! ### READ_CLOCK (R138) -/

/-- Settles O22: past the checks the port is R, which is the port answered. -/
theorem readClockAnswersLowWordFirst : Obligations.ReadClockAnswersLowWordFirst := by
  intro rsv s
  refine ⟨rfl, ?_⟩
  simp only [exec_eq_checks, Instr.opcode, Instr.reservedSet, ownEffect, Opcode.frozenByFault, Bool.and_false,
    legalOn_eq_false_iff (op := .readClock) rfl, Bool.false_eq_true, if_false, bne_iff_ne]
  congr 1
  split_ifs with hC
  · rfl
  · rfl
  · exact respond_R_eq_answered hC _

end Sys2Proof.Machine
end

section
/-! PROOFS of the statements of `spec/42_note_tracker.md`. A note command meets the checks of R110 and is then
`noteOn` or `noteOff`, each equal to the statement's cases over the numbers its fields hold. -/

namespace Sys2Proof.Machine

open Sys2Proof Sys2Proof.Claims

/-! ### Numbers 0 to 127 (R105, R301) -/

theorem outOfRange_iff (x : BitVec 8) : outOfRange x = true ↔ 127 < x.toNat := decide_eq_true_iff

/-- A number in range is held unchanged. -/
theorem midi7_toNat {x : BitVec 8} (h : ¬ 127 < x.toNat) : (midi7 x).toNat = x.toNat := by
  rw [midi7, BitVec.toNat_setWidth]
  exact Nat.mod_eq_of_lt (by omega)

/-! ### The checks of a command of port R that FAULT refuses and that answers no word (R79, R107, R303) -/

theorem exec_eq_checks_frozen {i : Instr} (hport : Opcode.legalOnC i.opcode = false)
    (hfrozen : Opcode.frozenByFault i.opcode = true) (hwords : Opcode.responseWords i.opcode = 0) (s : State) :
    exec i s = .next (
      if s.cur = .C then refused s .illegal 0
      else if s.status.fault = true then refused s .faulted 0
      else if i.reservedSet = true then refused s .reserved 0
      else ownEffect i s) := by
  simp only [exec_eq_checks, legalOn_eq_false_iff hport, hfrozen, Bool.and_true, hwords]

/-! ### NOTE_ON (R151, R180) -/

theorem noteOn_eq (p v : BitVec 8) (s : State) : noteOn p v s =
    if 127 < p.toNat ∨ 127 < v.toNat then refused s .range 0 else startNote (midi7 p) (midi7 v) s := by
  simp only [noteOn, Bool.or_eq_true, outOfRange_iff, raiseError_eq_refused]

/-- Settles O14: past the checks and RANGE, `startNote` writes tracker, latch and envelope as stated. -/
theorem noteOnStealsAndTriggers : Obligations.NoteOnStealsAndTriggers := by
  intro p v rsv s
  refine ⟨rfl, ?_⟩
  rw [exec_eq_checks_frozen rfl rfl rfl]
  simp only [Instr.reservedSet, bne_iff_ne, ownEffect, noteOn_eq]
  rfl

/-! ### NOTE_OFF (R153, R154, R181) -/

/-- The tracker's test of NOTE_OFF, in numbers: a 7-bit pitch equals an 8-bit field that is in range. -/
theorem sounding_pitch_iff {p : BitVec 8} (h : ¬ 127 < p.toNat) (nt : NoteTracker) :
    (nt.sounding && nt.pitch == midi7 p) = true ↔ nt.sounding = true ∧ nt.pitch.toNat = p.toNat := by
  rw [Bool.and_eq_true, beq_iff_eq, ← BitVec.toNat_inj, midi7_toNat h]

theorem noteOff_eq (p : BitVec 8) (s : State) : noteOff p s =
    if 127 < p.toNat then refused s .range 0
    else if s.nt.sounding = true ∧ s.nt.pitch.toNat = p.toNat then endNote s
    else s := by
  simp only [noteOff, outOfRange_iff, raiseError_eq_refused]
  by_cases hp : 127 < p.toNat
  · rw [if_pos hp, if_pos hp]
  · rw [if_neg hp, if_neg hp, if_congr (sounding_pitch_iff hp s.nt) rfl rfl]

/-- Settles O15: past the checks and RANGE, `endNote` writes tracker and envelope as stated, on a matching pitch. -/
theorem noteOffReleasesOnlyTheSoundingPitch : Obligations.NoteOffReleasesOnlyTheSoundingPitch := by
  intro p rsv s
  refine ⟨rfl, ?_⟩
  rw [exec_eq_checks_frozen rfl rfl rfl]
  simp only [Instr.reservedSet, bne_iff_ne, ownEffect, noteOff_eq]
  rfl

end Sys2Proof.Machine
end

section
/-! PROOFS of the statements of `spec/43_envelope.md`. An evaluation is its stage's formula, by equations for a stage
that is done and one that is not; each formula is monotone in elapsed time, up to the value at which the stage ends. -/

namespace Sys2Proof.Machine

open Sys2Proof Sys2Proof.Claims

/-! ### READ_ENV (R185) -/

/-- A read of port R that FAULT does not refuse: the checks of R110, then its words on the port that asked. -/
theorem exec_eq_checks_read {i : Instr} {s : State} {ws : List Word} (hport : Opcode.legalOnC i.opcode = false)
    (hfree : Opcode.frozenByFault i.opcode = false) (hown : ownEffect i s = respond .R ws s) :
    exec i s = .next (
      if s.cur = .C then refused s .illegal (Opcode.responseWords i.opcode)
      else if i.reservedSet = true then refused s .reserved (Opcode.responseWords i.opcode)
      else answered s ws) := by
  simp only [exec_eq_checks, legalOn_eq_false_iff hport, hfree, Bool.and_false, Bool.false_eq_true, if_false]
  congr 1
  split_ifs with hC
  · rfl
  · rfl
  · rw [hown, respond_R_eq_answered hC]

/-- Settles O23: READ_ENV is a read of ENV.value, split in two words. -/
theorem readEnvAnswersLowWordFirst : Obligations.ReadEnvAnswersLowWordFirst := by
  intro rsv s
  refine ⟨rfl, ?_⟩
  rw [exec_eq_checks_read rfl rfl rfl]
  simp only [Instr.reservedSet, bne_iff_ne]
  rfl

/-! ### The evaluation of each stage (R174) -/

section
variable (c : Config) (sn : Snapshot) (t : F64) {v : Envelope}

theorem envEvaluate_of_idle (h : v.stage = .idle) : envEvaluate c sn t v = evalIdle v := by
  simp only [envEvaluate, h]

theorem envEvaluate_of_attack (h : v.stage = .attack) :
    envEvaluate c sn t v = evalAttack c sn.a t (elapsed t v.start) v := by
  simp only [envEvaluate, h]

theorem envEvaluate_of_decay (h : v.stage = .decay) :
    envEvaluate c sn t v = evalDecay c sn.d sn.s t (elapsed t v.start) v := by
  simp only [envEvaluate, h]

theorem envEvaluate_of_sustain (h : v.stage = .sustain) : envEvaluate c sn t v = evalSustain sn.s v := by
  simp only [envEvaluate, h]

theorem envEvaluate_of_release (h : v.stage = .release) :
    envEvaluate c sn t v = evalRelease c sn.r t (elapsed t v.start) v := by
  simp only [envEvaluate, h]

end

/-! ### Transitions (R170, R173) -/

/-- Settles O36, by what an evaluation does to the levels and to the stage. -/
theorem oneTransitionPerEvaluation : Obligations.OneTransitionPerEvaluation := by
  intro c sn t v
  obtain ⟨hatk, hrel⟩ := envEvaluate_levels c sn t v
  exact ⟨hatk, hrel, envEvaluate_stage c sn t v⟩

/-! ### A stage done, and one not done (R172, R176, R177, R179) -/

theorem stageDone_iff (c : Config) (d e : F64) :
    stageDone c d e = true ↔ f64Le d c.durEps = true ∨ f64Le d e = true := Bool.or_eq_true_iff

section
variable {c : Config} {d e : F64}

theorem attackLevel_of_done (h : stageDone c d e = true) (v : Envelope) : attackLevel c d e v = f64One :=
  if_pos h

theorem evalAttack_of_done (h : stageDone c d e = true) (t : F64) (v : Envelope) :
    evalAttack c d t e v = { v with value := f64One, stage := .decay, start := t } := by
  rw [evalAttack, attackLevel_of_done h, if_pos (f64Le_refl f64IsNaN_one)]

theorem evalDecay_of_done (h : stageDone c d e = true) (sus t : F64) (v : Envelope) :
    evalDecay c d sus t e v = { v with value := sus, stage := .sustain, start := t } := if_pos h

theorem evalRelease_of_done (h : stageDone c d e = true) (t : F64) (v : Envelope) :
    evalRelease c d t e v = enterIdle t v := if_pos h

theorem attackLevel_of_not_done (h : stageDone c d e = false) (v : Envelope) :
    attackLevel c d e v = f64Add v.atk (f64Mul (f64Sub f64One v.atk) (f64Div e d)) :=
  if_neg (Bool.eq_false_iff.1 h)

theorem evalDecay_of_not_done (h : stageDone c d e = false) (sus t : F64) (v : Envelope) :
    evalDecay c d sus t e v =
      { v with value := f64Sub f64One (f64Mul (f64Div e d) (f64Sub f64One sus)) } :=
  if_neg (Bool.eq_false_iff.1 h)

theorem evalRelease_of_not_done (h : stageDone c d e = false) (t : F64) (v : Envelope) :
    evalRelease c d t e v = if f64Le (releaseLevel d e v) f64Zero = true then enterIdle t v
      else { v with value := releaseLevel d e v } :=
  if_neg (Bool.eq_false_iff.1 h)

end

/-- Settles O37: in each stage, the equation of a stage that is done. -/
theorem stagesCompleteAtTheirEnd : Obligations.StagesCompleteAtTheirEnd := by
  intro c sn t v
  simp only [← stageDone_iff]
  refine ⟨fun hs hdone => ?_, fun hs hdone => ?_, fun hs hdone => ?_, envEvaluate_of_idle c sn t,
    envEvaluate_of_sustain c sn t⟩
  · exact (envEvaluate_of_attack c sn t hs).trans (evalAttack_of_done hdone t v)
  · exact (envEvaluate_of_decay c sn t hs).trans (evalDecay_of_done hdone sn.s t v)
  · exact (envEvaluate_of_release c sn t hs).trans (evalRelease_of_done hdone t v)

/-! ### The formulas of the stages (R174 to R179) -/

/-- The two ends of a Release, the elapsed one and the one at level 0.0, are one case. -/
theorem evalRelease_eq (c : Config) (r t e : F64) (v : Envelope) : evalRelease c r t e v =
    if f64Le r c.durEps = true ∨ f64Le r e = true ∨ f64Le (releaseLevel r e v) f64Zero = true then enterIdle t v
    else { v with value := releaseLevel r e v } := by
  rw [evalRelease, ← ite_or]
  exact if_congr (by rw [stageDone_iff, or_assoc]) rfl rfl

/-- Settles O56, stage by stage; the statement's guarded elapsed time is the model's. -/
theorem envelopeFollowsItsFormulas : Obligations.EnvelopeFollowsItsFormulas := by
  rintro c sn t ⟨stage, value, start, atk, rel⟩
  cases stage with
  | idle => exact envEvaluate_of_idle c sn t rfl
  | attack =>
    rw [envEvaluate_of_attack c sn t rfl]
    simp only [evalAttack, attackLevel, stageDone_iff]
    rfl
  | decay =>
    rw [envEvaluate_of_decay c sn t rfl]
    simp only [evalDecay, stageDone_iff]
    rfl
  | sustain => exact envEvaluate_of_sustain c sn t rfl
  | release => exact (envEvaluate_of_release c sn t rfl).trans (evalRelease_eq c sn.r t (elapsed t start) _)

/-! ### The start of an Attack (R176, R180, R186) -/

/-- x - x is no number for an infinite or NaN x. -/
theorem f64Sub_self_nan {x : F64} (h : f64IsFinite x = false) : f64IsNaN (f64Sub x x) = true := by
  unfold f64Sub f64AddAs
  rw [f64IsNaN_neg, f64IsInf_neg, f64Neg?_neg]
  cases hn : f64IsNaN x with
  | true => simp [f64NaN_isNaN]
  | false =>
    have hi : f64IsInf x = true := (inf_or_finite hn).resolve_right (by simp [h])
    simp [hi, f64NaN_isNaN]

/-- At the time a stage starts, its elapsed time is +0.0, even at an infinite or NaN time (R174). -/
theorem elapsed_self (t : F64) : elapsed t t = f64Zero := by
  unfold elapsed
  cases hf : f64IsFinite t with
  | true => rw [f64Sub_self hf, ite_self]
  | false =>
    rw [not_nonneg_nan (f64Sub_self_nan hf)]
    rfl

theorem f64Neg?_zero : f64Neg? f64Zero = false := by decide
theorem f64IsInf_zero : f64IsInf f64Zero = false := by decide

theorem f64Round_zero (d : Nat) : f64Round false 0 d = f64Zero := by
  simp [f64Round, roundMag, roundDiv, f64Pack, f64Zero]

/-- +0.0 divided by a positive finite value is +0.0. -/
theorem f64Zero_div {b : F64} (fb : f64IsFinite b = true) (hb : f64Lt f64Zero b = true) :
    f64Div f64Zero b = f64Zero := by
  simp [f64Div, f64IsNaN_zero, f64IsInf_zero, f64Units_zero, f64IsFinite_notNaN fb, f64IsFinite_notInf fb,
    pos_not_zero hb, pos_sign hb, f64Neg?_zero, f64Round_zero]

/-- A finite value with sign bit 0, times +0.0, is +0.0. -/
theorem f64Mul_zero {x : F64} (fx : f64IsFinite x = true) (hx : f64Neg? x = false) :
    f64Mul x f64Zero = f64Zero := by
  simp [f64Mul, f64IsNaN_zero, f64IsInf_zero, f64Units_zero, f64IsFinite_notNaN fx, f64IsFinite_notInf fx, hx,
    f64Neg?_zero, f64Round_zero]

theorem not_le_of_f64Lt {x y : F64} (h : f64Lt x y = true) : f64Le y x = false := by
  obtain ⟨-, -, hlt⟩ := (f64Lt_iff x y).1 h
  rw [← Bool.not_eq_true, f64Le_iff]
  rintro ⟨-, -, hle⟩
  omega

/-- A pattern is its sign and its place in the order of values. -/
theorem f64_ext_key {x y : F64} (hsign : f64Neg? x = f64Neg? y) (hkey : f64Key x = f64Key y) : x = y := by
  refine f64_ext hsign ?_
  unfold f64Key at hkey
  rw [hsign] at hkey
  split_ifs at hkey <;> omega

theorem inUnit_eq_one {x : F64} (hx : inUnit x = true) (h : f64Le f64One x = true) : x = f64One := by
  obtain ⟨hsign, -, -⟩ := (inUnit_iff x).1 hx
  obtain ⟨-, -, hle⟩ := (f64Le_iff x f64One).1 (unit0_of_inUnit hx).2
  obtain ⟨-, -, hge⟩ := (f64Le_iff f64One x).1 h
  exact f64_ext_key (hsign.trans f64Neg?_one.symm) (le_antisymm hle hge)

/-- At elapsed time 0 an Attack that is not instantaneous stands at its start level, exactly. -/
theorem attackLevel_zero {c : Config} {a : F64} {v : Envelope} (fa : f64IsFinite a = true)
    (ha : f64Lt f64Zero a = true) (heps : f64Le a c.durEps = false) (hv : inUnit v.atk = true) :
    attackLevel c a f64Zero v = v.atk := by
  have hrest := inUnit_oneSub (unit0_of_inUnit hv)
  obtain ⟨hsign, hnan, -⟩ := (inUnit_iff v.atk).1 hv
  have hne : v.atk ≠ 0x8000000000000000#64 := by
    intro h
    rw [h] at hsign
    exact absurd hsign (by decide)
  have hdone : stageDone c a f64Zero = false := Bool.or_eq_false_iff.2 ⟨heps, not_le_of_f64Lt ha⟩
  rw [attackLevel_of_not_done hdone, f64Zero_div fa ha,
    f64Mul_zero (inUnit_finite hrest) ((inUnit_iff _).1 hrest).1, f64Add_zero hnan hne]

/-- An Attack's level in [0.0, 1.0] is its value: the clamp changes nothing. -/
theorem evalAttack_value_of_inUnit {c : Config} {a t e : F64} {v : Envelope}
    (h : inUnit (attackLevel c a e v) = true) : (evalAttack c a t e v).value = attackLevel c a e v := by
  unfold evalAttack
  split_ifs with hone
  · exact (inUnit_eq_one h hone).symm
  · rfl

/-- Settles O38: elapsed time is +0.0, where the Attack stands at its start level, the value at the trigger. -/
theorem attackStartsAtPreTriggerValue : Obligations.AttackStartsAtPreTriggerValue := by
  intro c sn now v hv fa ha heps
  show (evalAttack c sn.a now (elapsed now now) (envTrigger now v)).value = v.value
  have hlevel : attackLevel c sn.a f64Zero (envTrigger now v) = v.value := attackLevel_zero fa ha heps hv
  rw [elapsed_self, evalAttack_value_of_inUnit (hlevel ▸ hv), hlevel]

/-! ### Monotone stages (R176, R177, R179, R186) -/

theorem unit0_le_refl {x : F64} (hx : unit0 x) : f64Le x x = true :=
  f64Le_refl (f64IsFinite_notNaN (unit0_finite hx))

/-- 1 - x falls as x rises in [0, 1]. -/
theorem oneSub_anti {x y : F64} (hx : unit0 x) (hy : unit0 y) (h : f64Le x y = true) :
    f64Le (f64Sub f64One y) (f64Sub f64One x) = true :=
  f64Add_mono_finite .sub f64IsFinite_one (by rw [f64IsFinite_neg]; exact unit0_finite hy) f64IsFinite_one
    (by rw [f64IsFinite_neg]; exact unit0_finite hx) (f64Le_refl f64IsNaN_one) (f64Neg_le h)

theorem unit0_mul_mono {x y x' y' : F64} (hx : unit0 x) (hy : unit0 y) (hx' : unit0 x') (hy' : unit0 y')
    (h : f64Le x x' = true) (h' : f64Le y y' = true) : f64Le (f64Mul x y) (f64Mul x' y') = true :=
  f64Mul_mono hx.1 hy.1 (unit0_finite hx) (unit0_finite hy) (unit0_finite hx') (unit0_finite hy') h h'

section
variable {c : Config} {d e e' : F64} {v : Envelope}

/-- A stage not done at the later time is not done at the earlier one (R172). -/
theorem not_done_earlier (hle : f64Le e e' = true) (h : stageDone c d e' = false) : stageDone c d e = false := by
  cases hdone : stageDone c d e with
  | true => rw [stageDone_mono hdone hle] at h; exact h
  | false => rfl

/-- Up to the end of a stage, its elapsed fraction rises with time. -/
theorem fraction_mono (fd : f64IsFinite d = true) (he : f64Le f64Zero e = true) (hle : f64Le e e' = true)
    (h : stageDone c d e' = false) : f64Le (f64Div e d) (f64Div e' d) = true := by
  have he' := nonneg_trans he hle
  obtain ⟨hd, hed⟩ := not_stageDone (f64IsFinite_notNaN fd) he' h
  have fe' := finite_of_le he' hed fd
  exact f64Div_mono he hd (finite_of_le he hle fe') fe' fd hle

theorem attackLevel_mono (fd : f64IsFinite d = true) (hv : inUnit v.atk = true) (he : f64Le f64Zero e = true)
    (hle : f64Le e e' = true) (h : stageDone c d e' = false) :
    f64Le (attackLevel c d e v) (attackLevel c d e' v) = true := by
  have hearly := not_done_earlier hle h
  have hrest := unit0_of_inUnit (inUnit_oneSub (unit0_of_inUnit hv))
  have hq := fraction_unit0 fd he hearly
  have hq' := fraction_unit0 fd (nonneg_trans he hle) h
  have hrise := unit0_mul_mono hrest hq hrest hq' (unit0_le_refl hrest) (fraction_mono fd he hle h)
  have fatk := inUnit_finite hv
  rw [attackLevel_of_not_done hearly, attackLevel_of_not_done h]
  exact f64Add_mono_finite .add fatk (unit0_finite (unit0_mul hrest hq)) fatk (unit0_finite (unit0_mul hrest hq'))
    (unit0_le_refl (unit0_of_inUnit hv)) hrise

/-- Once the Attack has reached 1.0 every earlier value is at most that; before, the level itself rises. -/
theorem evalAttack_mono (fd : f64IsFinite d = true) (hv : inUnit v.atk = true) (he : f64Le f64Zero e = true)
    (hle : f64Le e e' = true) (t t' : F64) :
    f64Le (evalAttack c d t e v).value (evalAttack c d t' e' v).value = true := by
  by_cases hone : f64Le f64One (attackLevel c d e' v) = true
  · have hend : (evalAttack c d t' e' v).value = f64One := by rw [evalAttack, if_pos hone]
    rw [hend]
    exact (unit0_of_inUnit (evalAttack_inUnit fd he hv)).2
  · have hdone : stageDone c d e' = false := by
      by_contra hdone
      rw [attackLevel_of_done (by simpa using hdone)] at hone
      exact hone (f64Le_refl f64IsNaN_one)
    have hlevel := attackLevel_mono fd hv he hle hdone
    have hearly : ¬ f64Le f64One (attackLevel c d e v) = true := fun h => hone (f64Le_trans h hlevel)
    rw [evalAttack, if_neg hearly, evalAttack, if_neg hone]
    exact hlevel

/-- Before its end the Decay's formula falls, and it never falls below the sustain level, the value at the end. -/
theorem evalDecay_anti (fd : f64IsFinite d = true) {sus : F64} (hsus : inUnit sus = true)
    (he : f64Le f64Zero e = true) (hle : f64Le e e' = true) (t t' : F64) :
    f64Le (evalDecay c d sus t' e' v).value (evalDecay c d sus t e v).value = true := by
  have hdrop := unit0_of_inUnit (inUnit_oneSub (unit0_of_inUnit hsus))
  cases hearly : stageDone c d e with
  | true =>
    rw [evalDecay_of_done hearly, evalDecay_of_done (stageDone_mono hearly hle)]
    exact unit0_le_refl (unit0_of_inUnit hsus)
  | false =>
    have hq := fraction_unit0 fd he hearly
    rw [evalDecay_of_not_done hearly]
    cases hlate : stageDone c d e' with
    | true =>
      rw [evalDecay_of_done hlate]
      exact decay_ge hsus hq (frac_lt fd he hearly)
    | false =>
      have hq' := fraction_unit0 fd (nonneg_trans he hle) hlate
      rw [evalDecay_of_not_done hlate]
      exact oneSub_anti (unit0_mul hq hdrop) (unit0_mul hq' hdrop)
        (unit0_mul_mono hq hdrop hq' hdrop (fraction_mono fd he hle hlate) (unit0_le_refl hdrop))

theorem releaseLevel_anti (fd : f64IsFinite d = true) (hv : inUnit v.rel = true) (he : f64Le f64Zero e = true)
    (hle : f64Le e e' = true) (h : stageDone c d e' = false) :
    f64Le (releaseLevel d e' v) (releaseLevel d e v) = true := by
  have hrel := unit0_of_inUnit hv
  have hq := fraction_unit0 fd he (not_done_earlier hle h)
  have hq' := fraction_unit0 fd (nonneg_trans he hle) h
  exact unit0_mul_mono hrel (unit0_of_inUnit (inUnit_oneSub hq')) hrel (unit0_of_inUnit (inUnit_oneSub hq))
    (unit0_le_refl hrel) (oneSub_anti hq hq' (fraction_mono fd he hle h))

/-- Once the Release has ended every earlier value is at least 0.0; before, the level itself falls. -/
theorem evalRelease_anti (fd : f64IsFinite d = true) (hv : inUnit v.rel = true) (he : f64Le f64Zero e = true)
    (hle : f64Le e e' = true) (t t' : F64) :
    f64Le (evalRelease c d t' e' v).value (evalRelease c d t e v).value = true := by
  have hzero : f64Le f64Zero (evalRelease c d t e v).value = true := inUnit_nonneg (evalRelease_inUnit fd he hv)
  cases hlate : stageDone c d e' with
  | true => rw [evalRelease_of_done hlate]; exact hzero
  | false =>
    by_cases hend : f64Le (releaseLevel d e' v) f64Zero = true
    · rw [evalRelease_of_not_done hlate, if_pos hend]
      exact hzero
    · have hlevel := releaseLevel_anti fd hv he hle hlate
      have hopen : ¬ f64Le (releaseLevel d e v) f64Zero = true := fun h => hend (f64Le_trans hlevel h)
      rw [evalRelease_of_not_done hlate, if_neg hend, evalRelease_of_not_done (not_done_earlier hle hlate),
        if_neg hopen]
      exact hlevel

end

/-- Settles O39: elapsed time rises with time, and each stage is monotone in it. -/
theorem stagesAreMonotone : Obligations.StagesAreMonotone := by
  intro c sn v t t' fa fd fr hsus hatk hrel hle
  have he := elapsed_nonneg t v.start
  have hmono : f64Le (elapsed t v.start) (elapsed t' v.start) = true := elapsed_mono hle
  refine ⟨fun hs => ?_, fun hs => ?_, fun hs => ?_⟩
  · rw [envEvaluate_of_attack c sn t hs, envEvaluate_of_attack c sn t' hs]
    exact evalAttack_mono fa hatk he hmono t t'
  · rw [envEvaluate_of_decay c sn t hs, envEvaluate_of_decay c sn t' hs]
    exact evalDecay_anti fd hsus he hmono t t'
  · rw [envEvaluate_of_release c sn t hs, envEvaluate_of_release c sn t' hs]
    exact evalRelease_anti fr hrel he hmono t t'

end Sys2Proof.Machine
end

section
/-! PROOFS of the statements of `spec/44_oscillator.md`. The waveforms are clamps of values that are no NaN; a knob's
shape is read off its pattern's place in the order of values; the pitches 69 + 12n reach `exp2_64` at integers. -/

namespace Sys2Proof.Machine

open Sys2Proof Sys2Proof.Claims

/-! ### Range of the waveforms (R205 to R210) -/

/-- A finite positive value times one that is no NaN is no NaN. -/
theorem notNaN_pos_mul {a b : F64} (fa : f64IsFinite a = true) (pa : f64Lt f64Zero a = true)
    (nb : f64IsNaN b = false) : f64IsNaN (f64Mul a b) = false := by
  rcases inf_or_finite nb with ib | fb
  · have zb : f64IsZero b = false := by
      have hmag : f64Mag b = infMag64 := beq_iff_eq.1 ib
      rw [f64IsZero, hmag]
      decide
    simp [f64Mul, nb, ib, zb, f64IsFinite_notNaN fa, pos_not_zero pa, isNaN_inf]
  · exact mul_fin_fin fa fb

/-- The segments of the Triangle are sums of a finite value and a multiple of the phase. -/
theorem trianglePhase_notNaN {q : F64} (hq : f64IsNaN q = false) : f64IsNaN (trianglePhase q) = false := by
  have h4q : f64IsNaN (f64Mul f64Four q) = false := notNaN_pos_mul (by decide) (by decide) hq
  unfold trianglePhase
  split_ifs
  · exact h4q
  · exact add_fin_nan' .sub (by rw [f64IsNaN_neg]; exact h4q) (by decide)
  · exact add_fin_nan .sub h4q (by decide)

section
variable {f t : F64} (ff : f64IsFinite f = true) (pf : f64Lt f64Zero f = true) (ft : f64IsFinite t = true)
include ff pf ft

theorem periodTime_finite : f64IsFinite (periodTime f t) = true := by
  obtain ⟨hnan, hzero⟩ := recip ff pf
  exact fmod_fin ft hnan hzero

theorem oscSaw_range : inPM1 (oscSaw f t) = true := by
  have hramp : f64IsNaN (f64Mul (f64Mul f64Two (periodTime f t)) f) = false :=
    mul_nan (mul_fin_fin (by decide) (periodTime_finite ff pf ft)) pf ff
  exact clampPM1_range (add_fin_nan .sub hramp (by decide))

theorem oscTriangle_range : inPM1 (oscTriangle f t) = true :=
  clampPM1_range (trianglePhase_notNaN (mul_fin_fin (periodTime_finite ff pf ft) ff))

end

theorem oscSquare_values (f t : F64) :
    oscSquare f t = f64Neg f64One ∨ oscSquare f t = f64Zero ∨ oscSquare f t = f64One := by
  unfold oscSquare
  split_ifs
  · exact .inr (.inr rfl)
  · exact .inl rfl
  · exact .inr (.inl rfl)

/-- Settles O40: Saw and Triangle clamp a value that is no NaN, and `sin64` keeps its range at finite arguments. -/
theorem oscillatorStaysInRange : Obligations.OscillatorStaysInRange := fun f t ff pf ft =>
  ⟨oscSaw_range ff pf ft, oscTriangle_range ff pf ft, oscSquare_values f t, sin64_range⟩

/-! ### The shape of a knob pattern (R202) -/

/-- A pattern's place in the order of values, from its number: the negatives mirror the positives. -/
theorem f32Key_eq (x : F32) :
    f32Key x = if x.toNat < 0x80000000 then (x.toNat : Int) else 0x80000000 - (x.toNat : Int) := by
  have hsign : f32Neg? x = decide (0x80000000 ≤ x.toNat) := BitVec.msb_eq_decide x
  have hmag : f32Mag x = x.toNat % 0x80000000 := rfl
  simp only [f32Key, hsign, hmag, decide_eq_true_eq]
  omega

theorem f32IsNaN_iff (x : F32) : f32IsNaN x = true ↔ 0x7F800000 < x.toNat % 0x80000000 := decide_eq_true_iff

/-- The quartiles of a pattern that is no NaN, as intervals of its place in the order of values. -/
theorem shapeSelect_of_notNaN {x : F32} (h : f32IsNaN x = false) : shapeSelect x =
    if 0 ≤ f32Key x ∧ f32Key x < 0x3E800000 then .saw
    else if 0x3E800000 ≤ f32Key x ∧ f32Key x < 0x3F000000 then .square
    else if 0x3F000000 ≤ f32Key x ∧ f32Key x < 0x3F400000 then .triangle
    else .sine := by
  have hzero : f32IsNaN f32Zero = false ∧ f32Key f32Zero = 0 := by decide
  have hquarter : f32IsNaN f32Quarter = false ∧ f32Key f32Quarter = 0x3E800000 := by decide
  have hhalf : f32IsNaN f32Half = false ∧ f32Key f32Half = 0x3F000000 := by decide
  have hthree : f32IsNaN f32ThreeQuarters = false ∧ f32Key f32ThreeQuarters = 0x3F400000 := by decide
  simp [shapeSelect, f32Le, f32Lt, h, hzero, hquarter, hhalf, hthree]

/-- Settles O41: a NaN lies past every quartile; any other pattern's place is its number, or for a negative minus
the number of its magnitude. -/
theorem shapeQuartiles : Obligations.ShapeQuartiles := by
  intro x
  cases hn : f32IsNaN x with
  | true =>
    have hnan := (f32IsNaN_iff x).1 hn
    rw [shapeSelect, if_pos hn, if_neg (by omega), if_neg (by omega), if_neg (by omega)]
  | false =>
    have hkey := f32Key_eq x
    rw [shapeSelect_of_notNaN hn]
    exact if_congr (by omega) rfl (if_congr (by omega) rfl (if_congr (by omega) rfl rfl))

/-! ### The exact frequencies (R10, R203, R204) -/

/-- `exp2_64` at an integer of R10's list is exact: no two of them share a pattern. -/
theorem exp2_64_ofInt {n : Int} (hn : n ∈ exp2Exact) : exp2_64 (f64OfInt n) = f64Pow2 n := by
  have hfind : ∀ m ∈ exp2Exact, exp2Exact.find? (fun k => f64OfInt m == f64OfInt k) = some m := by decide +kernel
  rw [exp2_64, hfind n hn]

/-- The exponent of a pitch 69 + 12n is the integer n: the quotient is exact. -/
theorem f64Div_twelve {n : Int} (hn : n ∈ exp2Exact) : f64Div (f64OfInt (12 * n)) f64Twelve = f64OfInt n := by
  have h : ∀ m ∈ exp2Exact, f64Div (f64OfInt (12 * m)) f64Twelve = f64OfInt m := by decide +kernel
  exact h n hn

/-- 440.0 times 2^n keeps its fraction and moves its exponent by n. -/
theorem f64Mul_A4_pow2 {n : Int} (hn : n ∈ exp2Exact) :
    f64Mul f64A4 (f64Pow2 n) = BitVec.ofInt 64 (0x407B800000000000 + n * 2 ^ 52) := by
  have h : ∀ m ∈ exp2Exact, f64Mul f64A4 (f64Pow2 m) = BitVec.ofInt 64 (0x407B800000000000 + m * 2 ^ 52) := by
    decide +kernel
  exact h n hn

/-- The frequency n octaves from pitch 69. -/
theorem freq_octave {p : BitVec 7} {n : Int} (hp : (p.toNat : Int) - 69 = 12 * n) (hn : n ∈ exp2Exact) :
    freq p = BitVec.ofInt 64 (0x407B800000000000 + n * 2 ^ 52) := by
  rw [freq, hp, f64Div_twelve hn, exp2_64_ofInt hn, f64Mul_A4_pow2 hn]

/-- Settles O43, at the octaves -5 to 4. -/
theorem exactFrequencies : Obligations.ExactFrequencies :=
  ⟨freq_octave (n := -5) rfl (by decide), freq_octave (n := -4) rfl (by decide),
    freq_octave (n := -3) rfl (by decide), freq_octave (n := -2) rfl (by decide),
    freq_octave (n := -1) rfl (by decide), freq_octave (n := 0) rfl (by decide),
    freq_octave (n := 1) rfl (by decide), freq_octave (n := 2) rfl (by decide),
    freq_octave (n := 3) rfl (by decide), freq_octave (n := 4) rfl (by decide)⟩

/-! ### The formulas of the waveforms (R200, R203, R206 to R209) -/

theorem f64Neg_one : f64Neg f64One = 0xBFF0000000000000#64 := by decide

theorem clampPM1_eq_clampTo1 (x : F64) : clampPM1 x = clampTo1 x := by
  rw [clampPM1, f64Neg_one]
  rfl

/-- Settles O57: the statement's formulas are the model's, with its constants written out. -/
theorem waveformsFollowTheirFormulas : Obligations.WaveformsFollowTheirFormulas := by
  intro p t
  refine ⟨rfl, ?_, clampPM1_eq_clampTo1 _, clampPM1_eq_clampTo1 _⟩
  rw [← f64Neg_one]
  rfl

end Sys2Proof.Machine
end

section
/-! PROOFS of the statements of `spec/45_voice_engine.md`. RENDER is the iteration of one sample, each sample is the
statement's, and in a quiescent state a sample only emits its frame; the mix, the gain and ALPHA keep their ranges
under rounding. -/

namespace Sys2Proof.Machine

open Sys2Proof Sys2Proof.Claims

/-! ### One sample, in the statement's words (R233, R234, R236, R237) -/

theorem selectVoice_eq_voiceAt (s : State) : selectVoice s = voiceAt s s.env := by
  simp only [selectVoice, voiceAt, ne_eq, ite_not]

theorem mix_eq_mixAt (s : State) (t : F64) : mix s t = mixAt s s.env t := by
  rw [mix, selectVoice_eq_voiceAt, mixAt]
  cases voiceAt s s.env with
  | none => rfl
  | some v => rfl

theorem declick_eq_declickAt (s : State) (m : F64) : declick s.cfg s.alpha s.dcY m = declickAt s m := by
  rw [declick, snapSilence, declickAt]
  exact if_congr Bool.and_eq_true_iff rfl rfl

theorem oneSample_sampleStep (nch : BitVec 8) (t : F64) (s : State) : OneSample nch t s (sampleStep nch t s) := by
  rw [sampleStep_eq, mix_eq_mixAt, declick_eq_declickAt]
  rfl

/-! ### RENDER is the iteration of its samples (R231, R232) -/

/-- The state after the first `k` samples of a block that starts in `s`. -/
def afterSamples (nch : BitVec 8) (s : State) : Nat → State
  | 0 => s
  | k + 1 => sampleStep nch (f64Add s.clk (offset s.dt k)) (afterSamples nch s k)

/-- The samples leave the rate and the Clock alone (R234). -/
theorem afterSamples_rate_clock (nch : BitVec 8) (s : State) (k : Nat) :
    (afterSamples nch s k).dt = s.dt ∧ (afterSamples nch s k).sr = s.sr ∧ (afterSamples nch s k).clk = s.clk := by
  induction k with
  | zero => exact ⟨rfl, rfl, rfl⟩
  | succ k ih => rw [afterSamples, sampleStep_eq]; exact ih

/-- The loop entered after `k` samples, at their offset, ends after `n` more. -/
theorem sampleLoop_afterSamples (nch : BitVec 8) (s : State) (n k : Nat) :
    sampleLoop nch s.clk n (offset s.dt k) (afterSamples nch s k) = afterSamples nch s (k + n) := by
  induction n generalizing k with
  | zero => rfl
  | succ n ih =>
    rw [sampleLoop, (afterSamples_rate_clock nch s k).1, Nat.add_comm n, ← Nat.add_assoc, ← ih]
    rfl

theorem renderBlock_eq_afterSamples (nch : BitVec 8) (n : Nat) (s : State) :
    renderBlock nch n s = clockAdvance n (afterSamples nch s n) := by
  have hloop := sampleLoop_afterSamples nch s n 0
  rw [Nat.zero_add] at hloop
  exact congrArg (clockAdvance n) hloop

/-- The Clock's one advance is counted from the block's start (R131). -/
theorem clockAdvance_afterSamples (nch : BitVec 8) (s : State) (n k : Nat) : clockAdvance n (afterSamples nch s k) =
    { afterSamples nch s k with clk := f64Add s.clk (f64Div (f64OfInt n) s.sr) } := by
  obtain ⟨-, hsr, hclk⟩ := afterSamples_rate_clock nch s k
  rw [← hsr, ← hclk]
  rfl

/-- Settles O19: the states of the statement are those after each number of samples. -/
theorem renderIsSnapshotThenSamplesThenClock : Obligations.RenderIsSnapshotThenSamplesThenClock := by
  intro nch n s
  have hchecks := exec_eq_checks_frozen (i := .render nch n) rfl rfl rfl s
  refine ⟨rfl, fun hC => ?_, fun hR hfault => ?_, fun hadm => ?_⟩
  · rw [hchecks, if_pos hC]
  · rw [hchecks, if_neg (by simp [hR]), if_pos hfault]
  · refine ⟨afterSamples nch (takeSnapshot s), rfl, fun k _ => oneSample_sampleStep nch _ _, ?_⟩
    rw [exec_render_admitted hadm, renderBlock_eq_afterSamples, clockAdvance_afterSamples]
    rfl

/-! ### The velocity gain (R235) -/

theorem f64Velocity127_eq : f64Velocity127 = f64OfInt 127 := by decide +kernel

theorem f64OfInt_mono {m n : Nat} (h : m ≤ n) : f64Le (f64OfInt m) (f64OfInt n) = true := by
  obtain ⟨nm, sm⟩ := ofInt_nonneg m
  obtain ⟨nn, sn⟩ := ofInt_nonneg n
  refine (f64Le_iff _ _).2 ⟨nm, nn, ?_⟩
  rw [key_eq_mag (key_nonneg_of_sign sm), key_eq_mag (key_nonneg_of_sign sn), f64OfInt, f64OfInt, f64Mag_round,
    f64Mag_round]
  exact_mod_cast min_le_min_left infMag64 (roundMag_one_mono (Nat.mul_le_mul_right _ h))

/-- A velocity is at most 127, so its gain is at most 1.0. -/
theorem velocityGain_inUnit (v : BitVec 7) : inUnit (velocityGain v) = true := by
  obtain ⟨hnan, hsign⟩ := ofInt_nonneg v.toNat
  have hv : v.toNat < 128 := v.isLt
  have hle : f64Le (f64OfInt v.toNat) f64Velocity127 = true := by
    rw [f64Velocity127_eq]
    exact f64OfInt_mono (n := 127) (by omega)
  have hpos : f64Lt f64Zero f64Velocity127 = true := by decide
  have hfin : f64IsFinite f64Velocity127 = true := by decide
  refine inUnit_of_unit0 (unit0_div (f64Le_of_nonneg_neg hnan hsign) hpos hfin hle) ?_
  rw [velocityGain, f64Neg?_div (ofInt_finite16 _ (by omega)) hfin hpos, hsign]

/-- Settles O45: the gain is a quotient of a value by one not below it, and the two ends are exact. -/
theorem velocityGainIsVelocityOver127 : Obligations.VelocityGainIsVelocityOver127 := by
  refine ⟨fun v => ⟨?_, velocityGain_inUnit v⟩, ?_, ?_⟩
  · rw [velocityGain, f64Velocity127_eq]
  · decide +kernel
  · decide +kernel

/-! ### The mix (R236) -/

theorem mix_of_no_voice {s : State} (h : selectVoice s = none) (t : F64) : mix s t = f64Zero := by
  rw [mix, h]

/-- Settles O46: with a voice the mix is a product of three values in [-1, 1]. -/
theorem mixStaysInRange : Obligations.MixStaysInRange := by
  intro s t
  refine ⟨fun h => mix_of_no_voice h t, fun henv hosc => ?_⟩
  unfold mix
  split
  · decide
  · exact mul_pm1 (mul_pm1 (hosc _) (pm1_of_unit henv)) (pm1_of_unit (velocityGain_inUnit _))

/-! ### The declick coefficient (R238) -/

theorem f64Le_of_f64Lt {x y : F64} (h : f64Lt x y = true) : f64Le x y = true := by
  obtain ⟨hx, hy, hlt⟩ := (f64Lt_iff x y).1 h
  exact (f64Le_iff x y).2 ⟨hx, hy, hlt.le⟩

/-- The smallest number of units rounds to itself: binary64 keeps its subnormals (R11). -/
theorem roundKey_pos {u : Int} (h : 0 < u) : 0 < roundKey u := by
  have hone : roundKey 1 = 1 := by decide
  have hmono : roundKey 1 ≤ roundKey u := roundKey_mono h
  omega

/-- A difference of finite values that is positive exactly is positive when rounded. -/
theorem f64Sub_pos {x y : F64} (fx : f64IsFinite x = true) (fy : f64IsFinite y = true) (h : f64Lt y x = true) :
    f64Lt f64Zero (f64Sub x y) = true := by
  obtain ⟨hnan, hkey⟩ := f64Add_finite .sub fx (by rwa [f64IsFinite_neg])
  have hlt : f64Units y < f64Units x := by
    rw [← not_le, f64Units_le_iff, not_le]
    exact ((f64Lt_iff y x).1 h).2.2
  refine (f64Lt_iff _ _).2 ⟨f64IsNaN_zero, hnan, ?_⟩
  rw [f64Key_zero, f64Sub, hkey, f64Units_neg]
  exact roundKey_pos (by omega)

/-- 1 - x lies in (0, 1] for x in (0, 1). -/
theorem oneSub_pos_le_one {x : F64} (hpos : f64Lt f64Zero x = true) (hone : f64Lt x f64One = true) :
    f64Lt f64Zero (f64Sub f64One x) = true ∧ f64Le (f64Sub f64One x) f64One = true := by
  have hx : unit0 x := ⟨f64Le_of_f64Lt hpos, f64Le_of_f64Lt hone⟩
  exact ⟨f64Sub_pos f64IsFinite_one (unit0_finite hx) hone, (unit0_of_inUnit (inUnit_oneSub hx)).2⟩

theorem declickAlpha_of_bypass {c : Config} (h : f64Eq c.declickTauS f64Zero = true) (r : F64) :
    declickAlpha c r = f64One := if_pos h

theorem declickAlpha_of_tau {c : Config} (h : f64Eq c.declickTauS f64Zero = false) (r : F64) :
    declickAlpha c r = f64Sub f64One (exp64 (f64Div (f64Neg f64One) (f64Mul c.declickTauS r))) :=
  if_neg (Bool.eq_false_iff.1 h)

/-- Settles O47: at a finite negative quotient `exp64` lies in (0, 1), so its difference from 1.0 lies in (0, 1]. -/
theorem declickCoefficientInUnit : Obligations.DeclickCoefficientInUnit := by
  intro c r
  refine ⟨fun h => declickAlpha_of_bypass h r, fun h => ?_⟩
  have halpha := declickAlpha_of_tau h r
  rw [f64Neg_one] at halpha
  refine ⟨halpha, fun hfin hneg => ?_⟩
  obtain ⟨hpos, hone⟩ := exp64_range hfin hneg
  rw [halpha]
  exact oneSub_pos_le_one hpos hone

/-! ### The declick (R237, R239) -/

/-- A value equal to 0.0 is one of the two zeros. -/
theorem zero_or_negZero_of_mag {x : F64} (h : f64Mag x = 0) : x = f64Zero ∨ x = f64Neg f64Zero := by
  cases hs : f64Neg? x with
  | false => exact .inl (f64_ext (hs.trans (by decide)) (h.trans (by decide)))
  | true => exact .inr (f64_ext (hs.trans (by decide)) (h.trans (by decide)))

theorem f64Mag_of_f64Eq_zero {x : F64} (h : f64Eq x f64Zero = true) : f64Mag x = 0 := by
  simp only [f64Eq, Bool.and_eq_true, decide_eq_true_eq, f64Key_zero] at h
  obtain ⟨-, hkey⟩ := h
  unfold f64Key at hkey
  split_ifs at hkey <;> omega

/-- The magnitude of a zero is +0.0, whatever its sign. -/
theorem f64Abs_of_f64Eq_zero {x : F64} (h : f64Eq x f64Zero = true) : f64Abs x = f64Zero := by
  rcases zero_or_negZero_of_mag (f64Mag_of_f64Eq_zero h) with rfl | rfl
  · decide
  · decide

/-- Settles O48: the bypass hands the mix to the snap, which replaces exactly the zeros. -/
theorem bypassPassesTheMix : Obligations.BypassPassesTheMix := by
  intro c alpha y m htau hsnap
  rw [declick, smooth, if_pos htau, snapSilence]
  cases hm : f64Eq m f64Zero with
  | true => rw [f64Abs_of_f64Eq_zero hm, hsnap]; rfl
  | false => rfl

/-! ### A RENDER of no samples (R131, R231) -/

theorem f64OfInt_zero : f64OfInt 0 = f64Zero := by simp [f64OfInt, f64Round_zero]

/-- Under a legal rate, an advance by no samples leaves a non-negative Clock as it is, bit for bit. -/
theorem clockAdvance_zero {s : State} (hrate : RateInv s) (hclk : ClockInv s) : clockAdvance 0 s = s := by
  obtain ⟨hlegal, -, -⟩ := hrate
  obtain ⟨hfin, hpos, -⟩ := (legalRate_iff s.sr).1 hlegal
  obtain ⟨hsign, hnan⟩ := hclk
  have hne : s.clk ≠ 0x8000000000000000#64 := by
    intro h
    rw [h] at hsign
    exact absurd hsign (by decide)
  have hsum : f64Add s.clk (f64Div (f64OfInt (0 : Nat)) s.sr) = s.clk := by
    rw [Nat.cast_zero, f64OfInt_zero, f64Zero_div hfin hpos, f64Add_zero hnan hne]
  rw [clockAdvance, hsum]

/-- Settles O51: with no sample made, the Clock's advance by no samples is all that follows the snapshot. -/
theorem emptyRenderOnlyTakesItsSnapshot : Obligations.EmptyRenderOnlyTakesItsSnapshot := by
  intro nch s hadm hrate hclk
  have hrender : renderBlock nch 0 (takeSnapshot s) = takeSnapshot s :=
    clockAdvance_zero (s := takeSnapshot s) hrate hclk
  exact ⟨takeSnapshot s, (exec_render_admitted hadm nch 0).trans (congrArg _ hrender), rfl⟩

/-! ### A RENDER of a quiescent state (R241, R346) -/

theorem f64Mag_mul_zero {x : F64} (fx : f64IsFinite x = true) : f64Mag (f64Mul x f64Zero) = 0 := by
  simp [f64Mul, f64IsNaN_zero, f64IsInf_zero, f64Units_zero, f64IsFinite_notNaN fx, f64IsFinite_notInf fx,
    roundMag, roundDiv]

/-- The smoother at +0.0 fed with +0.0 stays there, even where its increment is -0.0. -/
theorem smooth_zero (c : Config) {alpha : F64} (fa : f64IsFinite alpha = true) :
    smooth c alpha f64Zero f64Zero = f64Zero := by
  have hdiff : f64Sub f64Zero f64Zero = f64Zero := f64Sub_self (by decide)
  unfold smooth
  split_ifs
  · rfl
  · rw [hdiff]
    rcases zero_or_negZero_of_mag (f64Mag_mul_zero fa) with h | h
    · rw [h]; decide
    · rw [h]; decide

theorem declick_zero (c : Config) {alpha : F64} (fa : f64IsFinite alpha = true) :
    declick c alpha f64Zero f64Zero = f64Zero := by
  rw [declick, smooth_zero c fa, snapSilence, ite_self]

/-- The frames of `n` silent samples; none without a channel (R80). -/
def silentFrames (nch : BitVec 8) (n : Nat) : List (List F32) :=
  if nch = 0 then [] else List.replicate n (List.replicate nch.toNat 0x00000000#32)

theorem silentFrames_one_append (nch : BitVec 8) (n : Nat) :
    silentFrames nch 1 ++ silentFrames nch n = silentFrames nch (n + 1) := by
  unfold silentFrames
  split_ifs
  · rfl
  · rfl

theorem f32OfF64_zero : f32OfF64 f64Zero = 0x00000000#32 := by decide +kernel

section
variable {s : State} (hq : Quiescent s) (hidle : IdleInv s)
include hq hidle

theorem envEvaluate_of_quiescent (t : F64) : envEvaluate s.cfg s.snap t s.env = s.env := by
  obtain ⟨hstage, -, -⟩ := hq
  rw [envEvaluate_of_idle _ _ _ hstage, evalIdle, ← hidle hstage]

theorem mix_of_quiescent (t : F64) : mix (evalEnvelope t s) t = f64Zero := by
  have henv : evalEnvelope t s = s := by rw [evalEnvelope, envEvaluate_of_quiescent hq hidle]
  obtain ⟨hstage, hsounding, -⟩ := hq
  rw [henv]
  exact mix_of_no_voice (by simp [selectVoice, hstage, hsounding]) t

variable (fa : f64IsFinite s.alpha = true)
include fa

/-- A sample of a quiescent state only emits its frame. -/
theorem sampleStep_of_quiescent (nch : BitVec 8) (t : F64) :
    sampleStep nch t s = { s with out := s.out ++ silentFrames nch 1 } := by
  have hmix := mix_of_quiescent hq hidle t
  have henv := envEvaluate_of_quiescent hq hidle t
  obtain ⟨-, -, hy⟩ := hq
  rw [sampleStep_eq, hmix, hy, declick_zero _ fa, f32OfF64_zero, henv, ← hy, silentFrames]
  split_ifs
  · rw [List.append_nil]
  · rfl

end

/-- The loop keeps a quiescent state quiescent and emits silence. -/
theorem sampleLoop_of_quiescent {s : State} (hq : Quiescent s) (hidle : IdleInv s)
    (fa : f64IsFinite s.alpha = true) (nch : BitVec 8) (t0 : F64) (n : Nat) (off : F64) :
    sampleLoop nch t0 n off s = { s with out := s.out ++ silentFrames nch n } := by
  induction n generalizing off s with
  | zero => simp [sampleLoop, silentFrames]
  | succ n ih =>
    rw [sampleLoop, sampleStep_of_quiescent hq hidle fa,
      ih (s := { s with out := s.out ++ silentFrames nch 1 }) hq hidle fa, List.append_assoc,
      silentFrames_one_append]

/-- Settles O52: no sample of a quiescent state ends its quiescence, and the rest of a RENDER is its snapshot and
the Clock's advance. -/
theorem quiescentRenderIsSilent : Obligations.QuiescentRenderIsSilent := by
  intro nch n s hadm hq hidle fa _
  have hloop := sampleLoop_of_quiescent (s := takeSnapshot s) hq hidle fa nch s.clk n.toNat f64Zero
  refine ⟨_, exec_render_admitted hadm nch n, ?_⟩
  rw [renderBlock, takeSnapshot_clk, hloop]
  rfl

end Sys2Proof.Machine
end

section
/-! PROOFS of the statements of `spec/46_parameters.md`. Either port may carry a parameter command, so its checks are
FAULT (SET_PARAM alone) and RESERVED; an index then names one register by its number, or is INDEX. -/

namespace Sys2Proof.Machine

open Sys2Proof Sys2Proof.Claims

/-! ### The checks of a command that either port may carry (R107, R110, R303) -/

theorem legalOn_of_legalOnC {op : Opcode} (h : Opcode.legalOnC op = true) (p : PortId) :
    Opcode.legalOn op p = true := by
  cases p with
  | R => rfl
  | C => exact h

theorem exec_eq_checks_eitherPort {i : Instr} (hport : Opcode.legalOnC i.opcode = true) (s : State) :
    exec i s = .next (
      if (s.status.fault && Opcode.frozenByFault i.opcode) = true then
        refused s .faulted (Opcode.responseWords i.opcode)
      else if i.reservedSet = true then refused s .reserved (Opcode.responseWords i.opcode)
      else ownEffect i s) := by
  rw [exec_eq_checks, legalOn_of_legalOnC hport, if_neg (Bool.noConfusion)]

/-! ### The register an index names (R32, R71) -/

/-- The index of a parameter register (R32). -/
def indexOf : ParamIdx → BitVec 8
  | .oscillator => 0
  | .attack => 1
  | .decay => 2
  | .sustain => 3
  | .release => 4

theorem eq_indexOf_of_paramIdx? {x : BitVec 8} {j : ParamIdx} (h : paramIdx? x = some j) : x = indexOf j := by
  rw [paramIdx?] at h
  split_ifs at h with hx hx hx hx hx <;> cases h <;> exact hx

theorem four_lt_of_paramIdx?_eq_none {x : BitVec 8} (h : paramIdx? x = none) : 4 < x.toNat := by
  rw [paramIdx?] at h
  split_ifs at h
  bv_omega

theorem indexOf_toNat_le (j : ParamIdx) : (indexOf j).toNat ≤ 4 := by
  cases j <;> decide

theorem get_eq_regAt (f : Five F32) (j : ParamIdx) : f.get j = regAt f (indexOf j) := by
  cases j <;> rfl

theorem set_eq_withReg (f : Five F32) (j : ParamIdx) (d : F32) : f.set j d = withReg f (indexOf j) d := by
  cases j <;> rfl

/-! ### SET_PARAM (R262) -/

theorem setParam_eq (x : BitVec 8) (d : Word) (s : State) : setParam x d s =
    if 4 < x.toNat then refused s .index 0 else { s with params := withReg s.params x d } := by
  rw [setParam]
  cases h : paramIdx? x with
  | none => rw [if_pos (four_lt_of_paramIdx?_eq_none h), ← raiseError_eq_refused]
  | some j =>
    obtain rfl := eq_indexOf_of_paramIdx? h
    rw [if_neg (indexOf_toNat_le j).not_gt, ← set_eq_withReg]
    rfl

/-- Settles O16: past the checks SET_PARAM is `setParam`, the write of the register its index names or INDEX. -/
theorem setParamStoresRawPattern : Obligations.SetParamStoresRawPattern := by
  intro x d rsv s
  refine ⟨rfl, ?_⟩
  rw [exec_eq_checks_eitherPort rfl]
  simp only [Instr.opcode, Instr.reservedSet, Opcode.frozenByFault, Bool.and_true, bne_iff_ne, ownEffect, setParam_eq]
  rfl

/-! ### GET_PARAM (R263) -/

theorem getParam_eq (x : BitVec 8) (s : State) : getParam x s =
    if 4 < x.toNat then refused s .index 1 else answered s [regAt s.params x] := by
  rw [getParam]
  cases h : paramIdx? x with
  | none => rw [if_pos (four_lt_of_paramIdx?_eq_none h), ← raiseError_eq_refused]
  | some j =>
    obtain rfl := eq_indexOf_of_paramIdx? h
    rw [if_neg (indexOf_toNat_le j).not_gt, ← get_eq_regAt, ← respond_cur_eq_answered]
    rfl

/-- Settles O17: FAULT does not refuse GET_PARAM, and past RESERVED it is `getParam`, an answer or INDEX. -/
theorem getParamAnswersOnItsPort : Obligations.GetParamAnswersOnItsPort := by
  intro x rsv s
  refine ⟨rfl, ?_⟩
  rw [exec_eq_checks_eitherPort rfl]
  simp only [Instr.opcode, Instr.reservedSet, Opcode.frozenByFault, Bool.and_false, Bool.false_eq_true, if_false,
    bne_iff_ne, ownEffect, getParam_eq]
  rfl

end Sys2Proof.Machine
end

section
/-! PROOFS of the statements of `spec/47_system.md`. NOP meets the check of either port, RESET and READ_STATUS those of
port R that FAULT does not add to; the status word's value is read off its fields, one concatenation at a time. -/

namespace Sys2Proof.Machine

open Sys2Proof Sys2Proof.Claims

/-! ### NOP (R280) -/

/-- Settles O13: either port carries NOP and FAULT does not refuse it, which leaves RESERVED or no effect. -/
theorem nopChangesNothing : Obligations.NopChangesNothing := by
  intro rsv s
  refine ⟨rfl, ?_⟩
  rw [exec_eq_checks_eitherPort rfl]
  simp only [Instr.opcode, Instr.reservedSet, Opcode.frozenByFault, Opcode.responseWords, Bool.and_false,
    Bool.false_eq_true, if_false, bne_iff_ne, ite_not, ownEffect, id_eq]

/-! ### The checks of a command of port R that FAULT does not refuse (R107, R303) -/

theorem exec_eq_checks_unfrozen {i : Instr} (hport : Opcode.legalOnC i.opcode = false)
    (hfree : Opcode.frozenByFault i.opcode = false) (s : State) :
    exec i s = .next (
      if s.cur = .C then refused s .illegal (Opcode.responseWords i.opcode)
      else if i.reservedSet = true then refused s .reserved (Opcode.responseWords i.opcode)
      else ownEffect i s) := by
  simp only [exec_eq_checks, legalOn_eq_false_iff hport, hfree, Bool.and_false, Bool.false_eq_true, if_false]

/-! ### RESET (R282) -/

theorem exec_reset_eq (rsv : BitVec 24) (s : State) : exec (.reset rsv) s = .next (
    if s.cur = .C then refused s .illegal 0
    else if rsv ≠ 0 then refused s .reserved 0
    else resetState s) := by
  rw [exec_eq_checks_unfrozen rfl rfl]
  simp only [Instr.reservedSet, bne_iff_ne]
  rfl

/-- Settles O20: past the checks RESET is `resetState`, whose writes are the statement's. -/
theorem resetCommandRestoresResetValues : Obligations.ResetCommandRestoresResetValues := by
  intro rsv s
  refine ⟨rfl, fun hC => ?_, fun hR hrsv => ?_, fun hR hrsv => ⟨resetState s, ?_, rfl⟩⟩
  · rw [exec_reset_eq, if_pos hC]
  · rw [exec_reset_eq, hR, if_neg PortId.noConfusion, if_pos hrsv]
  · rw [exec_reset_eq, hR, if_neg PortId.noConfusion, if_neg (not_not_intro hrsv)]

/-! ### READ_STATUS (R284) -/

/-- READ_STATUS that arrived on port R, the port it answers on. -/
theorem readStatus_eq_answered {s : State} (h : s.cur ≠ .C) :
    readStatus s = { answered s [statusWord s] with status := ⟨s.status.fault, .noError⟩ } := by
  rw [readStatus, setErr, respond_status, respond_R_eq_answered h]

/-- Settles O21: past the checks the port is R, and clearing ERR keeps FAULT. -/
theorem readStatusAnswersThenClearsErr : Obligations.ReadStatusAnswersThenClearsErr := by
  intro rsv s
  refine ⟨rfl, ?_⟩
  rw [exec_eq_checks_unfrozen rfl rfl]
  simp only [Instr.reservedSet, bne_iff_ne, ownEffect]
  congr 1
  split_ifs with hC
  · rfl
  · rfl
  · exact readStatus_eq_answered hC

/-! ### The status word (R40, R285) -/

/-- A concatenation as a number: the first part stands above the second's `m` bits. -/
theorem toNat_append_eq_add {n m : Nat} (x : BitVec n) (y : BitVec m) :
    (x ++ y).toNat = x.toNat * 2 ^ m + y.toNat := by
  rw [BitVec.toNat_append, ← Nat.shiftLeft_add_eq_or_of_lt y.isLt, Nat.shiftLeft_eq]

theorem errCode_toNat (e : ErrCode) : (ErrCode.code e).toNat = errNumber e := by cases e <;> rfl

theorem stageCode_toNat (g : Stage) : (Stage.code g).toNat = stageNumber g := by cases g <;> rfl

/-- NOTE_PITCH and NOTE_VEL together: both 0 while no note sounds. -/
theorem noteFields_toNat (nt : NoteTracker) : (notePitch nt ++ noteVel nt).toNat =
    if nt.sounding then nt.pitch.toNat * 2 ^ 8 + nt.velocity.toNat else 0 := by
  rw [toNat_append_eq_add, notePitch, noteVel]
  cases nt.sounding with
  | false => simp
  | true =>
    have hpitch : (nt.pitch.setWidth 8).toNat = nt.pitch.toNat := BitVec.toNat_setWidth_of_le (by decide)
    have hvel : (nt.velocity.setWidth 8).toNat = nt.velocity.toNat := BitVec.toNat_setWidth_of_le (by decide)
    simp only [if_true, hpitch, hvel]

/-- A one-bit field's weight `k` counts exactly when the bit is set. -/
theorem ofBool_toNat_mul (b : Bool) (k : Nat) : (BitVec.ofBool b).toNat * k = if b then k else 0 := by
  cases b <;> simp

/-- Settles O24: each field's value times the weight of the bits below it. -/
theorem statusWordHasItsFields : Obligations.StatusWordHasItsFields := by
  intro s
  rw [statusWord, toNat_append_eq_add, noteFields_toNat, ← ofBool_toNat_mul s.status.fault (2 ^ 31),
    ← ofBool_toNat_mul s.nt.sounding (2 ^ 23)]
  simp only [toNat_append_eq_add, errCode_toNat, stageCode_toNat, BitVec.ofNat_eq_ofNat, BitVec.toNat_zero]
  ring

end Sys2Proof.Machine
end

section
/-! PROOFS of the statements of `spec/60_exceptions.md`. A command with an error reports the first one of R302's order
and does nothing else, BAD_RATE apart, which sets FAULT; one without an error is its own effect, which clears ERR or
FAULT only as RESET or READ_STATUS. -/

namespace Sys2Proof.Machine

open Sys2Proof Sys2Proof.Claims

/-! ### The order of the errors (R302) -/

theorem refusedUnderFault_eq (i : Instr) : refusedUnderFault i = Opcode.frozenByFault i.opcode := by
  cases i <;> rfl

theorem legalOn_eq_false_iff_mayCarry (i : Instr) (p : PortId) :
    Opcode.legalOn i.opcode p = false ↔ p = .C ∧ portCMayCarry i = false := by
  cases p <;> simp [Opcode.legalOn, portCMayCarry_eq]

/-- The first error of a command is that of the checks of R110, else that of its own check. -/
theorem firstError_eq (i : Instr) (s : State) :
    firstError i s = (firstRefusal i.opcode i.reservedSet s).or (ownError i) := by
  simp only [firstError, firstRefusal, legalOn_eq_false_iff_mayCarry, refusedUnderFault_eq, Bool.and_eq_true,
    Instr.wf, Bool.not_eq_false']
  split_ifs <;> rfl

/-- A command without an error has passed the checks and its own check. -/
theorem firstError_eq_none_iff (i : Instr) (s : State) :
    firstError i s = none ↔ firstRefusal i.opcode i.reservedSet s = none ∧ ownError i = none := by
  rw [firstError_eq, Option.or_eq_none_iff]

/-- FAULT refuses the commands it freezes. -/
theorem firstError_ne_none_of_frozen {i : Instr} {s : State} (hf : s.status.fault = true)
    (hz : refusedUnderFault i = true) : firstError i s ≠ none := by
  rw [Ne, firstError_eq_none_iff, firstRefusal_eq_none_iff, hf, ← refusedUnderFault_eq, hz]
  rintro ⟨⟨-, hpass, -⟩, -⟩
  exact Bool.noConfusion hpass

/-! ### A command's own check (R301) -/

/-- The errors a command's own check can report, each of the commands that check for it. -/
theorem ownError_cases {i : Instr} {e : ErrCode} (h : ownError i = some e) :
    e = .range ∨ e = .index ∨ (e = .badRate ∧ ∃ lo hi rsv, i = .setSampleRate lo hi rsv ∧
      legalRate (hi ++ lo) = false) := by
  cases i with
  | noteOn | noteOff | setParam | getParam =>
    obtain ⟨-, ⟨⟩⟩ := Option.ite_none_right_eq_some.1 h
    simp
  | setSampleRate lo hi rsv =>
    obtain ⟨hbad, ⟨⟩⟩ := Option.ite_none_left_eq_some.1 h
    exact .inr (.inr ⟨rfl, lo, hi, rsv, rfl, Bool.eq_false_iff.2 fun hl => hbad ((legalRate_iff _).1 hl)⟩)
  | _ => cases h

/-- A check that failed, and what the command then does. -/
theorem ite_refused_of_some {c : Prop} [Decidable c] {code e : ErrCode} (s t : State) (n : Nat)
    (h : (if c then some code else none) = some e) : (if c then refused s code n else t) = refused s e n := by
  obtain ⟨hc, ⟨⟩⟩ := Option.ite_none_right_eq_some.1 h
  exact if_pos hc

/-- A check that passed. -/
theorem ite_of_none {c : Prop} [Decidable c] {code : ErrCode} (r t : State)
    (h : (if c then some code else none) = none) : (if c then r else t) = t :=
  if_neg fun hc => nomatch (if_pos hc).symm.trans h

/-- A command that its own check refuses does nothing but report it, except for BAD_RATE (R15, R300). -/
theorem ownEffect_of_ownError {i : Instr} {e : ErrCode} (h : ownError i = some e) (he : e ≠ .badRate) (s : State) :
    ownEffect i s = refused s e (responseCount i) := by
  cases i with
  | noteOn p v => exact (noteOn_eq p v s).trans (ite_refused_of_some _ _ _ h)
  | noteOff p => exact (noteOff_eq p s).trans (ite_refused_of_some _ _ _ h)
  | setParam x d => exact (setParam_eq x d s).trans (ite_refused_of_some _ _ _ h)
  | getParam x => exact (getParam_eq x s).trans (ite_refused_of_some _ _ _ h)
  | setSampleRate =>
    obtain ⟨-, ⟨⟩⟩ := Option.ite_none_left_eq_some.1 h
    exact absurd rfl he
  | _ => cases h

/-- An illegal rate sets FAULT and is then reported (R136). -/
theorem changeRate_of_illegal {r : F64} (h : legalRate r = false) (s : State) :
    changeRate r s = refused { s with status := ⟨true, s.status.err⟩ } .badRate 0 := by
  rw [changeRate, h, if_neg Bool.noConfusion, raiseError_eq_refused]
  rfl

/-- STATUS after a command without an error: RESET clears both fields, READ_STATUS clears ERR. -/
def statusAfter (i : Instr) (st : Status) : Status :=
  match i with
  | .reset _ => ⟨false, .noError⟩
  | .readStatus _ => ⟨st.fault, .noError⟩
  | _ => st

theorem ownEffect_status {i : Instr} (h : ownError i = none) (s : State) :
    (ownEffect i s).status = statusAfter i s.status := by
  cases i with
  | noteOn p v =>
    rw [ownEffect, noteOn_eq, ite_of_none _ _ h]
    rfl
  | noteOff p =>
    rw [ownEffect, noteOff_eq, ite_of_none _ _ h]
    split <;> rfl
  | setParam x d =>
    rw [ownEffect, setParam_eq, ite_of_none _ _ h]
    rfl
  | getParam x =>
    rw [ownEffect, getParam_eq, ite_of_none _ _ h, ← respond_cur_eq_answered, respond_status]
    rfl
  | setSampleRate lo hi =>
    have hok : legalRate (f64OfWords lo hi) = true :=
      (legalRate_iff _).2 (by_contra fun hbad => nomatch (if_neg hbad).symm.trans h)
    rw [ownEffect, changeRate, if_pos hok]
    rfl
  | render nch n =>
    obtain ⟨_, _, _, heq⟩ := renderBlock_frame nch n.toNat (takeSnapshot s)
    exact (congrArg State.status heq).trans rfl
  | readStatus => exact congrArg (Status.mk · .noError) (congrArg Status.fault (respond_status _ _ s))
  | readClock => exact respond_status _ _ s
  | readEnv => exact respond_status _ _ s
  | _ => rfl

/-! ### A command by its first error (R302) -/

theorem exec_of_noError {i : Instr} {s : State} (h : firstError i s = none) :
    exec i s = .next (ownEffect i s) := by
  rw [exec_eq_guarded, guarded, ((firstError_eq_none_iff i s).1 h).1]

/-- The errors of the checks of R110 are ILLEGAL, FAULTED and RESERVED. -/
theorem firstRefusal_ne_badRate (op : Opcode) (b : Bool) (s : State) : firstRefusal op b s ≠ some .badRate := by
  unfold firstRefusal
  split_ifs <;> simp

theorem exec_of_firstError {i : Instr} {s : State} {e : ErrCode} (h : firstError i s = some e)
    (he : e ≠ .badRate) : exec i s = .next (refused s e (responseCount i)) := by
  rw [exec_eq_guarded, guarded]
  rw [firstError_eq] at h
  cases hr : firstRefusal i.opcode i.reservedSet s with
  | some e' =>
    obtain rfl : e' = e := by simpa [hr] using h
    rw [responseCount_eq, ← raiseError_eq_refused]
  | none =>
    rw [hr, Option.none_or] at h
    exact congrArg _ (ownEffect_of_ownError h he s)

/-- BAD_RATE is no error of the checks of R110, so the command has passed them. -/
theorem passed_of_badRate {i : Instr} {s : State} (h : firstError i s = some .badRate) :
    firstRefusal i.opcode i.reservedSet s = none ∧ ownError i = some .badRate := by
  rw [firstError_eq, Option.or_eq_some_iff] at h
  exact h.resolve_left (firstRefusal_ne_badRate _ _ s)

/-- BAD_RATE is reported of SET_SAMPLE_RATE with an illegal rate, its reserved bits clear and FAULT not yet set. -/
theorem setSampleRate_of_badRate {i : Instr} {s : State} (h : firstError i s = some .badRate) :
    s.status.fault = false ∧ ∃ lo hi, i = .setSampleRate lo hi 0 ∧ legalRate (hi ++ lo) = false := by
  obtain ⟨hpass, hown⟩ := passed_of_badRate h
  obtain ⟨-, hfault, hrsv⟩ := (firstRefusal_eq_none_iff _ _ _).1 hpass
  rcases ownError_cases hown with h | h | ⟨-, lo, hi, rsv, rfl, hbad⟩
  · cases h
  · cases h
  · obtain rfl : rsv = 0 := bne_eq_false_iff_eq.1 hrsv
    exact ⟨(Bool.and_true _).symm.trans hfault, lo, hi, rfl, hbad⟩

theorem exec_of_badRate {i : Instr} {s : State} (h : firstError i s = some .badRate) :
    exec i s = .next (refused { s with status := ⟨true, s.status.err⟩ } .badRate 0) := by
  obtain ⟨-, lo, hi, rfl, hbad⟩ := setSampleRate_of_badRate h
  rw [exec_eq_guarded, guarded, (passed_of_badRate h).1]
  exact congrArg _ (changeRate_of_illegal hbad s)

/-- Settles O11: by the value of the first error; an undefined opcode is refused by its port. -/
theorem firstErrorInOrderIsReported : Obligations.FirstErrorInOrderIsReported := by
  refine ⟨fun i s e => exec_of_firstError, fun i s => exec_of_badRate, fun i s h => ?_, fun p s w ws hw hopc => ?_⟩
  · refine ⟨_, exec_of_noError h, ?_⟩
    rw [ownEffect_status ((firstError_eq_none_iff i s).1 h).2]
    cases i <;> rfl
  · exact ⟨_, runPort_undefined hw hopc, congrArg Status.err (illegalOn_status _ _ _ _)⟩

/-! ### The fault state (R303) -/

/-- FAULTED is reported only of the commands FAULT freezes. -/
theorem refusedUnderFault_of_faulted {i : Instr} {s : State} (h : firstError i s = some .faulted) :
    refusedUnderFault i = true := by
  unfold firstError at h
  split_ifs at h with hport hfault hrsv
  · cases h
  · exact hfault.2
  · cases h
  · rcases ownError_cases h with h | h | ⟨h, -⟩ <;> cases h

theorem refused_status (s : State) (e : ErrCode) (n : Nat) : (refused s e n).status = ⟨s.status.fault, e⟩ := by
  rw [← raiseError_eq_refused, raiseError_status]

/-- A refusal without response words writes ERR and nothing else. -/
theorem refused_zero (s : State) (e : ErrCode) : refused s e 0 = { s with status := ⟨s.status.fault, e⟩ } := by
  rw [← raiseError_eq_refused, raiseError_zero]
  rfl

/-- The commands FAULT freezes answer no words. -/
theorem responseCount_of_frozen {i : Instr} (h : refusedUnderFault i = true) : responseCount i = 0 := by
  cases i with
  | getParam | readStatus | readClock | readEnv => cases h
  | _ => rfl

/-- RESET alone, of the effects of commands, lowers FAULT, and none raises it. -/
theorem statusAfter_fault (i : Instr) (st : Status) :
    (∃ rsv, i = .reset rsv ∧ (statusAfter i st).fault = false) ∨ (statusAfter i st).fault = st.fault := by
  cases i with
  | reset rsv => exact .inl ⟨rsv, rfl, rfl⟩
  | _ => exact .inr rfl

theorem statusAfter_err (i : Instr) (st : Status) :
    (statusAfter i st).err = .noError ∨ (statusAfter i st).err = st.err := by
  cases i with
  | reset | readStatus => exact .inl rfl
  | _ => exact .inr rfl

/-- Settles O12: a refusal keeps FAULT, BAD_RATE sets it, and of the admitted commands only RESET clears it. -/
theorem faultStateIsFrozenUntilReset : Obligations.FaultStateIsFrozenUntilReset := by
  intro i s t hx
  cases he : firstError i s with
  | none =>
    obtain ⟨hpass, hown⟩ := (firstError_eq_none_iff i s).1 he
    obtain ⟨-, -, hrsv⟩ := (firstRefusal_eq_none_iff _ _ _).1 hpass
    rw [exec_of_noError he] at hx
    cases hx
    rw [ownEffect_status hown]
    refine ⟨fun hf ht => ?_, fun hf ht => ?_, fun hf hz => absurd he (firstError_ne_none_of_frozen hf hz),
      fun _ _ ht => ?_⟩
    · rcases statusAfter_fault i s.status with ⟨_, -, h⟩ | h <;> simp [h, hf] at ht
    · rcases statusAfter_fault i s.status with ⟨rsv, rfl, -⟩ | h
      · exact congrArg Instr.reset (bne_eq_false_iff_eq.1 hrsv)
      · simp [h, hf] at ht
    · rcases statusAfter_err i s.status with h | h
      · simp [h] at ht
      · exact h ▸ ht
  | some e =>
    by_cases hb : e = .badRate
    · subst hb
      obtain ⟨hnf, hbad⟩ := setSampleRate_of_badRate he
      have hnf' : s.status.fault ≠ true := by simp [hnf]
      exact ⟨fun _ _ => hbad, fun hf => absurd hf hnf', fun hf => absurd hf hnf', fun hf => absurd hf hnf'⟩
    · rw [exec_of_firstError he hb] at hx
      cases hx
      rw [refused_status]
      refine ⟨fun hf ht => ?_, fun hf ht => ?_, fun hf hz => ?_, fun hf hz ht => ?_⟩
      · exact absurd (hf.symm.trans ht) Bool.noConfusion
      · exact absurd (hf.symm.trans ht) Bool.noConfusion
      · rw [responseCount_of_frozen hz, refused_zero, hf]
      · obtain rfl : e = .faulted := ht
        exact absurd ((refusedUnderFault_of_faulted he).symm.trans hz) Bool.noConfusion

end Sys2Proof.Machine
end

section
/-! PROOFS of the statements of `spec/70_reset_and_hazards.md`. RESET on port R and hardware reset are both
`resetState`; hardware reset then clears the framing, and the reset state is a fixed point of `resetState`. -/

namespace Sys2Proof.Machine

open Sys2Proof Sys2Proof.Claims

/-! ### The two resets (R282, R330, R331) -/

theorem exec_reset_admitted {s : State} (h : s.cur = .R) : exec (.reset 0) s = .next (resetState s) :=
  exec_admitted (by rw [h]; rfl) (Bool.and_false _) rfl

/-- Hardware reset answers nothing and keeps the answers given. -/
theorem hardwareReset_responses (s : State) :
    (hardwareReset s).portR.responses = s.portR.responses ∧
    (hardwareReset s).portC.responses = s.portC.responses := by
  refine ⟨?_, rfl⟩
  rw [hardwareReset, cleared_responses]
  split
  · exact dropWords_responses s.portR 1
  · rfl

/-- Hardware reset gives the registers, STATUS and the output stream what `resetState` gives them. -/
theorem sameBlock_hardwareReset (s : State) :
    sameBlock { resetState s with snapRaw := (hardwareReset s).snapRaw, snap := (hardwareReset s).snap }
      (hardwareReset s) := by
  simp [sameBlock, hardwareReset]

/-- Settles O28: RESET on port R is `resetState`, from which hardware reset differs in the framing and the
snapshot reads alone. -/
theorem resetsDifferOnlyInFraming : Obligations.ResetsDifferOnlyInFraming := by
  intro s
  obtain ⟨hR, hC⟩ := hardwareReset_responses s
  exact ⟨rfl, rfl, rfl, rfl, hR, hC, rfl, fun hcur =>
    ⟨_, exec_reset_admitted hcur, rfl, rfl, rfl, sameBlock_hardwareReset s, rfl⟩⟩

/-! ### The reset table (R330) -/

theorem samplePeriod_savoy : samplePeriod Config.savoy.resetSampleRate = 0x3EF7C6F8C751F177#64 := by decide +kernel

/-- `resetState` is the reset table, in this hardware's configuration. -/
theorem resetTable_resetState {s : State} (h : s.cfg = Config.savoy) : ResetTable (resetState s) := by
  refine ⟨rfl, ?_, ?_, ?_, rfl, rfl, rfl, rfl, rfl, rfl⟩
  · rw [resetState_sr, h]
    rfl
  · rw [resetState_dt, h, samplePeriod_savoy]
  · rw [resetState_alpha, h]
    rfl

/-- The table speaks of registers that the framing and the snapshot reads are no part of. -/
theorem resetTable_hardwareReset {s : State} (h : s.cfg = Config.savoy) : ResetTable (hardwareReset s) :=
  resetTable_resetState h

theorem resetState_reset : resetState State.reset = State.reset := by
  simp only [resetState, setRate, State.reset]

/-- Settles O29: all three are `resetState` in the registers of the table. -/
theorem resetStateIsAsTheTableSays : Obligations.ResetStateIsAsTheTableSays := by
  refine ⟨⟨?_, rfl, rfl⟩, fun s h => ⟨⟨resetTable_hardwareReset h, rfl, rfl⟩, fun hcur =>
    ⟨_, exec_reset_admitted hcur, resetTable_resetState h, rfl, rfl⟩⟩⟩
  rw [← resetState_reset]
  exact resetTable_resetState rfl

/-! ### The invariants at reset (R332, R346) -/

theorem legal_savoy : Config.legal Config.savoy := by decide +kernel

theorem rateInv_resetState {s : State} (h : legalRate s.cfg.resetSampleRate = true) : RateInv (resetState s) :=
  ⟨h, rfl, rfl⟩

theorem empty_framing : Port.empty.FramingInv := by decide

/-- Settles O30: the state after reset is silent, at time +0.0, at a legal rate and with empty ports. -/
theorem resetStateMeetsInvariants : Obligations.ResetStateMeetsInvariants := by
  obtain ⟨_, _, hrate⟩ := legal_savoy
  refine ⟨?_, rfl, rfl, rfl⟩
  exact {
    voice := rfl
    latch := nofun
    levels := ⟨rfl, rfl, rfl⟩
    idle := fun _ => rfl
    rate := resetState_reset ▸ rateInv_resetState hrate
    clock := ⟨rfl, rfl⟩
    config := legal_savoy
    snapshot := snapshotInv_of_noReads rfl
    framingR := empty_framing
    framingC := empty_framing }

end Sys2Proof.Machine
end
